-- ==== Sys2Proof/Word.lean ====
section
/-! DEFINITION. The word types of QRC: a 32-bit bus word and an 8-bit buffer byte, both unsigned (00_scope R10). -/

namespace Sys2Proof

/-- A register or command word (00_scope R7: bus data width 32 bits). -/
abbrev Word := BitVec 32

/-- A buffer byte or a GF(256) element (10_state R45, 41_galois_field R265). -/
abbrev Byte := BitVec 8

/-- `zext32` of the command rules, from a number in range (00_scope R13: values are integers in a stated range). -/
def word (n : Nat) : Word := BitVec.ofNat 32 n

end Sys2Proof
end

