-- ==== Sys2Proof/Syntax.lean ====
section
/-! DEFINITION. The commands of QRC: one constructor per row of the opcode map (30_encoding R160), with the operands
R153 gives it, each as wide as its field (R152). A level, version or mask operand keeps its raw 3-bit value, because the
values R154 rejects do decode (R171). -/

namespace Sys2Proof

/-- A decoded command word (30_encoding R160). -/
inductive Instr where
  /-- 46_control R500. -/
  | nop
  /-- 46_control R505. -/
  | srst
  /-- 41_galois_field R250: multiplicand `a`, multiplier `b`. -/
  | gfclmul (a b : BitVec 8)
  /-- 41_galois_field R255: a polynomial of degree at most 14. -/
  | gfred (p : BitVec 15)
  /-- 41_galois_field R260. -/
  | gfmul (a b : BitVec 8)
  /-- 41_galois_field R270: exponent. -/
  | gfexp (n : BitVec 8)
  /-- 41_galois_field R275: field element. -/
  | gflog (a : BitVec 8)
  /-- 42_reed_solomon R300: degree of the generator. -/
  | rsgen (nsym : BitVec 8)
  /-- 42_reed_solomon R305: data length, parity length. -/
  | rsenc (len nsym : BitVec 8)
  /-- 42_reed_solomon R310. -/
  | eccil
  /-- 40_bitstream R200: level, version. -/
  | setsym (ecl ver : BitVec 3)
  /-- 40_bitstream R205: level. -/
  | selver (ecl : BitVec 3)
  /-- 40_bitstream R210. -/
  | pack
  /-- 43_matrix R350. -/
  | mclear
  /-- 43_matrix R355. -/
  | stfind
  /-- 43_matrix R360. -/
  | stalign
  /-- 43_matrix R365. -/
  | sttime
  /-- 43_matrix R370. -/
  | rsvfmt
  /-- 43_matrix R375. -/
  | place
  /-- 44_mask R402: mask id. -/
  | mapply (mask : BitVec 3)
  /-- 44_mask R405. -/
  | mscore
  /-- 44_mask R410. -/
  | masksel
  /-- 45_format R450: level, mask id. -/
  | fmtenc (ecl mask : BitVec 3)
  /-- 45_format R455. -/
  | fmtwr
  /-- 46_control R510: level. -/
  | generate (ecl : BitVec 3)
  deriving DecidableEq, Repr

end Sys2Proof
end

