-- ==== Sys2Proof/WellFormed.lean ====
section
/-! DEFINITION. When a command's operands are ones its rule accepts. The operand fields carry their widths in their
types, so what is left to check is what can be told from the word alone: a supported level and version (30_encoding
R154), a block that fits WBUF (42_reed_solomon R305) and a nonzero logarithm operand (41_galois_field R275). An
ill-formed command still decodes and runs: it raises the error its rule names (log 20). -/

namespace Sys2Proof

/-- The level operand is L, M, Q or H (30_encoding R154). -/
def levelOk (ecl : BitVec 3) : Bool := decide (ecl.toNat ≤ 3)

/-- The version operand is one of 1 to 6 (30_encoding R154). -/
def versionOk (ver : BitVec 3) : Bool := decide (1 ≤ ver.toNat) && decide (ver.toNat ≤ 6)

/-- The operands of the command pass every check that depends on the word alone. -/
def Instr.wellFormed : Instr → Bool
  | .nop => true
  | .srst => true
  | .gfclmul _ _ => true
  | .gfred _ => true
  | .gfmul _ _ => true
  | .gfexp _ => true
  | .gflog a => a != 0#8
  | .rsgen _ => true
  | .rsenc len nsym => decide (len.toNat + nsym.toNat ≤ 256)
  | .eccil => true
  | .setsym ecl ver => levelOk ecl && versionOk ver
  | .selver ecl => levelOk ecl
  | .pack => true
  | .mclear => true
  | .stfind => true
  | .stalign => true
  | .sttime => true
  | .rsvfmt => true
  | .place => true
  | .mapply _ => true
  | .mscore => true
  | .masksel => true
  | .fmtenc ecl _ => levelOk ecl
  | .fmtwr => true
  | .generate ecl => levelOk ecl

end Sys2Proof
end

