-- ==== Sys2Proof/Decode.lean ====
section
/-! DEFINITION. Decoding a command word by the opcode map (30_encoding R160, R170, R171), and the encoder that writes
the word of a command from the formats (R151). -/

namespace Sys2Proof

/-- Why a word selects no command; either way it raises IllegalCommand (30_encoding R170, R171). -/
inductive DecodeError where
  /-- No row of the opcode map has this opcode. -/
  | unassignedOpcode
  /-- A must-be-zero bit or an unused operand field is not 0. -/
  | reservedBits
  deriving DecidableEq, Repr

/-- Field OPC of every format (30_encoding R151). -/
def opcField (w : Word) : BitVec 8 := w.extractLsb' 0 8
/-- Operand A of format F (30_encoding R152). -/
def aField (w : Word) : BitVec 8 := w.extractLsb' 16 8
/-- Operand B of format F (30_encoding R152). -/
def bField (w : Word) : BitVec 8 := w.extractLsb' 24 8
/-- Operand P of format P (30_encoding R152). -/
def pField (w : Word) : BitVec 15 := w.extractLsb' 16 15
/-- Operand ECL of format S (30_encoding R152). -/
def eclField (w : Word) : BitVec 3 := w.extractLsb' 8 3
/-- Operand VM of format S (30_encoding R152). -/
def vmField (w : Word) : BitVec 3 := w.extractLsb' 12 3

/-- One row of the opcode map: the fixed bits and how the operands are assembled. -/
structure OpcodeRow where
  opc : BitVec 8
  pattern : Word
  mask : Word
  operands : Word → Instr

/-- The opcode map (30_encoding R160), row by row; operands by R153. -/
def opcodeMap : List OpcodeRow := [
  ⟨0x00, 0x00000000, 0xFFFFFFFF, fun _ => .nop⟩,
  ⟨0x01, 0x00000001, 0xFFFFFFFF, fun _ => .srst⟩,
  ⟨0x10, 0x00000010, 0x0000FFFF, fun w => .gfclmul (aField w) (bField w)⟩,
  ⟨0x11, 0x00000011, 0x8000FFFF, fun w => .gfred (pField w)⟩,
  ⟨0x12, 0x00000012, 0x0000FFFF, fun w => .gfmul (aField w) (bField w)⟩,
  ⟨0x13, 0x00000013, 0xFF00FFFF, fun w => .gfexp (aField w)⟩,
  ⟨0x14, 0x00000014, 0xFF00FFFF, fun w => .gflog (aField w)⟩,
  ⟨0x20, 0x00000020, 0x00FFFFFF, fun w => .rsgen (bField w)⟩,
  ⟨0x21, 0x00000021, 0x0000FFFF, fun w => .rsenc (aField w) (bField w)⟩,
  ⟨0x22, 0x00000022, 0xFFFFFFFF, fun _ => .eccil⟩,
  ⟨0x30, 0x00000030, 0xFFFF88FF, fun w => .setsym (eclField w) (vmField w)⟩,
  ⟨0x31, 0x00000031, 0xFFFFF8FF, fun w => .selver (eclField w)⟩,
  ⟨0x32, 0x00000032, 0xFFFFFFFF, fun _ => .pack⟩,
  ⟨0x40, 0x00000040, 0xFFFFFFFF, fun _ => .mclear⟩,
  ⟨0x41, 0x00000041, 0xFFFFFFFF, fun _ => .stfind⟩,
  ⟨0x42, 0x00000042, 0xFFFFFFFF, fun _ => .stalign⟩,
  ⟨0x43, 0x00000043, 0xFFFFFFFF, fun _ => .sttime⟩,
  ⟨0x44, 0x00000044, 0xFFFFFFFF, fun _ => .rsvfmt⟩,
  ⟨0x45, 0x00000045, 0xFFFFFFFF, fun _ => .place⟩,
  ⟨0x50, 0x00000050, 0xFFFF8FFF, fun w => .mapply (vmField w)⟩,
  ⟨0x51, 0x00000051, 0xFFFFFFFF, fun _ => .mscore⟩,
  ⟨0x52, 0x00000052, 0xFFFFFFFF, fun _ => .masksel⟩,
  ⟨0x60, 0x00000060, 0xFFFF88FF, fun w => .fmtenc (eclField w) (vmField w)⟩,
  ⟨0x61, 0x00000061, 0xFFFFFFFF, fun _ => .fmtwr⟩,
  ⟨0x70, 0x00000070, 0xFFFFF8FF, fun w => .generate (eclField w)⟩]

/-- Decoding, total on every word (30_encoding R170): first the row by opcode, then the fixed bits. -/
def decode (w : Word) : Except DecodeError Instr :=
  match opcodeMap.find? (fun row => row.opc == opcField w) with
  | none => .error .unassignedOpcode
  | some row => if w &&& row.mask = row.pattern then .ok (row.operands w) else .error .reservedBits

/-- The instruction of a word given in the opcode table's numbering: a QRC command is one 32-bit word (30_encoding
R150), so a table row is the whole word; bits above `nbits` are 0. -/
def decodeTableWord (nbits w : Nat) : Option Instr :=
  match decode (BitVec.ofNat 32 (w % 2 ^ nbits)) with
  | .ok i => some i
  | .error _ => none

/-- Format N (30_encoding R151). -/
def formatN (opc : BitVec 8) : Word := 0#24 ++ opc
/-- Format F (30_encoding R151). -/
def formatF (b a opc : BitVec 8) : Word := b ++ a ++ 0#8 ++ opc
/-- Format P (30_encoding R151). -/
def formatP (p : BitVec 15) (opc : BitVec 8) : Word := 0#1 ++ p ++ 0#8 ++ opc
/-- Format S (30_encoding R151). -/
def formatS (vm ecl : BitVec 3) (opc : BitVec 8) : Word := 0#17 ++ vm ++ 0#1 ++ ecl ++ opc

/-- The word of a command: its format (30_encoding R151, R153) with its opcode (R160). -/
def encode : Instr → Word
  | .nop => formatN 0x00
  | .srst => formatN 0x01
  | .gfclmul a b => formatF b a 0x10
  | .gfred p => formatP p 0x11
  | .gfmul a b => formatF b a 0x12
  | .gfexp n => formatF 0 n 0x13
  | .gflog a => formatF 0 a 0x14
  | .rsgen nsym => formatF nsym 0 0x20
  | .rsenc len nsym => formatF nsym len 0x21
  | .eccil => formatN 0x22
  | .setsym ecl ver => formatS ver ecl 0x30
  | .selver ecl => formatS 0 ecl 0x31
  | .pack => formatN 0x32
  | .mclear => formatN 0x40
  | .stfind => formatN 0x41
  | .stalign => formatN 0x42
  | .sttime => formatN 0x43
  | .rsvfmt => formatN 0x44
  | .place => formatN 0x45
  | .mapply mask => formatS mask 0 0x50
  | .mscore => formatN 0x51
  | .masksel => formatN 0x52
  | .fmtenc ecl mask => formatS mask ecl 0x60
  | .fmtwr => formatN 0x61
  | .generate ecl => formatS 0 ecl 0x70

end Sys2Proof
end

