-- ==== Sys2Proof/Config.lean ====
section
/-! DEFINITION. What is fixed for one QRC: the fixed parameters of 00_scope R7 and the open ones, which are constants
with no body, so that no proof can know their values (00_scope R8, 93_implementation_defined I1, I4, I5). -/

namespace Sys2Proof.Config

/-- The value of the ID register (10_state R32; log 18). -/
def idValue : Word := 0x51524331#32

/-- The window's size in bytes (20_memory R100). -/
def windowBytes : Nat := 0x2000

/-- MAT's rows and cell slots a row (10_state R46). -/
def matRows : Nat := 41
/-- See `matRows`. -/
def matCols : Nat := 64

/-- OPEN: `QRC_BASE` in units of 8 KiB, so that the base is aligned to 8 KiB (00_scope R8; log 15). -/
opaque qrcBasePage : Nat

/-- `QRC_BASE` (00_scope R8). -/
def qrcBase : Nat := windowBytes * qrcBasePage

/-- The host address of window offset `off` (20_memory R100). -/
def hostAddress (off : BitVec 13) : Nat := qrcBase + off.toNat

/-- OPEN: `IRQ_LINE`, the host interrupt input that `irq` drives (00_scope R8; log 15). -/
opaque irqLine : Nat

/-- OPEN: `LAT(cmd, state)` of the `n`-th issue, counted in host events served between the issue of the command word
and its completion (00_scope R8, 70_reset R620; log 2). A fresh free value for every issue. -/
opaque lat : Word → Nat → Nat

/-- OPEN: the byte that window offset `addr` of the buffers and MAT holds after the `n`-th hardware reset until it is
written (10_state R50, 70_reset R600: "an arbitrary value fixed at reset, possibly different on each reset"; log 3). -/
opaque powerOn : Nat → Nat → Byte

end Sys2Proof.Config
end

