-- ==== Sys2Proof/Machine/State.lean ====
section
/-! DEFINITION. The state of QRC as plain data (10_state R30): the registers, the storage, the pending command, the
pins, and the model's own counters for the open values. BUSY is not stored twice: it is whether PEND holds a word
(10_state R49; log 1). -/

namespace Sys2Proof.Machine

/-- The matrix-builder state MSTATE (10_state R36). The reserved values 0x8 to 0xE have no name: no event produces
them (93_implementation_defined I9; log 10). -/
inductive MState where
  | empty
  | finder
  | align
  | timing
  | fmtrsv
  | data
  | masked
  | final
  | uninit
  deriving DecidableEq, Repr

/-- The command errors (60_exceptions R550). The reserved codes have no name (10_state R37; log 10). -/
inductive CmdError where
  | payloadTooLarge
  | unsupportedLevel
  | unsupportedVersion
  | illegalCommand
  | badOperand
  | logOfZero
  | sequenceError
  deriving DecidableEq, Repr

/-- STATUS without BUSY, which is `State.busy` (10_state R34). -/
structure Status where
  /-- Bit 1. -/
  done : Bool
  /-- Bit 2. -/
  err : Bool
  /-- Bit 3. -/
  ovr : Bool
  /-- Bits 7:4. -/
  mstate : MState
  /-- Bits 11:8; `none` is code 0. -/
  errCode : Option CmdError
  deriving DecidableEq, Repr

/-- CFG (10_state R38). -/
structure Cfg where
  /-- Bit 0. -/
  fallback : Bool
  /-- Bit 1. -/
  ie : Bool
  deriving DecidableEq, Repr

/-- SYM (10_state R39). -/
structure Sym where
  /-- Bits 2:0. -/
  ver : BitVec 3
  /-- Bits 6:4. -/
  ecl : BitVec 3
  /-- Bits 10:8. -/
  mask : BitVec 3
  /-- Bits 23:16. -/
  size : BitVec 8
  deriving DecidableEq, Repr

/-- One host access as the bus request carries it (20_memory R125). -/
structure BusReq where
  /-- The window offset. -/
  addr : BitVec 13
  write : Bool
  wdata : Word
  /-- One strobe a byte. -/
  strb : BitVec 4
  deriving DecidableEq, Repr

/-- The block's answer to an access (20_memory R125). -/
inductive BusResp where
  /-- A served read. -/
  | data (rdata : Word)
  /-- A served write. -/
  | ack
  /-- A rejected access (60_exceptions R551). -/
  | busErr
  /-- No answer, because `rst_n` is 0 (70_reset R600; log 5). -/
  | noAnswer
  deriving DecidableEq, Repr

/-- What the host side does next: one access, a turn without one, or an edge of `rst_n` (00_scope R9, 20_memory R125,
70_reset R600). -/
inductive HostEvent where
  | idle
  | access (req : BusReq)
  | resetAssert
  | resetRelease
  deriving DecidableEq, Repr

/-- The storage of the buffers and MAT by window offset (20_memory R103): the bytes written since the last hardware
reset, addresses strictly rising. An unlisted address holds no written byte; reading it gives the free value of
70_reset R600 (log 3). -/
abbrev Memory := List Host.Cell

/-- QRC never stops: an error is a completion (60_exceptions R560) and a bus error an answer (R551), so no reason for a
machine fault exists. -/
inductive Fault
  deriving DecidableEq, Repr

/-- Reasons for which the model gives a command no meaning. -/
inductive Refusal where
  /-- Raised by an arm of exec whose command has no meaning yet; safe, since the run stops. No arm raises it. -/
  | notModelled (mnemonic : String)
  deriving DecidableEq, Repr

/-- The state of the block (10_state R30, R49), its pins (20_memory R125), and the model's own fields. -/
structure State where
  /-- CMD, the last command word issued (10_state R33). -/
  cmd : Word
  status : Status
  cfg : Cfg
  sym : Sym
  /-- PLEN bits 7:0 (10_state R41). -/
  plen : BitVec 8
  /-- RESULT0 (10_state R42). -/
  result0 : Word
  /-- RESULT1 (10_state R42). -/
  result1 : Word
  /-- SCORE0 to SCORE7, bits 15:0 of each (10_state R43). -/
  scores : Vector (BitVec 16) 8
  /-- PBUF, DBUF, CBUF, WBUF, GBUF and MAT (10_state R45, R46). -/
  mem : Memory
  /-- PEND, the command issued and not completed (10_state R49). -/
  pend : Option Word
  /-- The level of `rst_n` (20_memory R125). -/
  rstN : Bool
  /-- The host's coming events, the next one first (log 6). -/
  host : List HostEvent
  /-- The answer to the latest access (20_memory R125; log 6). -/
  rsp : Option BusResp
  /-- MODEL'S OWN: host events still to be served before PEND completes (00_scope R8; log 2). -/
  wait : Nat
  /-- MODEL'S OWN: LAT given as an argument for the coming issues (00_scope R8; log 2). -/
  latencies : List Nat
  /-- MODEL'S OWN: issues so far, the argument of the free latency (log 2). -/
  issues : Nat
  /-- MODEL'S OWN: hardware resets so far, the argument of the free storage contents (log 3). -/
  resets : Nat
  deriving DecidableEq, Repr

/-- STATUS after reset, 0x000000F0 (10_state R34, R50). -/
def Status.reset : Status := ⟨false, false, false, .uninit, none⟩

/-- CFG after reset (10_state R38, R50). -/
def Cfg.reset : Cfg := ⟨false, false⟩

/-- SYM after reset, 0x00150011 (10_state R39, R50). -/
def Sym.reset : Sym := ⟨1#3, 1#3, 0#3, 21#8⟩

/-- SCORE0 to SCORE7 after reset (10_state R43, R50). -/
def scoresReset : Vector (BitVec 16) 8 := #v[0#16, 0#16, 0#16, 0#16, 0#16, 0#16, 0#16, 0#16]

/-- The block after reset (10_state R50, 70_reset R600), `rst_n` released and no host event waiting (log 4, log 19). -/
def State.reset : State :=
  { cmd := 0#32
    status := Status.reset
    cfg := Cfg.reset
    sym := Sym.reset
    plen := 0#8
    result0 := 0#32
    result1 := 0#32
    scores := scoresReset
    mem := []
    pend := none
    rstN := true
    host := []
    rsp := none
    wait := 0
    latencies := []
    issues := 0
    resets := 0 }

end Sys2Proof.Machine
end

