-- ==== Sys2Proof/Machine/Flags.lean ====
section
/-! DEFINITION. Every writer of the STATUS flags (10_state R35) and the words the status, configuration and symbol
registers read as (R34, R38, R39). -/

namespace Sys2Proof.Machine

/-- The encoding of MSTATE (10_state R36). -/
def MState.code : MState → BitVec 4
  | .empty => 0x0#4
  | .finder => 0x1#4
  | .align => 0x2#4
  | .timing => 0x3#4
  | .fmtrsv => 0x4#4
  | .data => 0x5#4
  | .masked => 0x6#4
  | .final => 0x7#4
  | .uninit => 0xF#4

/-- The error codes (60_exceptions R550). -/
def CmdError.code : CmdError → BitVec 4
  | .payloadTooLarge => 1#4
  | .unsupportedLevel => 2#4
  | .unsupportedVersion => 3#4
  | .illegalCommand => 4#4
  | .badOperand => 5#4
  | .logOfZero => 6#4
  | .sequenceError => 7#4

/-- The ERRCODE field (10_state R37): 0 for no error. -/
def errCodeField : Option CmdError → BitVec 4
  | none => 0#4
  | some e => e.code

/-- STATUS as the host reads it (10_state R34), from its fields and BUSY. -/
def Status.toWord (st : Status) (busy : Bool) : Word :=
  0#20 ++ errCodeField st.errCode ++ st.mstate.code ++ BitVec.ofBool st.ovr ++ BitVec.ofBool st.err
    ++ BitVec.ofBool st.done ++ BitVec.ofBool busy

/-- CFG as the host reads it (10_state R38). -/
def Cfg.toWord (c : Cfg) : Word := 0#30 ++ BitVec.ofBool c.ie ++ BitVec.ofBool c.fallback

/-- The writable bits of a word written to CFG (10_state R38). -/
def Cfg.ofWord (w : Word) : Cfg := ⟨w.getLsbD 0, w.getLsbD 1⟩

/-- SYM as the host reads it (10_state R39). -/
def Sym.toWord (y : Sym) : Word :=
  0#8 ++ y.size ++ 0#5 ++ y.mask ++ 0#1 ++ y.ecl ++ 0#1 ++ y.ver

/-- Issue, but for BUSY (10_state R35). -/
def Status.onIssue (st : Status) : Status := { st with done := false, err := false, errCode := none }

/-- Completion without error, but for BUSY (10_state R35). -/
def Status.onSuccess (st : Status) : Status := { st with done := true, err := false, errCode := none }

/-- Completion with error `e`, but for BUSY (10_state R35, 60_exceptions R560). -/
def Status.onError (e : CmdError) (st : Status) : Status := { st with done := true, err := true, errCode := some e }

/-- A write to CMD while busy (10_state R35, R61). -/
def Status.onOverrun (st : Status) : Status := { st with ovr := true }

/-- A host write to STATUS: bit 1 clears DONE, bit 3 clears OVR, the rest is ignored (10_state R35). This is also how
the host returns from an error or an interrupt (60_exceptions R562). -/
def Status.onHostWrite (w : Word) (st : Status) : Status :=
  { st with done := st.done && !w.getLsbD 1, ovr := st.ovr && !w.getLsbD 3 }

/-- STATUS.BUSY: PEND is valid exactly when it is 1 (10_state R49; log 1). -/
def State.busy (s : State) : Bool := s.pend.isSome

/-- STATUS read whole (10_state R34). -/
def State.statusWord (s : State) : Word := s.status.toWord s.busy

/-- The output `irq`: `DONE ∧ IE` (10_state R44), and 0 while reset is asserted (70_reset R600). -/
def State.irq (s : State) : Bool := s.rstN && s.status.done && s.cfg.ie

end Sys2Proof.Machine
end

