-- ==== Sys2Proof/Machine/Ops.lean ====
section
/-! DEFINITION. The shared operations: storage by window offset (20_memory R101, R103), the symbol's cells (10_state
R46, R47), issue and completion of a command (10_state R60), raising an error (60_exceptions R560) and hardware reset
(70_reset R600). -/

namespace Sys2Proof.Machine

/-! ### Storage -/

/-- The base offsets of the buffers (10_state R45) and MAT (R46). -/
def pbufBase : Nat := 0x100
/-- DBUF (10_state R45). -/
def dbufBase : Nat := 0x200
/-- CBUF (10_state R45). -/
def cbufBase : Nat := 0x300
/-- WBUF (10_state R45). -/
def wbufBase : Nat := 0x400
/-- GBUF (10_state R45). -/
def gbufBase : Nat := 0x500
/-- MAT (10_state R46). -/
def matBase : Nat := 0x1000

/-- The offset of MAT cell `(r, c)` (20_memory R103). -/
def matAddr (r c : Nat) : Nat := matBase + 64 * r + c

/-- The offset lies in one of the five buffers (20_memory R101). -/
def isBufferAddr (a : Nat) : Bool := decide (0x100 ≤ a) && decide (a < 0x600)

/-- The offset lies in MAT (20_memory R101). -/
def isMatAddr (a : Nat) : Bool := decide (0x1000 ≤ a) && decide (a < 0x1A40)

/-- The offset is a byte of storage (20_memory R101). -/
def isStorageAddr (a : Nat) : Bool := isBufferAddr a || isMatAddr a

/-- What address `a` keeps of a byte: all of it in a buffer, bits 1:0 in MAT (10_state R46). -/
def keptByte (a : Nat) (b : Byte) : Byte := if isMatAddr a then b &&& 3#8 else b

/-- The byte stored at `a` by an optional write; nothing is stored outside the storage. -/
def keptWrite (a : Nat) (o : Option Byte) : Option Byte := if isStorageAddr a then o.map (keptByte a) else none

/-- The canonical form: addresses strictly rising, every entry a byte its address can hold. -/
def Memory.wf (m : Memory) : Bool :=
  decide (m.Pairwise fun x y => x.1 < y.1) && m.all fun x => keptWrite x.1 (some x.2) == some x.2

/-- The byte written at `a`, if one was. -/
def Memory.find (m : Memory) (a : Nat) : Option Byte := (List.find? (fun x => x.1 == a) m).map Prod.snd

/-- The written byte at the head of the list, if it is the one at `a`. -/
def Memory.headAt : Memory → Nat → Option Byte
  | [], _ => none
  | (k, b) :: _, a => if k = a then some b else none

/-- The list without its head, if that is the entry at `a`. -/
def Memory.dropAt : Memory → Nat → Memory
  | [], _ => []
  | (k, b) :: m, a => if k = a then m else (k, b) :: m

/-- Lays optional bytes over the entries from address `a` on, in one pass: `some b` writes, `none` keeps. -/
def Memory.overlay (a : Nat) : List (Option Byte) → Memory → Memory
  | [], m => m
  | o :: os, m =>
    match (keptWrite a o).or (m.headAt a) with
    | some b => (a, b) :: Memory.overlay (a + 1) os (m.dropAt a)
    | none => Memory.overlay (a + 1) os (m.dropAt a)

/-- Writes the optional bytes at the consecutive addresses from `base` on. -/
def Memory.write (m : Memory) (base : Nat) (os : List (Option Byte)) : Memory :=
  m.filter (fun x => decide (x.1 < base)) ++ Memory.overlay base os (m.filter fun x => decide (base ≤ x.1))

/-- The byte of storage at window offset `a`: the one written, else the free value fixed at the last reset (70_reset
R600; log 3). -/
def State.readByte (s : State) (a : Nat) : Byte :=
  (s.mem.find a).getD (keptByte a (Config.powerOn s.resets a))

/-- The `n` bytes from `base` on. -/
def State.readBytes (s : State) (base n : Nat) : List Byte :=
  let part : Memory := s.mem.filter fun x => decide (base ≤ x.1) && decide (x.1 < base + n)
  (List.range n).map fun i =>
    (part.find (base + i)).getD (keptByte (base + i) (Config.powerOn s.resets (base + i)))

/-- Writes the bytes `bs` from `base` on. -/
def State.writeBytes (s : State) (base : Nat) (bs : List Byte) : State :=
  { s with mem := s.mem.write base (bs.map some) }

/-! ### The matrix -/

/-- Bit V of a cell byte (10_state R46). -/
def vBit (b : Byte) : Bool := b.getLsbD 0
/-- Bit R of a cell byte (10_state R46). -/
def rBit (b : Byte) : Bool := b.getLsbD 1
/-- The cell byte with the given V and R (10_state R46). -/
def cellByte (v r : Bool) : Byte := 0#6 ++ BitVec.ofBool r ++ BitVec.ofBool v

/-- The byte of MAT cell `(r, c)`. -/
def State.cell (s : State) (r c : Nat) : Byte := s.readByte (matAddr r c)

/-- `S` of the command rules: SYM.SIZE. -/
def State.size (s : State) : Nat := s.sym.size.toNat
/-- `v` of the command rules: SYM.VER. -/
def State.ver (s : State) : Nat := s.sym.ver.toNat
/-- `e` of the command rules: SYM.ECL. -/
def State.ecl (s : State) : Nat := s.sym.ecl.toNat

/-- The rows of a square of cell bytes. -/
abbrev Grid := List (List Byte)

/-- The symbol cells, row by row (10_state R47). -/
def State.symCells (s : State) : Grid :=
  (List.range s.size).map fun r => s.readBytes (matAddr r 0) s.size

/-- Cell `(r, c)` of a grid. -/
def Grid.at (g : Grid) (r c : Nat) : Byte := (g.getD r []).getD c 0#8

/-- The optional bytes for the whole of MAT, in address order. -/
def matWrites (f : Nat → Nat → Option Byte) : List (Option Byte) :=
  (List.range Config.matRows).flatMap fun r => (List.range Config.matCols).map (f r)

/-- Writes every MAT cell `(r, c)` for which `f r c` gives a byte; the others keep theirs. -/
def State.stamp (s : State) (f : Nat → Nat → Option Byte) : State :=
  { s with mem := s.mem.write matBase (matWrites f) }

/-- As `State.stamp`, for symbol cells only (10_state R47). -/
def State.stampSymbol (s : State) (f : Nat → Nat → Option Byte) : State :=
  s.stamp fun r c => if r < s.size ∧ c < s.size then f r c else none

/-- `for r in 0..40, c in 0..63: V(r,c) <- 0; R(r,c) <- 0` (43_matrix R350, 40_bitstream R200, R205). -/
def State.clearMat (s : State) : State := s.stamp fun _ _ => some 0#8

/-- Moves the matrix builder on (10_state R36). -/
def State.setMState (s : State) (m : MState) : State := { s with status := { s.status with mstate := m } }

/-! ### Issue, completion, error, reset -/

/-- LAT of the coming issue: the argument where one is given, else the free value (00_scope R8; log 2). -/
def State.nextLatency (s : State) (w : Word) : Nat :=
  match s.latencies with
  | n :: _ => n
  | [] => Config.lat w s.issues

/-- Issues the word (10_state R60, R35). -/
def State.issue (s : State) (w : Word) : State :=
  { s with
    cmd := w
    pend := some w
    status := s.status.onIssue
    wait := s.nextLatency w
    latencies := s.latencies.tail
    issues := s.issues + 1 }

/-- Completion without error: BUSY clears, DONE sets (10_state R35, R60). -/
def State.finish (s : State) : State := { s with pend := none, status := s.status.onSuccess }

/-- `raise e`, the one way an error is taken: nothing but STATUS changes (60_exceptions R560). QRC saves no state and
takes no vector; the return is the host's write to STATUS, `Status.onHostWrite`, or the next issue (R562). -/
def State.raise (e : CmdError) (s : State) : State := { s with pend := none, status := s.status.onError e }

/-- The atomic completion of a command whose effect on `s` is `effect`: all of its writes, or one error and none of them
(10_state R60, 60_exceptions R560). -/
def complete (effect : Except CmdError State) (s : State) : Host.Outcome State Fault Refusal :=
  match effect with
  | .ok t => .next t.finish
  | .error e => .next (s.raise e)

/-- The registers that both resets load (10_state R50, 46_control R505). -/
def State.resetRegisters (s : State) : State :=
  { s with
    cmd := 0#32
    status := Status.reset
    cfg := Cfg.reset
    sym := Sym.reset
    plen := 0#8
    result0 := 0#32
    result1 := 0#32
    scores := scoresReset }

/-- Hardware reset on the falling edge of `rst_n` (70_reset R600): the registers load their reset values, a busy
command is abandoned, and the storage is drawn anew (log 14). -/
def State.hardwareReset (s : State) : State :=
  { s.resetRegisters with pend := none, wait := 0, mem := [], resets := s.resets + 1, rstN := false }

/-- The command whose completion is due: LAT has passed and reset is released. -/
def State.due (s : State) : Option Word := if s.rstN = true ∧ s.wait = 0 then s.pend else none

/-- One host event nearer to the completion of PEND (70_reset R620). -/
def State.tick (s : State) : State := { s with wait := s.wait - 1 }

end Sys2Proof.Machine
end

