-- ==== Sys2Proof/Machine/Bus.lean ====
section
/-! DEFINITION. The host's side: bus accesses to the window (20_memory R100 to R110) and the other host events. -/

namespace Sys2Proof.Machine

/-- The register at a word offset below 0x40, as the host reads it (20_memory R102, R108). -/
def State.readReg (s : State) (off : Nat) : Word :=
  match off with
  | 0x00 => Config.idValue
  | 0x04 => s.cmd
  | 0x08 => s.statusWord
  | 0x0C => s.cfg.toWord
  | 0x10 => s.sym.toWord
  | 0x14 => s.plen.setWidth 32
  | 0x18 => s.result0
  | 0x1C => s.result1
  | 0x20 => s.scores[0].setWidth 32
  | 0x24 => s.scores[1].setWidth 32
  | 0x28 => s.scores[2].setWidth 32
  | 0x2C => s.scores[3].setWidth 32
  | 0x30 => s.scores[4].setWidth 32
  | 0x34 => s.scores[5].setWidth 32
  | 0x38 => s.scores[6].setWidth 32
  | 0x3C => s.scores[7].setWidth 32
  | _ => 0#32

/-- The word at storage offset `o`, little-endian (20_memory R107). -/
def State.readWord (s : State) (o : Nat) : Word :=
  s.readByte (o + 3) ++ s.readByte (o + 2) ++ s.readByte (o + 1) ++ s.readByte o

/-- Stores a word at storage offset `o`, little-endian (20_memory R107). -/
def State.writeWord (s : State) (o : Nat) (w : Word) : State :=
  s.writeBytes o [w.extractLsb' 0 8, w.extractLsb' 8 8, w.extractLsb' 16 8, w.extractLsb' 24 8]

/-- The offset is a register's (20_memory R101). -/
def isRegAddr (off : Nat) : Bool := decide (off < 0x40)

/-- A host read at an aligned offset; it has no side effect (20_memory R104, R108, R110). -/
def State.busRead (s : State) (off : Nat) : BusResp :=
  if isRegAddr off then .data (s.readReg off)
  else if isStorageAddr off && !s.busy then .data (s.readWord off)
  else .busErr

/-- A host write to a register (20_memory R108, R110, 10_state R33, R35, R61). -/
def State.writeReg (s : State) (off : Nat) (w : Word) : State × BusResp :=
  match off with
  | 0x04 => if s.busy then ({ s with status := s.status.onOverrun }, .ack) else (s.issue w, .ack)
  | 0x08 => ({ s with status := s.status.onHostWrite w }, .ack)
  | 0x0C => if s.busy then (s, .busErr) else ({ s with cfg := Cfg.ofWord w }, .ack)
  | 0x14 => if s.busy then (s, .busErr) else ({ s with plen := w.setWidth 8 }, .ack)
  | _ => (s, .ack)

/-- A host write at an aligned offset (20_memory R104, R107, R108, R110). -/
def State.busWrite (s : State) (off : Nat) (w : Word) : State × BusResp :=
  if isRegAddr off then s.writeReg off w
  else if isStorageAddr off && !s.busy then (s.writeWord off w, .ack)
  else (s, .busErr)

/-- A host access and its answer: a narrow or misaligned access is rejected first (20_memory R105, R106, 60_exceptions
R551). -/
def State.busAccess (s : State) (q : BusReq) : State × BusResp :=
  if q.strb ≠ 0xF#4 ∨ q.addr.toNat % 4 ≠ 0 then (s, .busErr)
  else if q.write then s.busWrite q.addr.toNat q.wdata
  else (s, s.busRead q.addr.toNat)

/-- Serves one access: no answer while reset is asserted (70_reset R600; log 5), else the access and its answer. -/
def State.serveAccess (s : State) (q : BusReq) : State :=
  if s.rstN then { (s.busAccess q).1 with rsp := some (s.busAccess q).2 }
  else { s with rsp := some .noAnswer }

/-- Serves one host event (20_memory R120, R125, 70_reset R600; log 13). -/
def State.serve (s : State) : HostEvent → State
  | .idle => s
  | .access q => s.serveAccess q
  | .resetAssert => if s.rstN then s.hardwareReset else s
  | .resetRelease => { s with rstN := true }

/-- The host's turn: its next event, if it has one, is served; either way PEND is one event nearer to completion
(70_reset R620; log 2). -/
def State.hostTurn (s : State) : State :=
  match s.host with
  | [] => s.tick
  | e :: es => { s.tick with host := es }.serve e

end Sys2Proof.Machine
end

