-- ==== Sys2Proof/Machine/Operands.lean ====
section
/-! DEFINITION. The operand forms: the operand checks that raise an error (30_encoding R154, 60_exceptions R555), the
MSTATE precondition, and the bit streams (00_scope R11, 20_memory R112). -/

namespace Sys2Proof.Machine

/-- The level check of every command with a level operand (30_encoding R154). -/
def checkLevel (ecl : BitVec 3) : Except CmdError Unit :=
  if levelOk ecl then .ok () else .error .unsupportedLevel

/-- The version check of SETSYM (30_encoding R154). -/
def checkVersion (ver : BitVec 3) : Except CmdError Unit :=
  if versionOk ver then .ok () else .error .unsupportedVersion

/-- The MSTATE precondition of a command (60_exceptions R550). -/
def checkSequence (accepted : Bool) : Except CmdError Unit :=
  if accepted then .ok () else .error .sequenceError

/-- The check that the payload fits (60_exceptions R550). -/
def checkPayload (fit : Bool) : Except CmdError Unit :=
  if fit then .ok () else .error .payloadTooLarge

/-- `bitsMSB(v, w)`: the `w` low bits of `v`, bit `w - 1` first (00_scope R11). -/
def bitsMSB (v w : Nat) : List Bool := (List.range w).map fun i => v.testBit (w - 1 - i)

/-- The byte whose bits are given most significant first (20_memory R112). -/
def byteOfBits (b7 b6 b5 b4 b3 b2 b1 b0 : Bool) : Byte :=
  BitVec.ofBool b7 ++ BitVec.ofBool b6 ++ BitVec.ofBool b5 ++ BitVec.ofBool b4
    ++ BitVec.ofBool b3 ++ BitVec.ofBool b2 ++ BitVec.ofBool b1 ++ BitVec.ofBool b0

/-- A bit stream packed into bytes, most significant bit first (20_memory R112); fewer than eight last bits are no
byte. -/
def bytesOfBits : List Bool → List Byte
  | b7 :: b6 :: b5 :: b4 :: b3 :: b2 :: b1 :: b0 :: rest =>
    byteOfBits b7 b6 b5 b4 b3 b2 b1 b0 :: bytesOfBits rest
  | _ => []

/-- The bit stream read out of bytes (20_memory R112). -/
def bitsOfBytes (bs : List Byte) : List Bool := bs.flatMap fun b => bitsMSB b.toNat 8

end Sys2Proof.Machine
end

