-- ==== Sys2Proof/Machine/Bitstream.lean ====
section
/-! DEFINITION. The capacity selector and the bit-stream packer (40_bitstream): SETSYM, SELVER, PACK. -/

namespace Sys2Proof.Machine

/-- A row of the capacity table, levels L, M, Q, H (40_bitstream R201). No row exists outside versions 1 to 6 (log 11). -/
def dcapRow : Nat → List Nat
  | 1 => [19, 16, 13, 9]
  | 2 => [34, 28, 22, 16]
  | 3 => [55, 44, 34, 26]
  | 4 => [80, 64, 48, 36]
  | 5 => [108, 86, 62, 46]
  | 6 => [136, 108, 76, 60]
  | _ => []

/-- `DCAP(v, e)` (40_bitstream R201). -/
def dcap (v e : Nat) : Nat := (dcapRow v).getD e 0

/-- `LW(v)` (40_bitstream R202). -/
def lengthWidth (v : Nat) : Nat := if v ≤ 9 then 8 else 16

/-- `OVH(v)`, the ceiling of the overhead bits over 8 (40_bitstream R202). -/
def overhead (v : Nat) : Nat := (4 + lengthWidth v + 4 + 7) / 8

/-- `FITS(n, v, e)` (40_bitstream R203). -/
def fits (n v e : Nat) : Bool := decide (n + overhead v ≤ dcap v e)

/-- The supported versions in ascending order (00_scope R7). -/
def versions : List Nat := [1, 2, 3, 4, 5, 6]

/-- The smallest version that fits (40_bitstream R205). -/
def smallestFit (n e : Nat) : Option Nat := versions.find? fun v => fits n v e

/-- `17 + 4·v` (00_scope R7). -/
def sizeOf (v : Nat) : Nat := 17 + 4 * v

/-- SYM for version `v` and level `e` with mask 0 (40_bitstream R200, R205). -/
def Sym.select (v e : Nat) : Sym :=
  ⟨BitVec.ofNat 3 v, BitVec.ofNat 3 e, 0#3, BitVec.ofNat 8 (sizeOf v)⟩

/-- The common effect of SETSYM and SELVER: a new symbol context over a clear matrix (40_bitstream R200, R205). -/
def State.startSymbol (s : State) (v e : Nat) : State :=
  let t := (s.clearMat).setMState .empty
  { t with sym := Sym.select v e, result0 := word v, result1 := word (dcap v e) }

/-- SETSYM (40_bitstream R200). -/
def cmdSetsym (ecl ver : BitVec 3) (s : State) : Except CmdError State := do
  checkLevel ecl
  checkVersion ver
  return s.startSymbol ver.toNat ecl.toNat

/-- The version SELVER takes: the smallest that fits, else 6 when CFG.FALLBACK is 1 (40_bitstream R205). -/
def selectVersion (n e : Nat) (fallback : Bool) : Except CmdError Nat :=
  match smallestFit n e with
  | some v => .ok v
  | none => if fallback then .ok 6 else .error .payloadTooLarge

/-- SELVER (40_bitstream R205). -/
def cmdSelver (ecl : BitVec 3) (s : State) : Except CmdError State := do
  checkLevel ecl
  let v ← selectVersion s.plen.toNat ecl.toNat s.cfg.fallback
  return s.startSymbol v ecl.toNat

/-- Steps (a) to (c) of PACK: mode indicator, length field, payload (40_bitstream R210). -/
def messageBits (v : Nat) (payload : List Byte) : List Bool :=
  [false, true, false, false] ++ bitsMSB payload.length (lengthWidth v) ++ bitsOfBytes payload

/-- Steps (d) and (e) of PACK: the terminator, truncated at the capacity `d`, and the padding to a byte (40_bitstream
R210). -/
def terminated (d : Nat) (bits : List Bool) : List Bool :=
  let withTerm := bits ++ List.replicate (min 4 (8 * d - bits.length)) false
  withTerm ++ List.replicate ((8 - withTerm.length % 8) % 8) false

/-- Step (f) of PACK: `n` pad codewords, 0xEC first, alternating with 0x11 (40_bitstream R210). -/
def padCodewords (n : Nat) : List Byte := (List.range n).map fun j => if j % 2 = 0 then 0xEC#8 else 0x11#8

/-- The codewords PACK has before padding (40_bitstream R210). -/
def unpaddedCodewords (v d : Nat) (payload : List Byte) : List Byte :=
  bytesOfBits (terminated d (messageBits v payload))

/-- PACK (40_bitstream R210). -/
def cmdPack (s : State) : Except CmdError State := do
  checkPayload (fits s.plen.toNat s.ver s.ecl)
  let d := dcap s.ver s.ecl
  let q := unpaddedCodewords s.ver d (s.readBytes pbufBase s.plen.toNat)
  let t := s.writeBytes dbufBase (q ++ padCodewords (d - q.length))
  return { t with result0 := word d, result1 := word (d - q.length) }

/-- Completion of SETSYM. -/
def execSetsym (ecl ver : BitVec 3) (s : State) : Host.Outcome State Fault Refusal := complete (cmdSetsym ecl ver s) s
/-- Completion of SELVER. -/
def execSelver (ecl : BitVec 3) (s : State) : Host.Outcome State Fault Refusal := complete (cmdSelver ecl s) s
/-- Completion of PACK. -/
def execPack (s : State) : Host.Outcome State Fault Refusal := complete (cmdPack s) s

end Sys2Proof.Machine
end

