-- ==== Sys2Proof/Machine/GaloisField.lean ====
section
/-! DEFINITION. GF(256) (41_galois_field R265) and the commands GFCLMUL, GFRED, GFMUL, GFEXP, GFLOG. -/

namespace Sys2Proof.Machine

/-- The field polynomial F(x), 0x11D, as a 15-bit polynomial (41_galois_field R265). -/
def fieldPoly : BitVec 15 := 0x11D#15

/-- `xtime` (41_galois_field R265). -/
def xtime (y : Byte) : Byte := if y.getLsbD 7 then (y <<< 1) ^^^ 0x1D#8 else y <<< 1

/-- The table EXP (41_galois_field R265). -/
def gfExpTable : Nat → Byte
  | 0 => 1#8
  | i + 1 => xtime (gfExpTable i)

/-- Walks the powers of α from `cur = EXP[i]` on until one equals `y`. -/
def gfLogFrom (y : Byte) : Nat → Nat → Byte → Option Nat
  | 0, _, _ => none
  | n + 1, i, cur => if cur = y then some i else gfLogFrom y n (i + 1) (xtime cur)

/-- The table LOG: the `i` in 0..254 with `EXP[i] = y`; none for 0 (41_galois_field R265). -/
def gfLogTable (y : Byte) : Option Nat := gfLogFrom y 255 0 1#8

/-- Carry-less multiplication (41_galois_field R250). -/
def clmul (a b : Byte) : BitVec 15 :=
  (List.range 8).foldl (fun p i => if b.getLsbD i then p ^^^ (a.setWidth 15 <<< i) else p) 0#15

/-- The modular reducer (41_galois_field R255). -/
def gfReduce (p : BitVec 15) : Byte :=
  ([14, 13, 12, 11, 10, 9, 8].foldl (fun q i => if q.getLsbD i then q ^^^ (fieldPoly <<< (i - 8)) else q) p).setWidth 8

/-- `a ⊗ b` in the carry-less form (41_galois_field R260). -/
def gfMul (a b : Byte) : Byte := gfReduce (clmul a b)

/-- GFCLMUL (41_galois_field R250). -/
def cmdGfclmul (a b : Byte) (s : State) : Except CmdError State :=
  .ok { s with result0 := (clmul a b).setWidth 32 }

/-- GFRED (41_galois_field R255). -/
def cmdGfred (p : BitVec 15) (s : State) : Except CmdError State :=
  .ok { s with result0 := (gfReduce p).setWidth 32 }

/-- GFMUL (41_galois_field R260). -/
def cmdGfmul (a b : Byte) (s : State) : Except CmdError State :=
  .ok { s with result0 := (gfMul a b).setWidth 32 }

/-- GFEXP (41_galois_field R270). -/
def cmdGfexp (n : Byte) (s : State) : Except CmdError State :=
  .ok { s with result0 := (gfExpTable n.toNat).setWidth 32 }

/-- GFLOG (41_galois_field R275). -/
def cmdGflog (a : Byte) (s : State) : Except CmdError State :=
  match gfLogTable a with
  | some i => .ok { s with result0 := word i }
  | none => .error .logOfZero

/-- Completion of GFCLMUL. -/
def execGfclmul (a b : Byte) (s : State) : Host.Outcome State Fault Refusal := complete (cmdGfclmul a b s) s
/-- Completion of GFRED. -/
def execGfred (p : BitVec 15) (s : State) : Host.Outcome State Fault Refusal := complete (cmdGfred p s) s
/-- Completion of GFMUL. -/
def execGfmul (a b : Byte) (s : State) : Host.Outcome State Fault Refusal := complete (cmdGfmul a b s) s
/-- Completion of GFEXP. -/
def execGfexp (n : Byte) (s : State) : Host.Outcome State Fault Refusal := complete (cmdGfexp n s) s
/-- Completion of GFLOG. -/
def execGflog (a : Byte) (s : State) : Host.Outcome State Fault Refusal := complete (cmdGflog a s) s

end Sys2Proof.Machine
end

