-- ==== Sys2Proof/Machine/ReedSolomon.lean ====
section
/-! DEFINITION. The Reed-Solomon encoder and interleaver (42_reed_solomon): RSGEN, RSENC, ECCIL. A polynomial is the
list of its coefficients, highest degree first (R302). -/

namespace Sys2Proof.Machine

/-- `TCW(v)` (42_reed_solomon R301). -/
def tcw : Nat → Nat
  | 1 => 26
  | 2 => 44
  | 3 => 70
  | 4 => 100
  | 5 => 134
  | 6 => 172
  | _ => 0

/-- A row of the block table: for each level the parity codewords of a block and the groups `(count, data codewords)`
(42_reed_solomon R301). -/
def blockRow : Nat → List (Nat × List (Nat × Nat))
  | 1 => [(7, [(1, 19)]), (10, [(1, 16)]), (13, [(1, 13)]), (17, [(1, 9)])]
  | 2 => [(10, [(1, 34)]), (16, [(1, 28)]), (22, [(1, 22)]), (28, [(1, 16)])]
  | 3 => [(15, [(1, 55)]), (26, [(1, 44)]), (18, [(2, 17)]), (22, [(2, 13)])]
  | 4 => [(20, [(1, 80)]), (18, [(2, 32)]), (26, [(2, 24)]), (16, [(4, 9)])]
  | 5 => [(26, [(1, 108)]), (24, [(2, 43)]), (18, [(2, 15), (2, 16)]), (22, [(2, 11), (2, 12)])]
  | 6 => [(18, [(2, 68)]), (16, [(4, 27)]), (24, [(4, 19)]), (28, [(4, 15)])]
  | _ => []

/-- `EC(v, e)` (42_reed_solomon R301). -/
def ecPerBlock (v e : Nat) : Nat := ((blockRow v).getD e (0, [])).1

/-- `BLK(v, e)`: the data lengths of the blocks, group 1 first (42_reed_solomon R301). -/
def blockLengths (v e : Nat) : List Nat :=
  ((blockRow v).getD e (0, [])).2.flatMap fun g => List.replicate g.1 g.2

/-- One factor of the generator: `g · (x ⊕ root)` (42_reed_solomon R300). -/
def mulRoot (g : List Byte) (root : Byte) : List Byte :=
  List.zipWith (· ^^^ ·) (g ++ [0#8]) (0#8 :: g.map fun c => gfMul c root)

/-- The generator polynomial of degree `nsym` (42_reed_solomon R300, R303). -/
def rsGenerator : Nat → List Byte
  | 0 => [1#8]
  | i + 1 => mulRoot (rsGenerator i) (gfExpTable i)

/-- Xors `ys` into the front of `xs`. -/
def xorFront : List Byte → List Byte → List Byte
  | [], _ => []
  | xs, [] => xs
  | x :: xs, y :: ys => (x ^^^ y) :: xorFront xs ys

/-- One step of the long division by `g`: the leading coefficient is taken off and `coef · g` is subtracted
(42_reed_solomon R305). -/
def divStep (g : List Byte) : List Byte → List Byte
  | [] => []
  | coef :: rest => if coef = 0#8 then rest else xorFront rest (g.tail.map fun c => gfMul c coef)

/-- `len` steps of the long division; what is left of the scratch buffer is the remainder (42_reed_solomon R305). -/
def divSteps (g : List Byte) : Nat → List Byte → List Byte
  | 0, s => s
  | n + 1, s => divSteps g n (divStep g s)

/-- The `nsym` parity bytes of a block (42_reed_solomon R305). -/
def rsParity (data : List Byte) (nsym : Nat) : List Byte :=
  divSteps (rsGenerator nsym) data.length (data ++ List.replicate nsym 0#8)

/-- RSGEN (42_reed_solomon R300). -/
def cmdRsgen (nsym : Byte) (s : State) : Except CmdError State :=
  let t := s.writeBytes gbufBase (rsGenerator nsym.toNat)
  .ok { t with result0 := word (nsym.toNat + 1) }

/-- RSENC (42_reed_solomon R305). -/
def cmdRsenc (len nsym : Byte) (s : State) : Except CmdError State :=
  if len.toNat + nsym.toNat > 256 then .error .badOperand
  else
    let parity := rsParity (s.readBytes wbufBase len.toNat) nsym.toNat
    let t := (s.writeBytes gbufBase (rsGenerator nsym.toNat)).writeBytes (wbufBase + len.toNat) parity
    .ok { t with result0 := word (len.toNat + nsym.toNat) }

/-- Cuts a list into blocks of the given lengths (42_reed_solomon R310). -/
def splitBlocks : List Nat → List Byte → List (List Byte)
  | [], _ => []
  | n :: ns, bs => bs.take n :: splitBlocks ns (bs.drop n)

/-- Byte 0 of every block, then byte 1 of every block that has one, and so on for `n` rounds (42_reed_solomon R310). -/
def interleave (n : Nat) (blocks : List (List Byte)) : List Byte :=
  (List.range n).flatMap fun i => blocks.filterMap fun b => b[i]?

/-- The final codeword stream of the data codewords `data` at version `v` and level `e` (42_reed_solomon R310). -/
def codewordStream (v e : Nat) (data : List Byte) : List Byte :=
  let blocks := splitBlocks (blockLengths v e) data
  let parities := blocks.map fun b => rsParity b (ecPerBlock v e)
  interleave ((blockLengths v e).foldl max 0) blocks ++ interleave (ecPerBlock v e) parities

/-- ECCIL (42_reed_solomon R310). -/
def cmdEccil (s : State) : Except CmdError State :=
  let stream := codewordStream s.ver s.ecl (s.readBytes dbufBase (dcap s.ver s.ecl))
  let t := s.writeBytes cbufBase stream
  .ok { t with result0 := word stream.length }

/-- Completion of RSGEN. -/
def execRsgen (nsym : Byte) (s : State) : Host.Outcome State Fault Refusal := complete (cmdRsgen nsym s) s
/-- Completion of RSENC. -/
def execRsenc (len nsym : Byte) (s : State) : Host.Outcome State Fault Refusal := complete (cmdRsenc len nsym s) s
/-- Completion of ECCIL. -/
def execEccil (s : State) : Host.Outcome State Fault Refusal := complete (cmdEccil s) s

end Sys2Proof.Machine
end

