-- ==== Sys2Proof/Machine/Matrix.lean ====
section
/-! DEFINITION. The symbol matrix constructor and pattern stamper (43_matrix): MCLEAR, STFIND, STALIGN, STTIME, RSVFMT,
PLACE. A loop of cell writes is given as the byte each cell is written with (log 17). -/

namespace Sys2Proof.Machine

/-- `|a - b|`. -/
def absDiff (a b : Nat) : Nat := (a - b) + (b - a)

/-- `max(|dr|, |dc|)`, the distance of `(r, c)` from a pattern's centre (43_matrix R355, R360). -/
def ringOf (centre : Nat × Nat) (r c : Nat) : Nat := max (absDiff r centre.1) (absDiff c centre.2)

/-- The centres of the three finder patterns (43_matrix R355). -/
def finderCentres (size : Nat) : List (Nat × Nat) := [(3, 3), (3, size - 4), (size - 4, 3)]

/-- What STFIND writes to symbol cell `(r, c)` (43_matrix R355). -/
def finderCell (size r c : Nat) : Option Byte :=
  ((finderCentres size).find? fun p => decide (ringOf p r c ≤ 4)).map fun p =>
    cellByte (!(ringOf p r c == 2 || ringOf p r c == 4)) true

/-- The alignment coordinates `AP(v)` (43_matrix R360). -/
def alignCoords : Nat → List Nat
  | 2 => [6, 18]
  | 3 => [6, 22]
  | 4 => [6, 26]
  | 5 => [6, 30]
  | 6 => [6, 34]
  | _ => []

/-- The centres STALIGN stamps: every pair of coordinates but the three finder corners (43_matrix R360). -/
def alignCentres (v : Nat) : List (Nat × Nat) :=
  let ap := alignCoords v
  let n := ap.length
  ap.zipIdx.flatMap fun p => ap.zipIdx.filterMap fun q =>
    if (p.2 = 0 ∧ q.2 = 0) ∨ (p.2 = 0 ∧ q.2 = n - 1) ∨ (p.2 = n - 1 ∧ q.2 = 0) then none else some (p.1, q.1)

/-- What STALIGN writes to cell `(r, c)` (43_matrix R360). -/
def alignCell (v r c : Nat) : Option Byte :=
  ((alignCentres v).find? fun p => decide (ringOf p r c ≤ 2)).map fun p => cellByte (!(ringOf p r c == 1)) true

/-- What STTIME writes to symbol cell `(r, c)`: row 6 and column 6 where R is 0, dark at even indices (43_matrix R365). -/
def timingCell (s : State) (r c : Nat) : Option Byte :=
  if r = 6 ∨ c = 6 then
    if rBit (s.cell r c) then none else some (cellByte (decide ((if r = 6 then c else r) % 2 = 0)) true)
  else none

/-- `FH(S)` (43_matrix R370). -/
def formatRow (size : Nat) : List (Nat × Nat) :=
  [(8, 0), (8, 1), (8, 2), (8, 3), (8, 4), (8, 5), (8, 7),
   (8, size - 8), (8, size - 7), (8, size - 6), (8, size - 5),
   (8, size - 4), (8, size - 3), (8, size - 2), (8, size - 1)]

/-- `FV(S)` (43_matrix R370). -/
def formatCol (size : Nat) : List (Nat × Nat) :=
  [(size - 1, 8), (size - 2, 8), (size - 3, 8), (size - 4, 8), (size - 5, 8), (size - 6, 8), (size - 7, 8),
   (8, 8), (7, 8), (5, 8), (4, 8), (3, 8), (2, 8), (1, 8), (0, 8)]

/-- `DM(S)`, the dark module (43_matrix R370). -/
def darkModule (size : Nat) : Nat × Nat := (size - 8, 8)

/-- The 31 cells RSVFMT reserves (43_matrix R370). -/
def formatCells (size : Nat) : List (Nat × Nat) := formatRow size ++ formatCol size ++ [darkModule size]

/-- The right column of pair `p` (43_matrix R375). -/
def pairColumn (size p : Nat) : Nat :=
  if size - 1 - 2 * p ≤ 6 then size - 1 - 2 * p - 1 else size - 1 - 2 * p

/-- The cells in the order PLACE visits them; column 6 is none of them (43_matrix R375; log 21). -/
def zigzag (size : Nat) : List (Nat × Nat) :=
  (List.range ((size - 1) / 2)).flatMap fun p => (List.range size).flatMap fun t =>
    [(if p % 2 = 0 then size - 1 - t else t, pairColumn size p),
     (if p % 2 = 0 then size - 1 - t else t, pairColumn size p - 1)]

/-- The non-reserved cells in the order PLACE visits them (43_matrix R375). -/
def freeCells (size : Nat) (g : Grid) : List (Nat × Nat) :=
  (zigzag size).filter fun p => !rBit (g.at p.1 p.2)

/-- The value each free cell gets: the stream's bits in order, then light (43_matrix R375). -/
def placement (free : List (Nat × Nat)) (bits : List Bool) : List ((Nat × Nat) × Bool) :=
  free.zip (bits ++ List.replicate (free.length - bits.length) false)

/-- The value a list of cell values gives cell `(r, c)`, looked up within row `r`. -/
def valueIn (cells : List ((Nat × Nat) × Bool)) (r c : Nat) : Option Bool :=
  ((cells.filter fun x => x.1.1 == r).find? fun x => x.1.2 == c).map Prod.snd

/-- The cell byte with V replaced (00_scope R13: `V(r, c) <- b` leaves R). -/
def setV (cell : Byte) (v : Bool) : Byte := cellByte v (rBit cell)

/-- MCLEAR (43_matrix R350). -/
def cmdMclear (s : State) : Except CmdError State := .ok ((s.clearMat).setMState .empty)

/-- STFIND (43_matrix R355). -/
def cmdStfind (s : State) : Except CmdError State := do
  checkSequence (s.status.mstate == .empty)
  return (s.stampSymbol (finderCell s.size)).setMState .finder

/-- STALIGN (43_matrix R360). -/
def cmdStalign (s : State) : Except CmdError State := do
  checkSequence (s.status.mstate == .finder)
  return (s.stampSymbol (alignCell s.ver)).setMState .align

/-- STTIME accepts ALIGN, and FINDER at version 1 (43_matrix R365). -/
def timingAccepted (s : State) : Bool :=
  s.status.mstate == .align || (s.status.mstate == .finder && s.ver == 1)

/-- STTIME (43_matrix R365). -/
def cmdSttime (s : State) : Except CmdError State := do
  checkSequence (timingAccepted s)
  return (s.stampSymbol (timingCell s)).setMState .timing

/-- RSVFMT (43_matrix R370). -/
def cmdRsvfmt (s : State) : Except CmdError State := do
  checkSequence (s.status.mstate == .timing)
  return (s.stampSymbol fun r c =>
    if (formatCells s.size).contains (r, c) then some (cellByte false true) else none).setMState .fmtrsv

/-- The bits of the final codeword stream in CBUF (43_matrix R375). -/
def streamBits (s : State) : List Bool := bitsOfBytes (s.readBytes cbufBase (tcw s.ver))

/-- PLACE (43_matrix R375). -/
def cmdPlace (s : State) : Except CmdError State := do
  checkSequence (s.status.mstate == .fmtrsv)
  let g := s.symCells
  let free := freeCells s.size g
  let bits := streamBits s
  let cells := placement free bits
  let t := (s.stampSymbol fun r c => (valueIn cells r c).map (setV (g.at r c))).setMState .data
  return { t with
    result0 := word (min free.length bits.length)
    result1 := word (free.length - bits.length) }

/-- Completion of MCLEAR. -/
def execMclear (s : State) : Host.Outcome State Fault Refusal := complete (cmdMclear s) s
/-- Completion of STFIND. -/
def execStfind (s : State) : Host.Outcome State Fault Refusal := complete (cmdStfind s) s
/-- Completion of STALIGN. -/
def execStalign (s : State) : Host.Outcome State Fault Refusal := complete (cmdStalign s) s
/-- Completion of STTIME. -/
def execSttime (s : State) : Host.Outcome State Fault Refusal := complete (cmdSttime s) s
/-- Completion of RSVFMT. -/
def execRsvfmt (s : State) : Host.Outcome State Fault Refusal := complete (cmdRsvfmt s) s
/-- Completion of PLACE. -/
def execPlace (s : State) : Host.Outcome State Fault Refusal := complete (cmdPlace s) s

end Sys2Proof.Machine
end

