-- ==== Sys2Proof/Machine/Mask.lean ====
section
/-! DEFINITION. The mask applicator and penalty scorer (44_mask): MAPPLY, MSCORE, MASKSEL. -/

namespace Sys2Proof.Machine

/-- The mask conditions `MC(k, r, c)` (44_mask R400). -/
def maskCond (k r c : Nat) : Bool :=
  match k with
  | 0 => (r + c) % 2 == 0
  | 1 => r % 2 == 0
  | 2 => c % 3 == 0
  | 3 => (r + c) % 3 == 0
  | 4 => (r / 2 + c / 3) % 2 == 0
  | 5 => (r * c) % 2 + (r * c) % 3 == 0
  | 6 => ((r * c) % 2 + (r * c) % 3) % 2 == 0
  | 7 => ((r + c) % 2 + (r * c) % 3) % 2 == 0
  | _ => false

/-- The byte that `applyMask(k)` leaves in cell `(r, c)` holding `b` (44_mask R401). -/
def maskedCell (k r c : Nat) (b : Byte) : Byte :=
  if !rBit b && maskCond k r c then b ^^^ 1#8 else b

/-- `applyMask(k)` on a grid of symbol cells (44_mask R401). -/
def maskGrid (k : Nat) (g : Grid) : Grid :=
  g.zipIdx.map fun row => row.1.zipIdx.map fun x => maskedCell k row.2 x.2 x.1

/-- What `applyMask(k)` writes to symbol cell `(r, c)` (44_mask R401). -/
def maskWrite (k : Nat) (g : Grid) (r c : Nat) : Option Byte :=
  if !rBit (g.at r c) && maskCond k r c then some (g.at r c ^^^ 1#8) else none

/-- The V bits of a grid. -/
def vGrid (g : Grid) : List (List Bool) := g.map fun row => row.map vBit

/-- The lengths of the maximal runs of a line whose current run has `n` cells of value `v` (44_mask R403). -/
def runLengths (v : Bool) (n : Nat) : List Bool → List Nat
  | [] => [n]
  | b :: rest => if b = v then runLengths v (n + 1) rest else n :: runLengths b 1 rest

/-- The lengths of the maximal runs of a line (44_mask R403). -/
def lineRuns : List Bool → List Nat
  | [] => []
  | b :: rest => runLengths b 1 rest

/-- What rule 1 adds for a run (44_mask R403). -/
def runPenalty (len : Nat) : Nat := if 5 ≤ len then 3 + (len - 5) else 0

/-- Rule 1 of one line (44_mask R403). -/
def linePenalty (line : List Bool) : Nat := ((lineRuns line).map runPenalty).sum

/-- Column `c` of a matrix. -/
def column (m : List (List Bool)) (c : Nat) : List Bool := m.map fun row => row.getD c false

/-- Rule 1: every row and every column (44_mask R403). -/
def penalty1 (size : Nat) (m : List (List Bool)) : Nat :=
  (m.map linePenalty).sum + ((List.range size).map fun c => linePenalty (column m c)).sum

/-- The number of dark cells (44_mask R403). -/
def darkCount (m : List (List Bool)) : Nat := (m.map fun row => row.count true).sum

/-- Rule 4 for the number of dark cells (44_mask R403). -/
def penalty4Of (size dark : Nat) : Nat :=
  let prev5 : Int := 5 * ((20 * dark / (size * size) : Nat) : Int)
  let next5 : Int := prev5 + 5
  10 * min (prev5 - 50).natAbs (next5 - 50).natAbs / 5

/-- Rule 4 (44_mask R403). -/
def penalty4 (size : Nat) (m : List (List Bool)) : Nat := penalty4Of size (darkCount m)

/-- `PEN(M)` (44_mask R403). -/
def penalty (size : Nat) (m : List (List Bool)) : Nat := penalty1 size m + penalty4 size m

/-- The score of candidate `k` (44_mask R410). -/
def candidateScore (size : Nat) (g : Grid) (k : Nat) : Nat := penalty size (vGrid (maskGrid k g))

/-- The candidate with the strictly lowest score so far, starting from `best` (44_mask R410). -/
def betterOf (score : Nat → Nat) : Nat × Nat → List Nat → Nat × Nat
  | best, [] => best
  | best, k :: ks => betterOf score (if score k < best.2 then (k, score k) else best) ks

/-- The mask MASKSEL chooses and its score: candidates 0 to 7 in order, the first lowest wins (44_mask R410). -/
def bestMask (score : Nat → Nat) : Nat × Nat := betterOf score (0, score 0) [1, 2, 3, 4, 5, 6, 7]

/-- MAPPLY (44_mask R402). -/
def cmdMapply (mask : BitVec 3) (s : State) : Except CmdError State :=
  let t := s.stampSymbol (maskWrite mask.toNat s.symCells)
  if s.status.mstate = .data then
    .ok { t.setMState .masked with sym := { s.sym with mask := mask }, result0 := word mask.toNat }
  else if s.status.mstate = .masked ∧ mask = s.sym.mask then
    .ok { t.setMState .data with result0 := word mask.toNat }
  else .error .sequenceError

/-- MSCORE (44_mask R405). -/
def cmdMscore (s : State) : Except CmdError State :=
  let m := vGrid s.symCells
  let p1 := penalty1 s.size m
  let p4 := penalty4 s.size m
  .ok { s with
    result0 := word (p1 + p4)
    result1 := (BitVec.ofNat 16 p1).setWidth 32 ||| ((BitVec.ofNat 16 p4).setWidth 32 <<< 16) }

/-- The eight scores as SCORE0 to SCORE7 (44_mask R410, 10_state R43). -/
def scoreRegs (score : Nat → Nat) : Vector (BitVec 16) 8 :=
  #v[BitVec.ofNat 16 (score 0), BitVec.ofNat 16 (score 1), BitVec.ofNat 16 (score 2), BitVec.ofNat 16 (score 3),
     BitVec.ofNat 16 (score 4), BitVec.ofNat 16 (score 5), BitVec.ofNat 16 (score 6), BitVec.ofNat 16 (score 7)]

/-- The scores of the eight candidates, computed once (44_mask R410). -/
def candidateScores (size : Nat) (g : Grid) : List Nat := (List.range 8).map (candidateScore size g)

/-- MASKSEL (44_mask R410). -/
def cmdMasksel (s : State) : Except CmdError State := do
  checkSequence (s.status.mstate == .data)
  let g := s.symCells
  let scores := candidateScores s.size g
  let best := bestMask fun k => scores.getD k 0
  let t := (s.stampSymbol (maskWrite best.1 g)).setMState .masked
  return { t with
    scores := scoreRegs fun k => scores.getD k 0
    sym := { s.sym with mask := BitVec.ofNat 3 best.1 }
    result0 := word best.1
    result1 := word best.2 }

/-- Completion of MAPPLY. -/
def execMapply (mask : BitVec 3) (s : State) : Host.Outcome State Fault Refusal := complete (cmdMapply mask s) s
/-- Completion of MSCORE. -/
def execMscore (s : State) : Host.Outcome State Fault Refusal := complete (cmdMscore s) s
/-- Completion of MASKSEL. -/
def execMasksel (s : State) : Host.Outcome State Fault Refusal := complete (cmdMasksel s) s

end Sys2Proof.Machine
end

