-- ==== Sys2Proof/Machine/Format.lean ====
section
/-! DEFINITION. The format-information encoder and writer (45_format): FMTENC, FMTWR. -/

namespace Sys2Proof.Machine

/-- The format table, indexed `8·level + mask` (45_format R451). -/
def formatTable : List (BitVec 15) := [
  0x77C4, 0x72F3, 0x7DAA, 0x789D, 0x662F, 0x6318, 0x6C41, 0x6976,
  0x5412, 0x5125, 0x5E7C, 0x5B4B, 0x45F9, 0x40CE, 0x4F97, 0x4AA0,
  0x355F, 0x3068, 0x3F31, 0x3A06, 0x24B4, 0x2183, 0x2EDA, 0x2BED,
  0x1689, 0x13BE, 0x1CE7, 0x19D0, 0x0762, 0x0255, 0x0D0C, 0x083B]

/-- `FMT[8·e + k]` (45_format R451). -/
def formatWord (e k : Nat) : BitVec 15 := formatTable.getD (8 * e + k) 0#15

/-- What FMTWR writes: the word's bits, most significant first, to both sequences, then the dark module (45_format
R455). -/
def formatWrites (size : Nat) (w : BitVec 15) : List ((Nat × Nat) × Bool) :=
  (formatRow size).zip (bitsMSB w.toNat 15) ++ (formatCol size).zip (bitsMSB w.toNat 15) ++ [(darkModule size, true)]

/-- FMTENC (45_format R450). -/
def cmdFmtenc (ecl mask : BitVec 3) (s : State) : Except CmdError State := do
  checkLevel ecl
  return { s with result0 := (formatWord ecl.toNat mask.toNat).setWidth 32 }

/-- FMTWR (45_format R455). -/
def cmdFmtwr (s : State) : Except CmdError State := do
  checkSequence (s.status.mstate == .masked)
  let w := formatWord s.ecl s.sym.mask.toNat
  let cells := formatWrites s.size w
  let t := (s.stampSymbol fun r c => (valueIn cells r c).map (setV (s.cell r c))).setMState .final
  return { t with result0 := w.setWidth 32 }

/-- Completion of FMTENC. -/
def execFmtenc (ecl mask : BitVec 3) (s : State) : Host.Outcome State Fault Refusal := complete (cmdFmtenc ecl mask s) s
/-- Completion of FMTWR. -/
def execFmtwr (s : State) : Host.Outcome State Fault Refusal := complete (cmdFmtwr s) s

end Sys2Proof.Machine
end

