-- ==== Sys2Proof/Machine/Control.lean ====
section
/-! DEFINITION. The control commands and the whole-symbol generator (46_control): NOP, SRST, GENERATE. -/

namespace Sys2Proof.Machine

/-- NOP (46_control R500). -/
def cmdNop (s : State) : Except CmdError State := .ok s

/-- SRST, but for the DONE that its completion sets: the registers load their reset values, the storage stays
(46_control R505; log 9, log 12). -/
def cmdSrst (s : State) : Except CmdError State := .ok s.resetRegisters

/-- The steps of GENERATE, each the named command's rule on the state the step before left (46_control R510). -/
def generateSteps (ecl : BitVec 3) (s : State) : Except CmdError State := do
  let s ← cmdSelver ecl s
  let s ← cmdPack s
  let s ← cmdEccil s
  let s ← cmdStfind s
  let s ← cmdStalign s
  let s ← cmdSttime s
  let s ← cmdRsvfmt s
  let s ← cmdPlace s
  let s ← cmdMasksel s
  cmdFmtwr s

/-- GENERATE: the checks before any write, the steps, and the two results (46_control R510). -/
def cmdGenerate (ecl : BitVec 3) (s : State) : Except CmdError State := do
  checkLevel ecl
  checkPayload (smallestFit s.plen.toNat ecl.toNat).isSome
  let t ← generateSteps ecl s
  return { t with result0 := word t.size, result1 := t.sym.toWord }

/-- Completion of NOP. -/
def execNop (s : State) : Host.Outcome State Fault Refusal := complete (cmdNop s) s
/-- Completion of SRST. -/
def execSrst (s : State) : Host.Outcome State Fault Refusal := complete (cmdSrst s) s
/-- Completion of GENERATE. -/
def execGenerate (ecl : BitVec 3) (s : State) : Host.Outcome State Fault Refusal := complete (cmdGenerate ecl s) s

end Sys2Proof.Machine
end

