-- ==== Sys2Proof/Machine/Dispatch.lean ====
section
/-! DEFINITION. Every command to its meaning (30_encoding R160). -/

namespace Sys2Proof.Machine

def exec (i : Instr) (s : State) : Host.Outcome State Fault Refusal :=
  match i with
  | .nop => Sys2Proof.Machine.execNop s
  | .srst => Sys2Proof.Machine.execSrst s
  | .gfclmul a b => Sys2Proof.Machine.execGfclmul a b s
  | .gfred p => Sys2Proof.Machine.execGfred p s
  | .gfmul a b => Sys2Proof.Machine.execGfmul a b s
  | .gfexp n => Sys2Proof.Machine.execGfexp n s
  | .gflog a => Sys2Proof.Machine.execGflog a s
  | .rsgen nsym => Sys2Proof.Machine.execRsgen nsym s
  | .rsenc len nsym => Sys2Proof.Machine.execRsenc len nsym s
  | .eccil => Sys2Proof.Machine.execEccil s
  | .setsym ecl ver => Sys2Proof.Machine.execSetsym ecl ver s
  | .selver ecl => Sys2Proof.Machine.execSelver ecl s
  | .pack => Sys2Proof.Machine.execPack s
  | .mclear => Sys2Proof.Machine.execMclear s
  | .stfind => Sys2Proof.Machine.execStfind s
  | .stalign => Sys2Proof.Machine.execStalign s
  | .sttime => Sys2Proof.Machine.execSttime s
  | .rsvfmt => Sys2Proof.Machine.execRsvfmt s
  | .place => Sys2Proof.Machine.execPlace s
  | .mapply mask => Sys2Proof.Machine.execMapply mask s
  | .mscore => Sys2Proof.Machine.execMscore s
  | .masksel => Sys2Proof.Machine.execMasksel s
  | .fmtenc ecl mask => Sys2Proof.Machine.execFmtenc ecl mask s
  | .fmtwr => Sys2Proof.Machine.execFmtwr s
  | .generate ecl => Sys2Proof.Machine.execGenerate ecl s

end Sys2Proof.Machine
end

