-- ==== Sys2Proof/Machine/Step.lean ====
section
/-! DEFINITION. One step: the completion that is due, or else the host's turn (00_scope R9, 10_state R60, 20_memory
R120). -/

namespace Sys2Proof.Machine

/-- The completion of the word in PEND: decode, then run the command or raise IllegalCommand (10_state R60,
30_encoding R170). -/
def completeWord (w : Word) (s : State) : Host.Outcome State Fault Refusal :=
  match decode w with
  | .ok i => exec i s
  | .error _ => complete (.error .illegalCommand) s

/-- One event of the block: a completion is ordered between two host events, and one that is due goes first (20_memory
R120; log 16). -/
def step (s : State) : Host.Outcome State Fault Refusal :=
  match s.due with
  | some w => completeWord w s
  | none => .next s.hostTurn

/-- The state in which the given table word has been issued and its completion is due, so that the next step runs it
(log 4). QRC fetches nothing: a command comes to run by a host write to CMD (10_state R31, R33). -/
def State.withFetchWord (s : State) (nbits w : Nat) : State :=
  { s with
    cmd := BitVec.ofNat 32 (w % 2 ^ nbits)
    pend := some (BitVec.ofNat 32 (w % 2 ^ nbits))
    status := s.status.onIssue
    wait := 0
    rstN := true }

end Sys2Proof.Machine
end

