-- ==== Sys2Proof/Safety.lean ====
section
/-! DEFINITION. What holds in every state a run reaches, in the terms the statements use. -/

namespace Sys2Proof.Machine

/-- The SYM invariants (10_state R40); SYM.MASK ≤ 7 is its width. -/
abbrev SymLegal (s : State) : Prop :=
  (1 ≤ s.ver ∧ s.ver ≤ 6) ∧ s.ecl ≤ 3 ∧ s.size = 17 + 4 * s.ver

/-- A pending command is the word in CMD, its issue has cleared DONE, ERR and ERRCODE, and reset is released; without one
no latency is left (10_state R35, R49, R60). -/
abbrev EngineConsistent (s : State) : Prop :=
  (∀ w ∈ s.pend, s.cmd = w ∧ s.rstN = true ∧ s.status.done = false ∧ s.status.err = false ∧ s.status.errCode = none) ∧
  (s.pend = none → s.wait = 0)

/-- ERR is set exactly when ERRCODE names an error (10_state R34, R35, R37). -/
abbrev ErrConsistent (s : State) : Prop := s.status.err = s.status.errCode.isSome

/-- The scores are at most 3298 (10_state R43, 44_mask R406). -/
abbrev ScoresBounded (s : State) : Prop := ∀ k : Fin 8, s.scores[k].toNat ≤ 3298

/-- The invariant of the machine: canonical memory, legal SYM, consistent engine and error fields. -/
abbrev Inv (s : State) : Prop :=
  s.mem.wf = true ∧ SymLegal s ∧ EngineConsistent s ∧ ErrConsistent s

/-- A step goes on. -/
def Runs (s : State) : Prop := ∃ t, step s = .next t

end Sys2Proof.Machine
end

