-- ==== Sys2Proof/Certificates/Slice0/Obligations.lean ====
section
/-! DEFINITION. The statements about QRC, one `def Obligations.<Name> : Prop` each, and the notions they are stated in,
written from the rules and not from the meanings. -/

namespace Sys2Proof.Claims

open Sys2Proof.Machine

/-! ### Status and frames -/

/-- STATUS after a completion without error that leaves MSTATE at `m` (10_state R35). -/
def okStatus (st : Status) (m : MState) : Status := ⟨true, false, st.ovr, m, none⟩

/-- STATUS after a completion with error `e` (10_state R35). -/
def errStatus (st : Status) (e : CmdError) : Status := ⟨true, true, st.ovr, st.mstate, some e⟩

/-- The command completes with error `e`, which changes STATUS and nothing else (60_exceptions R560). -/
def Fails (i : Instr) (s : State) (e : CmdError) : Prop :=
  exec i s = .next { s with pend := none, status := errStatus s.status e }

/-- Address `a` is one of the `n` bytes from `base` on. -/
def Within (base n a : Nat) : Prop := base ≤ a ∧ a < base + n

/-- Every byte whose address is not in `p` reads as before. -/
def BytesKept (s t : State) (p : Nat → Prop) : Prop := ∀ a, ¬ p a → t.readByte a = s.readByte a

/-- The address is a byte of MAT (20_memory R101). -/
def InMat (a : Nat) : Prop := 0x1000 ≤ a ∧ a < 0x1A40

/-- Every MAT cell is 0. -/
def MatClear (t : State) : Prop := ∀ r c, r < 41 → c < 64 → t.readByte (0x1000 + 64 * r + c) = 0#8

/-- Bit V of cell `(r, c)` (10_state R46). -/
def vAt (s : State) (r c : Nat) : Bool := (s.readByte (0x1000 + 64 * r + c)).getLsbD 0

/-- Bit R of cell `(r, c)` (10_state R46). -/
def rAt (s : State) (r c : Nat) : Bool := (s.readByte (0x1000 + 64 * r + c)).getLsbD 1

/-- Every MAT cell for which `p` does not hold reads as before, and so does every byte outside MAT. -/
def CellsKept (s t : State) (p : Nat → Nat → Prop) : Prop :=
  BytesKept s t InMat ∧
  ∀ r c, r < 41 → c < 64 → ¬ p r c → t.readByte (0x1000 + 64 * r + c) = s.readByte (0x1000 + 64 * r + c)

/-- `(r, c)` is a symbol cell (10_state R47). -/
def InSymbol (s : State) (r c : Nat) : Prop := r < s.sym.size.toNat ∧ c < s.sym.size.toNat

/-! ### The opcode map -/

/-- The mnemonic of a command (30_encoding R160). -/
def mnemonic : Instr → String
  | .nop => "NOP"
  | .srst => "SRST"
  | .gfclmul _ _ => "GFCLMUL"
  | .gfred _ => "GFRED"
  | .gfmul _ _ => "GFMUL"
  | .gfexp _ => "GFEXP"
  | .gflog _ => "GFLOG"
  | .rsgen _ => "RSGEN"
  | .rsenc _ _ => "RSENC"
  | .eccil => "ECCIL"
  | .setsym _ _ => "SETSYM"
  | .selver _ => "SELVER"
  | .pack => "PACK"
  | .mclear => "MCLEAR"
  | .stfind => "STFIND"
  | .stalign => "STALIGN"
  | .sttime => "STTIME"
  | .rsvfmt => "RSVFMT"
  | .place => "PLACE"
  | .mapply _ => "MAPPLY"
  | .mscore => "MSCORE"
  | .masksel => "MASKSEL"
  | .fmtenc _ _ => "FMTENC"
  | .fmtwr => "FMTWR"
  | .generate _ => "GENERATE"

/-- The rows of the opcode map: mnemonic, match, mask (30_encoding R160). -/
def opcodeRows : List (String × Word × Word) := [
  ("NOP", 0x00000000, 0xFFFFFFFF), ("SRST", 0x00000001, 0xFFFFFFFF), ("GFCLMUL", 0x00000010, 0x0000FFFF),
  ("GFRED", 0x00000011, 0x8000FFFF), ("GFMUL", 0x00000012, 0x0000FFFF), ("GFEXP", 0x00000013, 0xFF00FFFF),
  ("GFLOG", 0x00000014, 0xFF00FFFF), ("RSGEN", 0x00000020, 0x00FFFFFF), ("RSENC", 0x00000021, 0x0000FFFF),
  ("ECCIL", 0x00000022, 0xFFFFFFFF), ("SETSYM", 0x00000030, 0xFFFF88FF), ("SELVER", 0x00000031, 0xFFFFF8FF),
  ("PACK", 0x00000032, 0xFFFFFFFF), ("MCLEAR", 0x00000040, 0xFFFFFFFF), ("STFIND", 0x00000041, 0xFFFFFFFF),
  ("STALIGN", 0x00000042, 0xFFFFFFFF), ("STTIME", 0x00000043, 0xFFFFFFFF), ("RSVFMT", 0x00000044, 0xFFFFFFFF),
  ("PLACE", 0x00000045, 0xFFFFFFFF), ("MAPPLY", 0x00000050, 0xFFFF8FFF), ("MSCORE", 0x00000051, 0xFFFFFFFF),
  ("MASKSEL", 0x00000052, 0xFFFFFFFF), ("FMTENC", 0x00000060, 0xFFFF88FF), ("FMTWR", 0x00000061, 0xFFFFFFFF),
  ("GENERATE", 0x00000070, 0xFFFFF8FF)]

/-! ### Errors -/

/-- The level operand of the commands that take one (30_encoding R153). -/
def levelOperand : Instr → Option (BitVec 3)
  | .setsym ecl _ | .selver ecl | .fmtenc ecl _ | .generate ecl => some ecl
  | _ => none

/-- The version operand of SETSYM (30_encoding R153). -/
def versionOperand : Instr → Option (BitVec 3)
  | .setsym _ ver => some ver
  | _ => none

/-- The MSTATE values a command accepts (60_exceptions R550). -/
def accepts (i : Instr) (s : State) : Bool :=
  match i with
  | .stfind => s.status.mstate == .empty
  | .stalign => s.status.mstate == .finder
  | .sttime => s.status.mstate == .align || (s.status.mstate == .finder && s.sym.ver == 1#3)
  | .rsvfmt => s.status.mstate == .timing
  | .place => s.status.mstate == .fmtrsv
  | .mapply k => s.status.mstate == .data || (s.status.mstate == .masked && k == s.sym.mask)
  | .masksel => s.status.mstate == .data
  | .fmtwr => s.status.mstate == .masked
  | .nop | .srst | .gfclmul _ _ | .gfred _ | .gfmul _ _ | .gfexp _ | .gflog _ | .rsgen _ | .rsenc _ _ | .eccil
  | .setsym _ _ | .selver _ | .pack | .mclear | .mscore | .fmtenc _ _ | .generate _ => true

/-- Some supported version fits a payload of `n` bytes at level `e` (60_exceptions R550). -/
def someVersionFits (n e : Nat) : Bool := [1, 2, 3, 4, 5, 6].any fun v => decide (n + 2 ≤ dcap v e)

/-- The operand errors (60_exceptions R550, R555 item 5). -/
def operandError (i : Instr) (s : State) : Option CmdError :=
  match i with
  | .rsenc len nsym => if 256 < len.toNat + nsym.toNat then some .badOperand else none
  | .gflog a => if a = 0#8 then some .logOfZero else none
  | .pack => if dcap s.ver s.ecl < s.plen.toNat + 2 then some .payloadTooLarge else none
  | .selver ecl =>
    if someVersionFits s.plen.toNat ecl.toNat || s.cfg.fallback then none else some .payloadTooLarge
  | .generate ecl => if someVersionFits s.plen.toNat ecl.toNat then none else some .payloadTooLarge
  | .nop | .srst | .gfclmul _ _ | .gfred _ | .gfmul _ _ | .gfexp _ | .rsgen _ | .eccil | .setsym _ _ | .mclear
  | .stfind | .stalign | .sttime | .rsvfmt | .place | .mapply _ | .mscore | .masksel | .fmtenc _ _ | .fmtwr => none

/-- The error a decoded command raises in state `s`: the first of the checks that fails (60_exceptions R555, from
UnsupportedLevel on). -/
def firstError (i : Instr) (s : State) : Option CmdError :=
  if ((levelOperand i).any fun e => decide (3 < e.toNat)) = true then some .unsupportedLevel
  else if ((versionOperand i).any fun v => v == 0#3 || v == 7#3) = true then some .unsupportedVersion
  else if accepts i s = false then some .sequenceError
  else operandError i s

/-! ### The field -/

/-- EXP by doubling with reduction (41_galois_field R265). -/
def expOf : Nat → Nat
  | 0 => 1
  | i + 1 => if 256 ≤ 2 * expOf i then (2 * expOf i) ^^^ 0x11D else 2 * expOf i

/-- Coefficient `k` of the product of two polynomials over GF(2), bit `i` the coefficient of `x^i`. -/
def polyCoeff (x y k : Nat) : Bool := (List.range (k + 1)).countP (fun i => x.testBit i && y.testBit (k - i)) % 2 == 1

/-- The value at `x` of the polynomial with the given coefficients, highest degree first (42_reed_solomon R302). -/
def evalPoly (p : List Byte) (x : Byte) : Byte := p.foldl (fun acc c => gfMul acc x ^^^ c) 0#8

/-- The product of `x ⊕ α^i` for `i` below `n` (42_reed_solomon R303). -/
def rootProduct (n : Nat) (x : Byte) : Byte :=
  (List.range n).foldl (fun acc i => gfMul acc (x ^^^ BitVec.ofNat 8 (expOf i))) 1#8

/-- GBUF holds the generator polynomial of degree `n` (42_reed_solomon R303). -/
def HoldsGenerator (t : State) (n : Nat) : Prop :=
  t.readByte 0x500 = 1#8 ∧ ∀ x : Byte, evalPoly (t.readBytes 0x500 (n + 1)) x = rootProduct n x

/-! ### Blocks -/

/-- Where the data of block `b` starts in DBUF (42_reed_solomon R310). -/
def blockOffset (lens : List Nat) (b : Nat) : Nat := (lens.take b).sum

/-- How many codewords come before byte `i` of block `b` in the interleaved data (42_reed_solomon R310). -/
def dataPosition (lens : List Nat) (b i : Nat) : Nat :=
  (lens.map (min i)).sum + (lens.take b).countP fun n => decide (i < n)

/-! ### Packing -/

/-- Byte `k` of the packed codewords of an `n`-byte payload in PBUF (40_bitstream R211). -/
def packedByte (s : State) (n k : Nat) : Nat :=
  let b := fun i => (s.readByte (0x100 + i)).toNat
  if k = 0 then 0x40 + n / 16
  else if k ≤ n + 1 then
    ((if k = 1 then n else b (k - 2)) % 16) * 16 + (if k ≤ n then b (k - 1) / 16 else 0)
  else if (k - (n + 2)) % 2 = 0 then 0xEC else 0x11

/-- `t` is `s` after the symbol context of version `v` and level `e` has been selected (40_bitstream R200, R205). -/
def Selected (s t : State) (v e : Nat) : Prop :=
  t = { s with
    mem := t.mem
    sym := ⟨BitVec.ofNat 3 v, BitVec.ofNat 3 e, 0#3, BitVec.ofNat 8 (17 + 4 * v)⟩
    result0 := BitVec.ofNat 32 v
    result1 := BitVec.ofNat 32 (dcap v e)
    pend := none
    status := okStatus s.status .empty } ∧
  MatClear t ∧ BytesKept s t InMat

/-- `v` is the smallest version that fits `n` bytes at level `e` (40_bitstream R205). -/
def SmallestVersion (n e v : Nat) : Prop :=
  (1 ≤ v ∧ v ≤ 6) ∧ n + 2 ≤ dcap v e ∧ ∀ u, 1 ≤ u → u < v → dcap u e < n + 2

/-! ### Patterns -/

/-- The top-left finder with its separator, rows and columns 0 to 7 (43_matrix R355). -/
def finderPicture : List (List Nat) := [
  [1, 1, 1, 1, 1, 1, 1, 0],
  [1, 0, 0, 0, 0, 0, 1, 0],
  [1, 0, 1, 1, 1, 0, 1, 0],
  [1, 0, 1, 1, 1, 0, 1, 0],
  [1, 0, 1, 1, 1, 0, 1, 0],
  [1, 0, 0, 0, 0, 0, 1, 0],
  [1, 1, 1, 1, 1, 1, 1, 0],
  [0, 0, 0, 0, 0, 0, 0, 0]]

/-- `(r, c)` is one of the three 8 × 8 corners (43_matrix R355). -/
def InCorner (size r c : Nat) : Prop :=
  (r < 8 ∧ c < 8) ∨ (r < 8 ∧ size - 8 ≤ c ∧ c < size) ∨ (size - 8 ≤ r ∧ r < size ∧ c < 8)

/-- The module value of corner cell `(r, c)`: the picture, mirrored into the corner (43_matrix R355). -/
def cornerValue (size r c : Nat) : Nat := (finderPicture.getD (min r (size - 1 - r)) []).getD (min c (size - 1 - c)) 0

/-- `(r, c)` is one of the 31 cells of the format area with the dark module (43_matrix R370). -/
def InFormat (size r c : Nat) : Prop :=
  (r = 8 ∧ ((c ≤ 8 ∧ c ≠ 6) ∨ (size - 8 ≤ c ∧ c < size))) ∨
  (c = 8 ∧ ((r ≤ 8 ∧ r ≠ 6) ∨ (size - 8 ≤ r ∧ r < size)))

/-- The column of cell `j` of `FH(S)`, whose row is 8 (43_matrix R370). -/
def formatRowColumn (size j : Nat) : Nat := if j < 6 then j else if j = 6 then 7 else size - 15 + j

/-- The row of cell `j` of `FV(S)`, whose column is 8 (43_matrix R370). -/
def formatColumnRow (size j : Nat) : Nat :=
  if j < 7 then size - 1 - j else if j = 7 then 8 else if j = 8 then 7 else 14 - j

/-- When PLACE comes to cell `(r, c)`, `c ≠ 6`: pair by pair from the right, up and down in turn, right cell first
(43_matrix R375). -/
def placeTime (size r c : Nat) : Nat :=
  let shifted := if 6 < c then c else c + 1
  let p := (size - 1 - shifted) / 2
  let side := (size - 1 - shifted) % 2
  p * (2 * size) + 2 * (if p % 2 = 0 then size - 1 - r else r) + side

/-- The cells of a square of side `n`. -/
def square (n : Nat) : List (Nat × Nat) := (List.range n).flatMap fun r => (List.range n).map fun c => (r, c)

/-- PLACE writes cell `(r, c)`: it is not reserved and not in column 6 (43_matrix R375). -/
def placeable (s : State) (r c : Nat) : Bool := c != 6 && !rAt s r c

/-- How many cells PLACE fills before `(r, c)` (43_matrix R375). -/
def filledBefore (s : State) (r c : Nat) : Nat :=
  (square s.sym.size.toNat).countP fun p =>
    placeable s p.1 p.2 && decide (placeTime s.sym.size.toNat p.1 p.2 < placeTime s.sym.size.toNat r c)

/-- How many cells PLACE fills (43_matrix R375). -/
def freeCount (s : State) : Nat := (square s.sym.size.toNat).countP fun p => placeable s p.1 p.2

/-- Bit `k` of the codeword stream in CBUF, most significant first in each byte (43_matrix R375). -/
def streamBit (s : State) (k : Nat) : Bool := (s.readByte (0x300 + k / 8)).getLsbD (7 - k % 8)

/-! ### Scores -/

/-- Cells `a` to `b` of a line of `n` cells are a maximal run (44_mask R403). -/
def isMaximalRun (n : Nat) (line : Nat → Bool) (a b : Nat) : Bool :=
  decide (a ≤ b) && decide (b < n) && (List.range n).all (fun i => !(decide (a ≤ i) && decide (i ≤ b)) || line i == line a) &&
  (a == 0 || line (a - 1) != line a) && (b + 1 == n || line (b + 1) != line b)

/-- What rule 1 adds for one line (44_mask R403). -/
def lineScore (n : Nat) (line : Nat → Bool) : Nat :=
  ((square n).map fun p =>
    if isMaximalRun n line p.1 p.2 && decide (5 ≤ p.2 - p.1 + 1) then 3 + (p.2 - p.1 + 1 - 5) else 0).sum

/-- Rule 1 of a matrix (44_mask R403). -/
def rule1 (n : Nat) (m : Nat → Nat → Bool) : Nat :=
  ((List.range n).map fun r => lineScore n fun c => m r c).sum +
  ((List.range n).map fun c => lineScore n fun r => m r c).sum

/-- Rule 4 of a matrix: `10·(9 − k)` for `k ≤ 9`, else `10·(k − 10)` (44_mask R403, R406). -/
def rule4 (n : Nat) (m : Nat → Nat → Bool) : Nat :=
  let k := 20 * (square n).countP (fun p => m p.1 p.2) / (n * n)
  if k ≤ 9 then 10 * (9 - k) else 10 * (k - 10)

/-- The matrix with mask `k` applied (44_mask R401). -/
def maskedAt (s : State) (k r c : Nat) : Bool := vAt s r c ^^ (!rAt s r c && maskCond k r c)

/-- The score of candidate `k` (44_mask R410). -/
def candidate (s : State) (k : Nat) : Nat :=
  rule1 s.sym.size.toNat (maskedAt s k) + rule4 s.sym.size.toNat (maskedAt s k)

/-- `t` holds `s`'s symbol with mask `k` applied to it; nothing else in storage changed (44_mask R401). -/
def MaskApplied (s t : State) (k : Nat) : Prop :=
  CellsKept s t (InSymbol s) ∧
  ∀ r c, InSymbol s r c → vAt t r c = maskedAt s k r c ∧ rAt t r c = rAt s r c

/-! ### Format -/

/-- The reducer of degree 10 by 0x537 (45_format R452). -/
def bchRemainder (d : Nat) : Nat :=
  [14, 13, 12, 11, 10].foldl (fun q i => if q.testBit i then q ^^^ (0x537 <<< (i - 10)) else q) (d <<< 10)

/-- `FMT[8e + k]` by its derivation (45_format R452). -/
def bchWord (e k : Nat) : Nat :=
  let d := ([1, 0, 3, 2].getD e 0) * 8 + k
  ((d <<< 10) ||| bchRemainder d) ^^^ 0x5412

/-! ### Sequences -/

/-- Runs commands one after another, each to its completion. -/
def execAll : List Instr → State → Host.Outcome State Fault Refusal
  | [], s => .next s
  | i :: is, s =>
    match exec i s with
    | .next t => execAll is t
    | .fault f => .fault f
    | .refused r => .refused r

/-- The pseudo-instruction ENCODE (30_encoding R182). -/
def encodeSequence (ecl : BitVec 3) : List Instr :=
  [.selver ecl, .pack, .eccil, .stfind, .stalign, .sttime, .rsvfmt, .place, .masksel, .fmtwr]

/-! ### The bus -/

/-- The window offset is mapped (20_memory R101). -/
def Mapped (a : Nat) : Prop := a < 0x40 ∨ (0x100 ≤ a ∧ a < 0x600) ∨ (0x1000 ≤ a ∧ a < 0x1A40)

/-- The access gets a bus error (60_exceptions R551). -/
def Rejected (q : BusReq) (busy : Bool) : Prop :=
  ¬ Mapped q.addr.toNat ∨ q.strb ≠ 0xF#4 ∨ q.addr.toNat % 4 ≠ 0 ∨
  (busy = true ∧ (0x40 ≤ q.addr.toNat ∨ (q.write = true ∧ (q.addr.toNat = 0x0C ∨ q.addr.toNat = 0x14))))

/-- The value of MSTATE as 10_state R36 lists it. -/
def mstateValue : MState → Nat
  | .empty => 0x0
  | .finder => 0x1
  | .align => 0x2
  | .timing => 0x3
  | .fmtrsv => 0x4
  | .data => 0x5
  | .masked => 0x6
  | .final => 0x7
  | .uninit => 0xF

/-- The value of ERRCODE as 60_exceptions R550 lists it, 0 for no error. -/
def errCodeValue : Option CmdError → Nat
  | none => 0
  | some .payloadTooLarge => 1
  | some .unsupportedLevel => 2
  | some .unsupportedVersion => 3
  | some .illegalCommand => 4
  | some .badOperand => 5
  | some .logOfZero => 6
  | some .sequenceError => 7

/-- The number a register at offset `off` reads as (20_memory R102, 10_state R32 to R43). -/
def registerValue (s : State) (off : Nat) : Nat :=
  if off = 0x00 then 0x51524331
  else if off = 0x04 then s.cmd.toNat
  else if off = 0x08 then
    (if s.pend.isSome then 1 else 0) + (if s.status.done then 2 else 0) + (if s.status.err then 4 else 0)
      + (if s.status.ovr then 8 else 0) + 16 * mstateValue s.status.mstate + 256 * errCodeValue s.status.errCode
  else if off = 0x0C then (if s.cfg.fallback then 1 else 0) + (if s.cfg.ie then 2 else 0)
  else if off = 0x10 then
    s.sym.ver.toNat + 16 * s.sym.ecl.toNat + 256 * s.sym.mask.toNat + 65536 * s.sym.size.toNat
  else if off = 0x14 then s.plen.toNat
  else if off = 0x18 then s.result0.toNat
  else if off = 0x1C then s.result1.toNat
  else (s.scores.toList.map BitVec.toNat).getD ((off - 0x20) / 4) 0

/-- The state after the host's next event has been taken from the list and nothing else has happened. -/
def turn (s : State) (rest : List HostEvent) : State := { s with host := rest, wait := s.wait - 1 }

/-- A full-word access. -/
def wordAccess (addr : BitVec 13) (write : Bool) (w : Word) : HostEvent := .access ⟨addr, write, w, 0xF#4⟩

end Sys2Proof.Claims

open Sys2Proof Sys2Proof.Machine Sys2Proof.Claims

/-! ## Encoding -/

/-- Decoding the encoding of any command gives it back, with every operand at every value (30_encoding R151 to R160). -/
def Obligations.DecodeOfEncode : Prop := ∀ i : Instr, decode (encode i) = .ok i

/-- A word that decodes is the encoding of what it decodes to: each command has one word (30_encoding R151, R171). -/
def Obligations.EncodeOfDecode : Prop := ∀ (w : Word) (i : Instr), decode w = .ok i → encode i = w

/-- A word decodes to a command of a row exactly when its fixed bits match that row, and no two rows match one word
(30_encoding R160). -/
def Obligations.DecodeFollowsOpcodeMap : Prop :=
  opcodeRows.length = 25 ∧
  ∀ w : Word, (∀ p ∈ opcodeRows, (∃ i, decode w = .ok i ∧ mnemonic i = p.1) ↔ w &&& p.2.2 = p.2.1) ∧
    (∀ p ∈ opcodeRows, ∀ q ∈ opcodeRows, w &&& p.2.2 = p.2.1 → w &&& q.2.2 = q.2.1 → p = q) ∧
    ((∀ p ∈ opcodeRows, w &&& p.2.2 ≠ p.2.1) → ∃ e, decode w = .error e)

/-- Words written out from the encodings decode to the commands they stand for (30_encoding R151, R153, R160). -/
def Obligations.SpecWordsDecode : Prop :=
  decode 0xCA530012#32 = .ok (.gfmul 0x53#8 0xCA#8) ∧
  decode 0x3F7E0011#32 = .ok (.gfred 0x3F7E#15) ∧
  decode 0x0A100021#32 = .ok (.rsenc 16#8 10#8) ∧
  decode 0x00002130#32 = .ok (.setsym 1#3 2#3) ∧
  decode 0x00000045#32 = .ok .place ∧
  decode 0x00005050#32 = .ok (.mapply 5#3) ∧
  decode 0x00007360#32 = .ok (.fmtenc 3#3 7#3) ∧
  decode 0x00000170#32 = .ok (.generate 1#3) ∧
  decode 0x80000011#32 = .error .reservedBits ∧
  decode 0x00000002#32 = .error .unassignedOpcode

/-! ## The step -/

/-- When the completion of a word is due and the word decodes to `i`, the step is `exec i` (10_state R60). -/
def Obligations.StepRunsDecodedCommand : Prop :=
  ∀ (s : State) (w : Word) (i : Instr), s.rstN = true → s.pend = some w → s.wait = 0 → decode w = .ok i →
    step s = exec i s

/-- When the completion of a word that decodes to no command is due, the step raises IllegalCommand and changes only
STATUS (30_encoding R170, R171). -/
def Obligations.StepRaisesIllegalCommand : Prop :=
  ∀ (s : State) (w : Word) (e : DecodeError), s.rstN = true → s.pend = some w → s.wait = 0 → decode w = .error e →
    step s = .next { s with pend := none, status := errStatus s.status .illegalCommand }

/-- Every step answers a next state: the block never stops (60_exceptions R560). -/
def Obligations.EveryStepGoesOn : Prop := ∀ s : State, Runs s

/-! ## Invariants -/

/-- Every step keeps the invariant: canonical memory, legal SYM, consistent engine and error fields (10_state R40, R49,
R35; the memory's canonical form is the model's own, log 3). -/
def Obligations.StepKeepsInvariant : Prop := ∀ s t : State, Inv s → step s = .next t → Inv t

/-- The invariant holds after reset. -/
def Obligations.ResetHasInvariant : Prop := Inv State.reset

/-- Every step keeps every score at most 3298 (44_mask R406, 10_state R43). -/
def Obligations.StepKeepsScoreBound : Prop :=
  ∀ s t : State, SymLegal s → ScoresBounded s → step s = .next t → ScoresBounded t

/-! ## Errors -/

/-- A completion raises IllegalCommand for a word that does not decode, and else exactly the error that comes first in the
order of priority, or none (60_exceptions R550, R555). -/
def Obligations.CommandRaisesFirstError : Prop :=
  ∀ (s : State) (w : Word), s.due = some w → ∃ t, step s = .next t ∧
    t.status.errCode = (match decode w with
      | .ok i => firstError i s
      | .error _ => some .illegalCommand) ∧
    t.status.err = t.status.errCode.isSome

/-- A completion with an error changes STATUS and nothing else (60_exceptions R560). -/
def Obligations.FailedCommandChangesOnlyStatus : Prop :=
  ∀ (s t : State) (w : Word) (e : CmdError), s.due = some w → step s = .next t → t.status.errCode = some e →
    t = { s with pend := none, status := errStatus s.status e }

/-- Every completion clears BUSY and sets DONE, and then `irq` is CFG.IE (60_exceptions R565, 10_state R35, R44). -/
def Obligations.CompletionSetsDoneAndIrq : Prop :=
  ∀ (s : State) (w : Word), s.due = some w →
    ∃ t, step s = .next t ∧ t.busy = false ∧ t.status.done = true ∧ t.irq = t.cfg.ie

/-! ## Control commands -/

/-- NOP changes nothing but the completion's STATUS (46_control R500). -/
def Obligations.NopOnlyCompletes : Prop :=
  ∀ s : State, exec .nop s = .next { s with pend := none, status := okStatus s.status s.status.mstate }

/-- SRST loads the reset values of the registers, keeps buffers and MAT, and sets DONE (46_control R505). -/
def Obligations.SoftResetLoadsResetValues : Prop :=
  ∀ s : State, exec .srst s = .next { s with
    cmd := 0#32
    status := ⟨true, false, false, .uninit, none⟩
    cfg := ⟨false, false⟩
    sym := ⟨1#3, 1#3, 0#3, 21#8⟩
    plen := 0#8
    result0 := 0#32
    result1 := 0#32
    scores := #v[0#16, 0#16, 0#16, 0#16, 0#16, 0#16, 0#16, 0#16]
    pend := none }

/-! ## Field commands -/

/-- GFCLMUL writes the carry-less product to RESULT0 and nothing else (41_galois_field R250). -/
def Obligations.CarrylessProduct : Prop :=
  ∀ (a b : Byte) (s : State), ∃ p : BitVec 15,
    exec (.gfclmul a b) s = .next { s with
      result0 := p.setWidth 32, pend := none, status := okStatus s.status s.status.mstate } ∧
    ∀ k, k < 15 → p.getLsbD k = polyCoeff a.toNat b.toNat k

/-- GFRED writes the remainder of the polynomial modulo 0x11D to RESULT0 and nothing else (41_galois_field R255). -/
def Obligations.RemainderModuloFieldPolynomial : Prop :=
  ∀ (p : BitVec 15) (s : State), ∃ r : Byte,
    exec (.gfred p) s = .next { s with
      result0 := r.setWidth 32, pend := none, status := okStatus s.status s.status.mstate } ∧
    ∃ q, q < 128 ∧ ∀ k, k < 15 → p.getLsbD k = (polyCoeff q 0x11D k ^^ r.getLsbD k)

/-- GFMUL writes the field product to RESULT0 and nothing else: the remainder of the carry-less product, which is 0 with a
zero operand and adds the exponents otherwise (41_galois_field R260). -/
def Obligations.FieldProductAddsExponents : Prop :=
  ∀ (a b : Byte) (s : State), ∃ p : Byte,
    exec (.gfmul a b) s = .next { s with
      result0 := p.setWidth 32, pend := none, status := okStatus s.status s.status.mstate } ∧
    (∃ q, q < 128 ∧ ∀ k, k < 15 → polyCoeff a.toNat b.toNat k = (polyCoeff q 0x11D k ^^ p.getLsbD k)) ∧
    (a = 0#8 ∨ b = 0#8 → p = 0#8) ∧
    ∀ i j, i < 255 → j < 255 → a.toNat = expOf i → b.toNat = expOf j → p.toNat = expOf (i + j)

/-- GFEXP writes EXP[n] to RESULT0 and nothing else (41_galois_field R270, R265). -/
def Obligations.ExponentTable : Prop :=
  ∀ (n : Byte) (s : State), exec (.gfexp n) s = .next { s with
    result0 := BitVec.ofNat 32 (expOf n.toNat), pend := none, status := okStatus s.status s.status.mstate }

/-- GFLOG of a nonzero element writes the one exponent in 0..254 to RESULT0 and nothing else; of 0 it raises LogOfZero
(41_galois_field R275, R265). -/
def Obligations.DiscreteLogarithm : Prop :=
  ∀ (a : Byte) (s : State),
    (a ≠ 0#8 → ∃ i, i ≤ 254 ∧
      exec (.gflog a) s = .next { s with
        result0 := BitVec.ofNat 32 i, pend := none, status := okStatus s.status s.status.mstate } ∧
      expOf i = a.toNat ∧ ∀ j, j ≤ 254 → expOf j = a.toNat → j = i) ∧
    (a = 0#8 → Fails (.gflog a) s .logOfZero)

/-! ## Reed-Solomon commands -/

/-- RSGEN writes the generator polynomial, the product of `x ⊕ α^i`, to GBUF[0..nsym] and its length to RESULT0, and
nothing else (42_reed_solomon R300, R303). -/
def Obligations.GeneratorIsProductOfRoots : Prop :=
  ∀ (n : Byte) (s : State), ∃ t, exec (.rsgen n) s = .next t ∧
    t = { s with
      mem := t.mem
      result0 := BitVec.ofNat 32 (n.toNat + 1)
      pend := none
      status := okStatus s.status s.status.mstate } ∧
    BytesKept s t (Within 0x500 (n.toNat + 1)) ∧ HoldsGenerator t n.toNat

/-- RSENC appends the parity to the data in WBUF, so that the block is a codeword: zero at every root of the generator;
GBUF gets the generator, RESULT0 the length, and nothing else changes. A block longer than WBUF raises BadOperand
(42_reed_solomon R305). -/
def Obligations.ParityMakesCodeword : Prop :=
  ∀ (len nsym : Byte) (s : State),
    (len.toNat + nsym.toNat ≤ 256 → ∃ t, exec (.rsenc len nsym) s = .next t ∧
      t = { s with
        mem := t.mem
        result0 := BitVec.ofNat 32 (len.toNat + nsym.toNat)
        pend := none
        status := okStatus s.status s.status.mstate } ∧
      BytesKept s t (fun a => Within (0x400 + len.toNat) nsym.toNat a ∨ Within 0x500 (nsym.toNat + 1) a) ∧
      HoldsGenerator t nsym.toNat ∧
      ∀ i, i < nsym.toNat →
        evalPoly (t.readBytes 0x400 (len.toNat + nsym.toNat)) (BitVec.ofNat 8 (expOf i)) = 0#8) ∧
    (256 < len.toNat + nsym.toNat → Fails (.rsenc len nsym) s .badOperand)

/-- ECCIL puts every data codeword of DBUF at its interleaved place in CBUF, then the interleaved parities, each of which
makes its block a codeword; RESULT0 is TCW and nothing else changes (42_reed_solomon R310). -/
def Obligations.InterleavedStream : Prop :=
  ∀ s : State, SymLegal s → ∃ t, exec .eccil s = .next t ∧
    t = { s with
      mem := t.mem
      result0 := BitVec.ofNat 32 (tcw s.ver)
      pend := none
      status := okStatus s.status s.status.mstate } ∧
    BytesKept s t (Within 0x300 (tcw s.ver)) ∧
    (∀ b i, b < (blockLengths s.ver s.ecl).length → i < (blockLengths s.ver s.ecl).getD b 0 →
      t.readByte (0x300 + dataPosition (blockLengths s.ver s.ecl) b i) =
        s.readByte (0x200 + blockOffset (blockLengths s.ver s.ecl) b + i)) ∧
    (∀ b j, b < (blockLengths s.ver s.ecl).length → j < ecPerBlock s.ver s.ecl →
      evalPoly
        (s.readBytes (0x200 + blockOffset (blockLengths s.ver s.ecl) b) ((blockLengths s.ver s.ecl).getD b 0) ++
          (List.range (ecPerBlock s.ver s.ecl)).map fun i =>
            t.readByte (0x300 + dcap s.ver s.ecl + i * (blockLengths s.ver s.ecl).length + b))
        (BitVec.ofNat 8 (expOf j)) = 0#8)

/-- The block table adds up: the data lengths of the blocks sum to the data capacity, and with the parities to the total
(42_reed_solomon R301, 40_bitstream R201). -/
def Obligations.BlockTableAddsUp : Prop :=
  ∀ v ∈ [1, 2, 3, 4, 5, 6], ∀ e ∈ [0, 1, 2, 3],
    (blockLengths v e).sum = dcap v e ∧ dcap v e + ecPerBlock v e * (blockLengths v e).length = tcw v

/-! ## Packing commands -/

/-- SETSYM with a supported level and version selects them over a clear matrix and changes nothing else; a level above 3
raises UnsupportedLevel, else version 0 or 7 UnsupportedVersion (40_bitstream R200). -/
def Obligations.SetSymbolSelects : Prop :=
  ∀ (ecl ver : BitVec 3) (s : State),
    (ecl.toNat ≤ 3 → 1 ≤ ver.toNat → ver.toNat ≤ 6 →
      ∃ t, exec (.setsym ecl ver) s = .next t ∧ Selected s t ver.toNat ecl.toNat) ∧
    (3 < ecl.toNat → Fails (.setsym ecl ver) s .unsupportedLevel) ∧
    (ecl.toNat ≤ 3 → ver = 0#3 ∨ ver = 7#3 → Fails (.setsym ecl ver) s .unsupportedVersion)

/-- SELVER selects the smallest version that fits. When none fits, it selects version 6 with FALLBACK 1 and raises
PayloadTooLarge with FALLBACK 0; a level above 3 raises UnsupportedLevel (40_bitstream R205). -/
def Obligations.SmallestFittingVersionIsSelected : Prop :=
  ∀ (ecl : BitVec 3) (s : State),
    (ecl.toNat ≤ 3 →
      (∀ v, SmallestVersion s.plen.toNat ecl.toNat v →
        ∃ t, exec (.selver ecl) s = .next t ∧ Selected s t v ecl.toNat) ∧
      (dcap 6 ecl.toNat < s.plen.toNat + 2 → s.cfg.fallback = true →
        ∃ t, exec (.selver ecl) s = .next t ∧ Selected s t 6 ecl.toNat) ∧
      (dcap 6 ecl.toNat < s.plen.toNat + 2 → s.cfg.fallback = false →
        Fails (.selver ecl) s .payloadTooLarge)) ∧
    (3 < ecl.toNat → Fails (.selver ecl) s .unsupportedLevel)

/-- PACK writes the closed form of the data codewords to DBUF and nothing else; a payload that does not fit raises
PayloadTooLarge (40_bitstream R210, R211). -/
def Obligations.PackedCodewordsClosedForm : Prop :=
  ∀ s : State,
    (s.plen.toNat + 2 ≤ dcap s.ver s.ecl → ∃ t, exec .pack s = .next t ∧
      t = { s with
        mem := t.mem
        result0 := BitVec.ofNat 32 (dcap s.ver s.ecl)
        result1 := BitVec.ofNat 32 (dcap s.ver s.ecl - (s.plen.toNat + 2))
        pend := none
        status := okStatus s.status s.status.mstate } ∧
      BytesKept s t (Within 0x200 (dcap s.ver s.ecl)) ∧
      ∀ k, k < dcap s.ver s.ecl → (t.readByte (0x200 + k)).toNat = packedByte s s.plen.toNat k) ∧
    (dcap s.ver s.ecl < s.plen.toNat + 2 → Fails .pack s .payloadTooLarge)

/-! ## Matrix commands -/

/-- MCLEAR clears every MAT cell, enters EMPTY and changes nothing else (43_matrix R350). -/
def Obligations.MatrixClears : Prop :=
  ∀ s : State, ∃ t, exec .mclear s = .next t ∧
    t = { s with mem := t.mem, pend := none, status := okStatus s.status .empty } ∧ MatClear t ∧ BytesKept s t InMat

/-- STFIND in EMPTY draws the three finder patterns with their separators and reserves their cells, enters FINDER and
changes nothing else; in any other state it raises SequenceError (43_matrix R355). -/
def Obligations.FinderPatternsStamped : Prop :=
  ∀ s : State, SymLegal s →
    (s.status.mstate = .empty → ∃ t, exec .stfind s = .next t ∧
      t = { s with mem := t.mem, pend := none, status := okStatus s.status .finder } ∧
      CellsKept s t (InCorner s.size) ∧
      ∀ r c, InCorner s.size r c →
        t.readByte (0x1000 + 64 * r + c) = if cornerValue s.size r c = 1 then 3#8 else 2#8) ∧
    (s.status.mstate ≠ .empty → Fails .stfind s .sequenceError)

/-- STALIGN in FINDER draws the alignment pattern at (S-7, S-7) from version 2 on and none at version 1, enters ALIGN and
changes nothing else; outside FINDER it raises SequenceError (43_matrix R360). -/
def Obligations.AlignmentPatternStamped : Prop :=
  ∀ s : State, SymLegal s →
    (s.status.mstate = .finder → ∃ t, exec .stalign s = .next t ∧
      t = { s with mem := t.mem, pend := none, status := okStatus s.status .align } ∧
      CellsKept s t (fun r c => 2 ≤ s.ver ∧ (s.size - 9 ≤ r ∧ r ≤ s.size - 5) ∧ (s.size - 9 ≤ c ∧ c ≤ s.size - 5)) ∧
      (2 ≤ s.ver → ∀ r c, s.size - 9 ≤ r → r ≤ s.size - 5 → s.size - 9 ≤ c → c ≤ s.size - 5 →
        t.readByte (0x1000 + 64 * r + c) =
          if (s.size - 8 ≤ r ∧ r ≤ s.size - 6) ∧ (s.size - 8 ≤ c ∧ c ≤ s.size - 6) ∧ ¬ (r = s.size - 7 ∧ c = s.size - 7)
          then 2#8 else 3#8)) ∧
    (s.status.mstate ≠ .finder → Fails .stalign s .sequenceError)

/-- STTIME in ALIGN, or in FINDER at version 1, draws the timing cells of row 6 and column 6 that are not reserved yet,
dark at even indices, enters TIMING and changes nothing else; elsewhere it raises SequenceError (43_matrix R365). -/
def Obligations.TimingPatternsStamped : Prop :=
  ∀ s : State, SymLegal s →
    (s.status.mstate = .align ∨ (s.status.mstate = .finder ∧ s.ver = 1) →
      ∃ t, exec .sttime s = .next t ∧
      t = { s with mem := t.mem, pend := none, status := okStatus s.status .timing } ∧
      CellsKept s t (fun r c => InSymbol s r c ∧ (r = 6 ∨ c = 6) ∧ rAt s r c = false) ∧
      (∀ i, i < s.size → rAt s 6 i = false →
        t.readByte (0x1000 + 64 * 6 + i) = if i % 2 = 0 then 3#8 else 2#8) ∧
      (∀ i, i < s.size → rAt s i 6 = false →
        t.readByte (0x1000 + 64 * i + 6) = if i % 2 = 0 then 3#8 else 2#8)) ∧
    (¬ (s.status.mstate = .align ∨ (s.status.mstate = .finder ∧ s.ver = 1)) → Fails .sttime s .sequenceError)

/-- RSVFMT in TIMING reserves the 31 cells of the format area and the dark module, light, enters FMTRSV and changes
nothing else; outside TIMING it raises SequenceError (43_matrix R370). -/
def Obligations.FormatAreaReserved : Prop :=
  ∀ s : State, SymLegal s →
    (s.status.mstate = .timing → ∃ t, exec .rsvfmt s = .next t ∧
      t = { s with mem := t.mem, pend := none, status := okStatus s.status .fmtrsv } ∧
      CellsKept s t (InFormat s.size) ∧
      ∀ r c, InFormat s.size r c → t.readByte (0x1000 + 64 * r + c) = 2#8) ∧
    (s.status.mstate ≠ .timing → Fails .rsvfmt s .sequenceError)

/-- PLACE in FMTRSV gives the cells that are not reserved the bits of the stream in zig-zag order and leaves the rest
light; it enters DATA, reports the bits placed and the cells left, and changes nothing else; outside FMTRSV it raises
SequenceError (43_matrix R375). That cells of column 6 keep their values and are not counted even where the host has
cleared their R is the model's reading of the pseudocode, log 21. -/
def Obligations.DataPlacedInZigzagOrder : Prop :=
  ∀ s : State, SymLegal s →
    (s.status.mstate = .fmtrsv → ∃ t, exec .place s = .next t ∧
      t = { s with
        mem := t.mem
        result0 := BitVec.ofNat 32 (min (freeCount s) (8 * tcw s.ver))
        result1 := BitVec.ofNat 32 (freeCount s - 8 * tcw s.ver)
        pend := none
        status := okStatus s.status .data } ∧
      CellsKept s t (fun r c => InSymbol s r c ∧ placeable s r c = true) ∧
      ∀ r c, InSymbol s r c → placeable s r c = true → rAt t r c = false ∧
        vAt t r c = (decide (filledBefore s r c < 8 * tcw s.ver) && streamBit s (filledBefore s r c))) ∧
    (s.status.mstate ≠ .fmtrsv → Fails .place s .sequenceError)

/-! ## Mask commands -/

/-- MAPPLY in DATA applies the mask, and in MASKED with the mask in SYM removes it; it writes SYM.MASK when it applies,
RESULT0, MSTATE, and nothing else. In any other state, or MASKED with another mask, it raises SequenceError (44_mask
R402). -/
def Obligations.MaskAppliesAndRemoves : Prop :=
  ∀ (k : BitVec 3) (s : State), SymLegal s →
    (s.status.mstate = .data → ∃ t, exec (.mapply k) s = .next t ∧
      t = { s with
        mem := t.mem
        sym := { s.sym with mask := k }
        result0 := k.setWidth 32
        pend := none
        status := okStatus s.status .masked } ∧ MaskApplied s t k.toNat) ∧
    (s.status.mstate = .masked → k = s.sym.mask → ∃ t, exec (.mapply k) s = .next t ∧
      t = { s with
        mem := t.mem
        result0 := k.setWidth 32
        pend := none
        status := okStatus s.status .data } ∧ MaskApplied s t k.toNat) ∧
    (¬ (s.status.mstate = .data ∨ (s.status.mstate = .masked ∧ k = s.sym.mask)) → Fails (.mapply k) s .sequenceError)

/-- Applying a mask and removing it gives every byte of storage back and returns to DATA (44_mask R401). -/
def Obligations.MaskTwiceRestores : Prop :=
  ∀ (k : BitVec 3) (s : State), SymLegal s → s.mem.wf = true → s.status.mstate = .data →
    ∃ t u, exec (.mapply k) s = .next t ∧ exec (.mapply k) t = .next u ∧ u.status.mstate = .data ∧
      ∀ a, u.readByte a = s.readByte a

/-- Each of the eight mask conditions is its formula of the table, at every row and column, and gives the picture the table
prints (44_mask R400). -/
def Obligations.MaskConditionPictures : Prop :=
  (∀ r c,
    (maskCond 0 r c = true ↔ (r + c) % 2 = 0) ∧
    (maskCond 1 r c = true ↔ r % 2 = 0) ∧
    (maskCond 2 r c = true ↔ c % 3 = 0) ∧
    (maskCond 3 r c = true ↔ (r + c) % 3 = 0) ∧
    (maskCond 4 r c = true ↔ (r / 2 + c / 3) % 2 = 0) ∧
    (maskCond 5 r c = true ↔ (r * c) % 2 + (r * c) % 3 = 0) ∧
    (maskCond 6 r c = true ↔ ((r * c) % 2 + (r * c) % 3) % 2 = 0) ∧
    (maskCond 7 r c = true ↔ ((r + c) % 2 + (r * c) % 3) % 2 = 0)) ∧
  ((List.range 8).map fun k => (List.range 4).map fun r => (List.range 6).map fun c => maskCond k r c) =
  let T := true
  let F := false
  [[[T, F, T, F, T, F], [F, T, F, T, F, T], [T, F, T, F, T, F], [F, T, F, T, F, T]],
   [[T, T, T, T, T, T], [F, F, F, F, F, F], [T, T, T, T, T, T], [F, F, F, F, F, F]],
   [[T, F, F, T, F, F], [T, F, F, T, F, F], [T, F, F, T, F, F], [T, F, F, T, F, F]],
   [[T, F, F, T, F, F], [F, F, T, F, F, T], [F, T, F, F, T, F], [T, F, F, T, F, F]],
   [[T, T, T, F, F, F], [T, T, T, F, F, F], [F, F, F, T, T, T], [F, F, F, T, T, T]],
   [[T, T, T, T, T, T], [T, F, F, F, F, F], [T, F, F, T, F, F], [T, F, T, F, T, F]],
   [[T, T, T, T, T, T], [T, T, T, F, F, F], [T, T, F, T, T, F], [T, F, T, F, T, F]],
   [[T, F, T, F, T, F], [F, F, F, T, T, T], [T, F, F, F, T, T], [F, T, F, T, F, T]]]

/-- MSCORE writes the score of the symbol and its two parts, and nothing else (44_mask R405, R403). -/
def Obligations.ScoreOfMatrix : Prop :=
  ∀ s : State, SymLegal s → exec .mscore s = .next { s with
    result0 := BitVec.ofNat 32 (rule1 s.size (vAt s) + rule4 s.size (vAt s))
    result1 := BitVec.ofNat 32 (rule1 s.size (vAt s) + 65536 * rule4 s.size (vAt s))
    pend := none
    status := okStatus s.status s.status.mstate }

/-- MASKSEL in DATA scores the eight candidates, applies the lowest-numbered one of lowest score, and writes nothing
else; outside DATA it raises SequenceError (44_mask R410). -/
def Obligations.BestMaskIsLowestOfLowest : Prop :=
  ∀ s : State, SymLegal s →
    (s.status.mstate = .data → ∃ t best, exec .masksel s = .next t ∧ best < 8 ∧
      t = { s with
        mem := t.mem
        scores := t.scores
        sym := { s.sym with mask := BitVec.ofNat 3 best }
        result0 := BitVec.ofNat 32 best
        result1 := BitVec.ofNat 32 (candidate s best)
        pend := none
        status := okStatus s.status .masked } ∧
      (∀ k : Fin 8, t.scores[k].toNat = candidate s k) ∧
      (∀ k, k < 8 → candidate s best ≤ candidate s k) ∧
      (∀ k, k < best → candidate s best < candidate s k) ∧
      MaskApplied s t best) ∧
    (s.status.mstate ≠ .data → Fails .masksel s .sequenceError)

/-! ## Format commands -/

/-- FMTENC with a supported level writes the BCH word of the level and mask to RESULT0 and nothing else; a level above 3
raises UnsupportedLevel (45_format R450, R452). -/
def Obligations.FormatWordIsBchWord : Prop :=
  ∀ (ecl mask : BitVec 3) (s : State),
    (ecl.toNat ≤ 3 → exec (.fmtenc ecl mask) s = .next { s with
      result0 := BitVec.ofNat 32 (bchWord ecl.toNat mask.toNat)
      pend := none
      status := okStatus s.status s.status.mstate }) ∧
    (3 < ecl.toNat → Fails (.fmtenc ecl mask) s .unsupportedLevel)

/-- Any two format words differ in at least seven bit positions (45_format R453). -/
def Obligations.FormatWordsFarApart : Prop :=
  ∀ i j, i < 32 → j < 32 → i ≠ j →
    7 ≤ (List.range 15).countP fun n => (formatWord (i / 8) (i % 8)).getLsbD n != (formatWord (j / 8) (j % 8)).getLsbD n

/-- FMTWR in MASKED writes the format word to both sequences, most significant bit first, and the dark module; it enters
FINAL, writes RESULT0 and nothing else; outside MASKED it raises SequenceError (45_format R455). -/
def Obligations.FormatWrittenTwice : Prop :=
  ∀ s : State, SymLegal s →
    (s.status.mstate = .masked → ∃ t, exec .fmtwr s = .next t ∧
      t = { s with
        mem := t.mem
        result0 := BitVec.ofNat 32 (bchWord s.ecl s.sym.mask.toNat)
        pend := none
        status := okStatus s.status .final } ∧
      CellsKept s t (InFormat s.size) ∧
      (∀ r c, InFormat s.size r c → rAt t r c = rAt s r c) ∧
      (∀ j, j < 15 → vAt t 8 (formatRowColumn s.size j) = (bchWord s.ecl s.sym.mask.toNat).testBit (14 - j)) ∧
      (∀ j, j < 15 → vAt t (formatColumnRow s.size j) 8 = (bchWord s.ecl s.sym.mask.toNat).testBit (14 - j)) ∧
      vAt t (s.size - 8) 8 = true) ∧
    (s.status.mstate ≠ .masked → Fails .fmtwr s .sequenceError)

/-! ## The whole symbol -/

/-- GENERATE of a payload that fits completes with a finished symbol of the smallest version, and writes only DBUF, CBUF,
MAT, SYM, the scores, the results and STATUS. A payload that fits no version raises PayloadTooLarge, and a level above 3
UnsupportedLevel (46_control R510). -/
def Obligations.GenerateCompletes : Prop :=
  ∀ (ecl : BitVec 3) (s : State),
    (ecl.toNat ≤ 3 → ∀ v, SmallestVersion s.plen.toNat ecl.toNat v → ∃ t, exec (.generate ecl) s = .next t ∧
      t = { s with
        mem := t.mem
        sym := ⟨BitVec.ofNat 3 v, ecl, t.sym.mask, BitVec.ofNat 8 (17 + 4 * v)⟩
        scores := t.scores
        result0 := BitVec.ofNat 32 (17 + 4 * v)
        result1 := t.sym.toWord
        pend := none
        status := okStatus s.status .final } ∧
      BytesKept s t (fun a => Within 0x200 (dcap v ecl.toNat) a ∨ Within 0x300 (tcw v) a ∨ InMat a) ∧
      ∀ r c, r < 41 → c < 64 → 17 + 4 * v ≤ r ∨ 17 + 4 * v ≤ c → t.readByte (0x1000 + 64 * r + c) = 0#8) ∧
    (ecl.toNat ≤ 3 → dcap 6 ecl.toNat < s.plen.toNat + 2 → Fails (.generate ecl) s .payloadTooLarge) ∧
    (3 < ecl.toNat → Fails (.generate ecl) s .unsupportedLevel)

/-- GENERATE leaves the SYM, scores, MSTATE and storage that the steps of ENCODE leave; ENCODE's RESULT0 is the format
word and its RESULT1 the best score (46_control R511). -/
def Obligations.GenerateEqualsEncode : Prop :=
  ∀ (ecl : BitVec 3) (s : State) (v : Nat), ecl.toNat ≤ 3 → SmallestVersion s.plen.toNat ecl.toNat v →
    ∃ t u, exec (.generate ecl) s = .next t ∧ execAll (encodeSequence ecl) s = .next u ∧
      u.sym = t.sym ∧ u.scores = t.scores ∧ u.status = t.status ∧ (∀ a, u.readByte a = t.readByte a) ∧
      u.result0 = BitVec.ofNat 32 (bchWord ecl.toNat t.sym.mask.toNat) ∧
      u.result1 = (t.scores[t.sym.mask.toNat]).setWidth 32

/-- A generated symbol has the three finder patterns at its corners and the dark module (43_matrix R380, 46_control
R512). -/
def Obligations.GeneratedSymbolHasFindersAndDarkModule : Prop :=
  ∀ (ecl : BitVec 3) (s : State) (v : Nat), ecl.toNat ≤ 3 → SmallestVersion s.plen.toNat ecl.toNat v →
    ∃ t, exec (.generate ecl) s = .next t ∧
      (∀ r c, InCorner (17 + 4 * v) r c → vAt t r c = (cornerValue (17 + 4 * v) r c == 1) ∧ rAt t r c = true) ∧
      vAt t (17 + 4 * v - 8) 8 = true

/-- GENERATE's symbol, SYM and scores depend on PLEN, the payload bytes and the level alone (46_control R512, 10_state
R62). -/
def Obligations.GenerateDependsOnPayloadAlone : Prop :=
  ∀ (ecl : BitVec 3) (s s' : State) (v : Nat), ecl.toNat ≤ 3 → SmallestVersion s.plen.toNat ecl.toNat v →
    s'.plen = s.plen → (∀ i, i < s.plen.toNat → s'.readByte (0x100 + i) = s.readByte (0x100 + i)) →
    ∃ t t', exec (.generate ecl) s = .next t ∧ exec (.generate ecl) s' = .next t' ∧
      t'.sym = t.sym ∧ t'.scores = t.scores ∧
      ∀ r c, r < 41 → c < 64 → t'.readByte (0x1000 + 64 * r + c) = t.readByte (0x1000 + 64 * r + c)

/-! ## The bus and the engine -/

/-- An access that is unmapped, narrow, misaligned or shut out while busy gets a bus error and changes no state of the
block; every other access is served: a write is acknowledged, and a read answers data and changes no state (60_exceptions
R551, 20_memory R104 to R106, R110). A completion that is due would go before the access: that order is the model's own,
log 16. -/
def Obligations.RejectedAccessesHaveNoEffect : Prop :=
  ∀ (s : State) (q : BusReq) (rest : List HostEvent), s.rstN = true → s.due = none → s.host = .access q :: rest →
    (Rejected q s.busy → step s = .next { turn s rest with rsp := some .busErr }) ∧
    (¬ Rejected q s.busy → q.write = true → ∃ t, step s = .next t ∧ t.rsp = some .ack) ∧
    (¬ Rejected q s.busy → q.write = false → ∃ d, step s = .next { turn s rest with rsp := some (.data d) })

/-- A word read of a register answers its value and has no side effect, busy or not (20_memory R102, R108, 10_state R32 to
R43). A completion that is due would go before the read: that order is the model's own, log 16. -/
def Obligations.RegisterReadsAnswerTheRegister : Prop :=
  ∀ (s : State) (addr : BitVec 13) (w : Word) (rest : List HostEvent), s.rstN = true → s.due = none →
    s.host = wordAccess addr false w :: rest → addr.toNat < 0x40 → addr.toNat % 4 = 0 →
    ∃ d : Word, d.toNat = registerValue s addr.toNat ∧ step s = .next { turn s rest with rsp := some (.data d) }

/-- A write to CMD while not busy issues the word: CMD and PEND take it, BUSY sets, DONE, ERR and ERRCODE clear, `irq`
falls, and the latency given for the issue starts (10_state R60, R35, R44; the latency list is the model's own, log 2). -/
def Obligations.CommandWriteIssues : Prop :=
  ∀ (s : State) (w : Word) (rest : List HostEvent), s.rstN = true → s.pend = none →
    s.host = wordAccess 0x004#13 true w :: rest → ∃ t, step s = .next t ∧
    t = { s with
      cmd := w
      pend := some w
      status := ⟨false, false, s.status.ovr, s.status.mstate, none⟩
      host := rest
      rsp := some .ack
      wait := t.wait
      latencies := s.latencies.tail
      issues := s.issues + 1 } ∧
    t.irq = false ∧
    ∀ n ns, s.latencies = n :: ns → t.wait = n

/-- A write to CMD while busy leaves CMD and PEND unchanged, sets OVR, and is answered without a bus error (10_state
R61). A completion that is due would go before the write: that order is the model's own, log 16. -/
def Obligations.CommandWriteWhileBusyIsDropped : Prop :=
  ∀ (s : State) (w p : Word) (rest : List HostEvent), s.rstN = true → s.pend = some p → s.wait ≠ 0 →
    s.host = wordAccess 0x004#13 true w :: rest →
    step s = .next { turn s rest with
      status := { s.status with ovr := true }
      rsp := some .ack }

/-- A write to STATUS clears DONE and OVR where its bits 1 and 3 are 1 and nothing else, busy or not, and `irq` is then the
DONE that is left and IE (10_state R35, R44). A completion that is due would go before the write: that order is the
model's own, log 16. -/
def Obligations.StatusWriteClearsFlags : Prop :=
  ∀ (s : State) (w : Word) (rest : List HostEvent), s.rstN = true → s.due = none →
    s.host = wordAccess 0x008#13 true w :: rest → ∃ t, step s = .next t ∧
    t = { turn s rest with
      status := { s.status with
        done := s.status.done && !w.getLsbD 1
        ovr := s.status.ovr && !w.getLsbD 3 }
      rsp := some .ack } ∧
    t.irq = (s.status.done && !w.getLsbD 1 && s.cfg.ie)

/-- While not busy, a write to CFG stores bits 1:0, so that `irq` is DONE and the new IE, and a write to PLEN stores bits 7:0; busy or not, a write to a read-only
register is ignored and acknowledged (10_state R38, R41, R44, 20_memory R108, R110). A completion that is due would go before
the write: that order is the model's own, log 16. -/
def Obligations.RegisterWritesStoreWritableBits : Prop :=
  ∀ (s : State) (addr : BitVec 13) (w : Word) (rest : List HostEvent), s.rstN = true → s.due = none →
    s.host = wordAccess addr true w :: rest → addr.toNat < 0x40 → addr.toNat % 4 = 0 →
    (s.pend = none → addr = 0x00C#13 → ∃ t, step s = .next t ∧
      t = { turn s rest with cfg := ⟨w.getLsbD 0, w.getLsbD 1⟩, rsp := some .ack } ∧
      t.irq = (s.status.done && w.getLsbD 1)) ∧
    (s.pend = none → addr = 0x014#13 → step s = .next { turn s rest with
      plen := BitVec.ofNat 8 w.toNat, rsp := some .ack }) ∧
    (addr ≠ 0x004#13 → addr ≠ 0x008#13 → addr ≠ 0x00C#13 → addr ≠ 0x014#13 →
      step s = .next { turn s rest with rsp := some .ack })

/-- While not busy, a word written to a buffer or to MAT is stored little-endian, MAT keeping bits 1:0 of each byte, and
every other byte and all registers stay; a word read answers the four bytes little-endian, of MAT with bits 7:2 of each 0
(20_memory R107). -/
def Obligations.StorageWordsAreLittleEndian : Prop :=
  ∀ (s : State) (addr : BitVec 13) (w : Word) (rest : List HostEvent), s.rstN = true → s.pend = none →
    addr.toNat % 4 = 0 → (0x100 ≤ addr.toNat ∧ addr.toNat < 0x600) ∨ InMat addr.toNat →
    (s.host = wordAccess addr true w :: rest → ∃ t, step s = .next t ∧
      t = { turn s rest with mem := t.mem, rsp := some .ack } ∧
      BytesKept s t (Within addr.toNat 4) ∧
      ∀ i, i < 4 → t.readByte (addr.toNat + i) =
        if 0x1000 ≤ addr.toNat then w.extractLsb' (8 * i) 8 &&& 3#8 else w.extractLsb' (8 * i) 8) ∧
    (s.host = wordAccess addr false w :: rest → ∃ d : Word, step s = .next { turn s rest with rsp := some (.data d) } ∧
      (∀ i, i < 4 → d.extractLsb' (8 * i) 8 = s.readByte (addr.toNat + i)) ∧
      (s.mem.wf = true → 0x1000 ≤ addr.toNat → d &&& 0xFCFCFCFC#32 = 0#32))

/-- The falling edge of `rst_n` loads every register's reset value, abandons a busy command, drives `irq` low and draws
the storage anew (70_reset R600; that the storage is drawn by the count of resets is the model's own, log 3, and
that a completion that is due goes before the reset is log 16). -/
def Obligations.HardwareResetLoadsResetValues : Prop :=
  ∀ (s : State) (rest : List HostEvent), s.rstN = true → s.due = none → s.host = .resetAssert :: rest →
    ∃ t, step s = .next t ∧
    t = { s with
      cmd := 0#32
      status := ⟨false, false, false, .uninit, none⟩
      cfg := ⟨false, false⟩
      sym := ⟨1#3, 1#3, 0#3, 21#8⟩
      plen := 0#8
      result0 := 0#32
      result1 := 0#32
      scores := #v[0#16, 0#16, 0#16, 0#16, 0#16, 0#16, 0#16, 0#16]
      mem := []
      pend := none
      rstN := false
      host := rest
      wait := 0
      resets := s.resets + 1 } ∧
    t.irq = false

/-- After reset every register reads as its reset value (10_state R50). -/
def Obligations.RegistersReadResetValues : Prop :=
  ((List.range 16).map fun k => State.reset.busRead (4 * k)) =
    ([0x51524331, 0, 0xF0, 0, 0x00150011, 0, 0, 0, 0, 0, 0, 0, 0, 0, 0, 0] : List Word).map BusResp.data ∧
  State.reset.irq = false ∧ State.reset.busy = false

/-- A busy command that no reset abandons completes after the events of its latency, whatever the host does in them, and
until then nothing a command reads or writes changes (70_reset R620, 10_state R60; that LAT is counted in host events is the
model's own, log 2). -/
def Obligations.BusyCommandCompletes : Prop :=
  ∀ (s : State) (w : Word), s.pend = some w → s.rstN = true →
    (∀ e ∈ s.host.take s.wait, e ≠ .resetAssert) →
    ∃ t u, core.run s.wait s = .next t ∧ t.due = some w ∧
      (t.cmd = s.cmd ∧ t.cfg = s.cfg ∧ t.sym = s.sym ∧ t.plen = s.plen ∧ t.result0 = s.result0 ∧
        t.result1 = s.result1 ∧ t.scores = s.scores ∧ t.mem = s.mem ∧ t.resets = s.resets ∧
        t.status.mstate = s.status.mstate ∧ t.status.err = s.status.err ∧ t.status.errCode = s.status.errCode) ∧
      core.run (s.wait + 1) s = .next u ∧ u.pend = none

/-- What a command computes does not depend on DONE, OVR or anything of the host's side, so it is fixed at issue (10_state
R62). -/
def Obligations.ResultFixedAtIssue : Prop :=
  ∀ (i : Instr) (s : State) (done ovr : Bool) (host : List HostEvent) (rsp : Option BusResp) (latencies : List Nat),
    ∃ t t', exec i s = .next t ∧
      exec i { s with
        status := { s.status with done := done, ovr := ovr }
        host := host
        rsp := rsp
        latencies := latencies } = .next t' ∧
      t'.cmd = t.cmd ∧ t'.cfg = t.cfg ∧ t'.sym = t.sym ∧ t'.plen = t.plen ∧ t'.result0 = t.result0 ∧
      t'.result1 = t.result1 ∧ t'.scores = t.scores ∧ t'.mem = t.mem ∧ t'.pend = t.pend ∧
      t'.status.done = t.status.done ∧ t'.status.err = t.status.err ∧ t'.status.errCode = t.status.errCode ∧
      t'.status.mstate = t.status.mstate

/-! ## The tables -/

/-- The 24 cells of the capacity table and of the block table, level by level: data capacity, parity codewords of a block,
and the data lengths of the blocks in order, shorter first; and the total codewords of each version (40_bitstream R201,
42_reed_solomon R301). -/
def Obligations.CapacityAndBlockTableCells : Prop :=
  ([1, 2, 3, 4, 5, 6].map fun v => (tcw v, [0, 1, 2, 3].map fun e => (dcap v e, ecPerBlock v e, blockLengths v e))) =
  [(26, [(19, 7, [19]), (16, 10, [16]), (13, 13, [13]), (9, 17, [9])]),
   (44, [(34, 10, [34]), (28, 16, [28]), (22, 22, [22]), (16, 28, [16])]),
   (70, [(55, 15, [55]), (44, 26, [44]), (34, 18, [17, 17]), (26, 22, [13, 13])]),
   (100, [(80, 20, [80]), (64, 18, [32, 32]), (48, 26, [24, 24]), (36, 16, [9, 9, 9, 9])]),
   (134, [(108, 26, [108]), (86, 24, [43, 43]), (62, 18, [15, 15, 16, 16]), (46, 22, [11, 11, 12, 12])]),
   (172, [(136, 18, [68, 68]), (108, 16, [27, 27, 27, 27]), (76, 24, [19, 19, 19, 19]), (60, 28, [15, 15, 15, 15])])]

/-! ## The reset pin -/

/-- While `rst_n` is 0, `irq` is 0, an access is not answered and has no effect, and the release changes nothing but the
level (70_reset R600). That an access then has no effect at all is the model's own, log 5; that an edge of `rst_n` to the
level it has changes nothing is the model's own, log 13; that a completion that is due goes before an event is log 16. -/
def Obligations.AssertedResetAnswersNoAccess : Prop :=
  ∀ (s : State) (rest : List HostEvent),
    (s.rstN = false → s.irq = false ∧
      (∀ q, s.host = .access q :: rest → step s = .next { turn s rest with rsp := some .noAnswer }) ∧
      (s.host = .idle :: rest → step s = .next (turn s rest)) ∧
      (s.host = .resetAssert :: rest → step s = .next (turn s rest)) ∧
      (s.host = .resetRelease :: rest → step s = .next { turn s rest with rstN := true })) ∧
    (s.rstN = true → s.due = none → s.host = .resetRelease :: rest → step s = .next (turn s rest))

/-- From an assertion of `rst_n` to its release, whatever the host does in between, no access is answered, and after the
release every register holds its reset value, no command is pending and no written byte is left (70_reset R600; the
storage's free contents are counted by the model's own field, log 3, and accesses during reset follow log 5). -/
def Obligations.ReleasedBlockHoldsResetValues : Prop :=
  ∀ (s : State) (during rest : List HostEvent), s.rstN = true → s.due = none →
    s.host = .resetAssert :: (during ++ .resetRelease :: rest) → (∀ e ∈ during, e ≠ .resetRelease) →
    ∃ t, core.run (during.length + 2) s = .next t ∧
    t = { s with
      cmd := 0#32
      status := ⟨false, false, false, .uninit, none⟩
      cfg := ⟨false, false⟩
      sym := ⟨1#3, 1#3, 0#3, 21#8⟩
      plen := 0#8
      result0 := 0#32
      result1 := 0#32
      scores := #v[0#16, 0#16, 0#16, 0#16, 0#16, 0#16, 0#16, 0#16]
      mem := []
      pend := none
      rstN := true
      host := rest
      rsp := t.rsp
      wait := 0
      resets := s.resets + 1 } ∧
    (t.rsp = s.rsp ∨ t.rsp = some .noAnswer) ∧ t.irq = false

/-! ## The idle turn -/

/-- With no completion due, a turn in which the host makes no access changes no state of the block, and `irq` stays as it
is (10_state R35, R44). That a completion that is due goes before the turn is the model's own, log 16, and so is the
latency that the turn counts down, log 2. -/
def Obligations.IdleTurnChangesNothing : Prop :=
  ∀ (s : State) (rest : List HostEvent), s.due = none →
    s.host = .idle :: rest ∨ (s.host = [] ∧ rest = []) →
    step s = .next (turn s rest) ∧ (turn s rest).irq = s.irq
end

