-- ==== Sys2Proof/Laws/State.lean ====
section
/-! SUPPORT. One lemma per field per update of the state. -/

namespace Sys2Proof.Machine

section Finish
variable (s : State)
@[simp] theorem State.finish_cmd : s.finish.cmd = s.cmd := rfl
@[simp] theorem State.finish_cfg : s.finish.cfg = s.cfg := rfl
@[simp] theorem State.finish_sym : s.finish.sym = s.sym := rfl
@[simp] theorem State.finish_plen : s.finish.plen = s.plen := rfl
@[simp] theorem State.finish_result0 : s.finish.result0 = s.result0 := rfl
@[simp] theorem State.finish_result1 : s.finish.result1 = s.result1 := rfl
@[simp] theorem State.finish_scores : s.finish.scores = s.scores := rfl
@[simp] theorem State.finish_mem : s.finish.mem = s.mem := rfl
@[simp] theorem State.finish_pend : s.finish.pend = none := rfl
@[simp] theorem State.finish_status : s.finish.status = s.status.onSuccess := rfl
@[simp] theorem State.finish_rstN : s.finish.rstN = s.rstN := rfl
@[simp] theorem State.finish_wait : s.finish.wait = s.wait := rfl
@[simp] theorem State.finish_resets : s.finish.resets = s.resets := rfl
@[simp] theorem State.finish_size : s.finish.size = s.size := rfl
@[simp] theorem State.finish_ver : s.finish.ver = s.ver := rfl
@[simp] theorem State.finish_ecl : s.finish.ecl = s.ecl := rfl
@[simp] theorem State.finish_readByte (a : Nat) : s.finish.readByte a = s.readByte a := rfl
@[simp] theorem State.finish_cell (r c : Nat) : s.finish.cell r c = s.cell r c := rfl
end Finish

section Raise
variable (e : CmdError) (s : State)
@[simp] theorem State.raise_cmd : (s.raise e).cmd = s.cmd := rfl
@[simp] theorem State.raise_cfg : (s.raise e).cfg = s.cfg := rfl
@[simp] theorem State.raise_sym : (s.raise e).sym = s.sym := rfl
@[simp] theorem State.raise_plen : (s.raise e).plen = s.plen := rfl
@[simp] theorem State.raise_result0 : (s.raise e).result0 = s.result0 := rfl
@[simp] theorem State.raise_result1 : (s.raise e).result1 = s.result1 := rfl
@[simp] theorem State.raise_scores : (s.raise e).scores = s.scores := rfl
@[simp] theorem State.raise_mem : (s.raise e).mem = s.mem := rfl
@[simp] theorem State.raise_pend : (s.raise e).pend = none := rfl
@[simp] theorem State.raise_status : (s.raise e).status = s.status.onError e := rfl
@[simp] theorem State.raise_rstN : (s.raise e).rstN = s.rstN := rfl
@[simp] theorem State.raise_wait : (s.raise e).wait = s.wait := rfl
@[simp] theorem State.raise_resets : (s.raise e).resets = s.resets := rfl
end Raise

section SetMState
variable (m : MState) (s : State)
@[simp] theorem State.setMState_cmd : (s.setMState m).cmd = s.cmd := rfl
@[simp] theorem State.setMState_cfg : (s.setMState m).cfg = s.cfg := rfl
@[simp] theorem State.setMState_sym : (s.setMState m).sym = s.sym := rfl
@[simp] theorem State.setMState_plen : (s.setMState m).plen = s.plen := rfl
@[simp] theorem State.setMState_result0 : (s.setMState m).result0 = s.result0 := rfl
@[simp] theorem State.setMState_result1 : (s.setMState m).result1 = s.result1 := rfl
@[simp] theorem State.setMState_scores : (s.setMState m).scores = s.scores := rfl
@[simp] theorem State.setMState_mem : (s.setMState m).mem = s.mem := rfl
@[simp] theorem State.setMState_pend : (s.setMState m).pend = s.pend := rfl
@[simp] theorem State.setMState_status : (s.setMState m).status = { s.status with mstate := m } := rfl
@[simp] theorem State.setMState_rstN : (s.setMState m).rstN = s.rstN := rfl
@[simp] theorem State.setMState_wait : (s.setMState m).wait = s.wait := rfl
@[simp] theorem State.setMState_resets : (s.setMState m).resets = s.resets := rfl
@[simp] theorem State.setMState_size : (s.setMState m).size = s.size := rfl
@[simp] theorem State.setMState_ver : (s.setMState m).ver = s.ver := rfl
@[simp] theorem State.setMState_ecl : (s.setMState m).ecl = s.ecl := rfl
@[simp] theorem State.setMState_readByte (a : Nat) : (s.setMState m).readByte a = s.readByte a := rfl
@[simp] theorem State.setMState_cell (r c : Nat) : (s.setMState m).cell r c = s.cell r c := rfl
end SetMState

section WriteBytes
variable (base : Nat) (bs : List Byte) (s : State)
@[simp] theorem State.writeBytes_cmd : (s.writeBytes base bs).cmd = s.cmd := rfl
@[simp] theorem State.writeBytes_status : (s.writeBytes base bs).status = s.status := rfl
@[simp] theorem State.writeBytes_cfg : (s.writeBytes base bs).cfg = s.cfg := rfl
@[simp] theorem State.writeBytes_sym : (s.writeBytes base bs).sym = s.sym := rfl
@[simp] theorem State.writeBytes_plen : (s.writeBytes base bs).plen = s.plen := rfl
@[simp] theorem State.writeBytes_result0 : (s.writeBytes base bs).result0 = s.result0 := rfl
@[simp] theorem State.writeBytes_result1 : (s.writeBytes base bs).result1 = s.result1 := rfl
@[simp] theorem State.writeBytes_scores : (s.writeBytes base bs).scores = s.scores := rfl
@[simp] theorem State.writeBytes_pend : (s.writeBytes base bs).pend = s.pend := rfl
@[simp] theorem State.writeBytes_rstN : (s.writeBytes base bs).rstN = s.rstN := rfl
@[simp] theorem State.writeBytes_wait : (s.writeBytes base bs).wait = s.wait := rfl
@[simp] theorem State.writeBytes_resets : (s.writeBytes base bs).resets = s.resets := rfl
@[simp] theorem State.writeBytes_size : (s.writeBytes base bs).size = s.size := rfl
@[simp] theorem State.writeBytes_ver : (s.writeBytes base bs).ver = s.ver := rfl
@[simp] theorem State.writeBytes_ecl : (s.writeBytes base bs).ecl = s.ecl := rfl
end WriteBytes

section Stamp
variable (f : Nat → Nat → Option Byte) (s : State)
@[simp] theorem State.stamp_cmd : (s.stamp f).cmd = s.cmd := rfl
@[simp] theorem State.stamp_status : (s.stamp f).status = s.status := rfl
@[simp] theorem State.stamp_cfg : (s.stamp f).cfg = s.cfg := rfl
@[simp] theorem State.stamp_sym : (s.stamp f).sym = s.sym := rfl
@[simp] theorem State.stamp_plen : (s.stamp f).plen = s.plen := rfl
@[simp] theorem State.stamp_result0 : (s.stamp f).result0 = s.result0 := rfl
@[simp] theorem State.stamp_result1 : (s.stamp f).result1 = s.result1 := rfl
@[simp] theorem State.stamp_scores : (s.stamp f).scores = s.scores := rfl
@[simp] theorem State.stamp_pend : (s.stamp f).pend = s.pend := rfl
@[simp] theorem State.stamp_rstN : (s.stamp f).rstN = s.rstN := rfl
@[simp] theorem State.stamp_wait : (s.stamp f).wait = s.wait := rfl
@[simp] theorem State.stamp_resets : (s.stamp f).resets = s.resets := rfl
@[simp] theorem State.stamp_size : (s.stamp f).size = s.size := rfl
@[simp] theorem State.stamp_ver : (s.stamp f).ver = s.ver := rfl
@[simp] theorem State.stamp_ecl : (s.stamp f).ecl = s.ecl := rfl
theorem State.stampSymbol_eq : s.stampSymbol f = s.stamp fun r c => if r < s.size ∧ c < s.size then f r c else none := rfl
end Stamp

section Tick
variable (s : State)
@[simp] theorem State.tick_pend : s.tick.pend = s.pend := rfl
@[simp] theorem State.tick_wait : s.tick.wait = s.wait - 1 := rfl
@[simp] theorem State.tick_mem : s.tick.mem = s.mem := rfl
@[simp] theorem State.tick_sym : s.tick.sym = s.sym := rfl
@[simp] theorem State.tick_status : s.tick.status = s.status := rfl
@[simp] theorem State.tick_cmd : s.tick.cmd = s.cmd := rfl
@[simp] theorem State.tick_rstN : s.tick.rstN = s.rstN := rfl
@[simp] theorem State.tick_busy : s.tick.busy = s.busy := rfl
@[simp] theorem State.tick_host : s.tick.host = s.host := rfl
end Tick

section FetchWord
variable (s : State) (n w : Nat)
@[simp] theorem State.withFetchWord_pend : (s.withFetchWord n w).pend = some (BitVec.ofNat 32 (w % 2 ^ n)) := rfl
@[simp] theorem State.withFetchWord_mem : (s.withFetchWord n w).mem = s.mem := rfl
@[simp] theorem State.withFetchWord_sym : (s.withFetchWord n w).sym = s.sym := rfl
@[simp] theorem State.withFetchWord_due : (s.withFetchWord n w).due = some (BitVec.ofNat 32 (w % 2 ^ n)) := rfl
end FetchWord

end Sys2Proof.Machine
end

