-- ==== Sys2Proof/Laws/Memory.lean ====
section
/-! SUPPORT. The laws of the storage: what a write changes and keeps, and that every write keeps the canonical form. -/

namespace Sys2Proof.Machine

/-! ### The written byte at an address -/

@[simp] theorem Memory.find_nil (a : Nat) : Memory.find [] a = none := rfl

theorem Memory.find_cons (x : Host.Cell) (m : Memory) (a : Nat) :
    Memory.find (x :: m) a = if x.1 = a then some x.2 else Memory.find m a := by
  unfold Memory.find
  by_cases h : x.1 = a <;> simp [h]

theorem Memory.find_append (m n : Memory) (a : Nat) :
    Memory.find (m ++ n) a = (Memory.find m a).or (Memory.find n a) := by
  induction m with
  | nil => simp
  | cons x m ih =>
    rw [List.cons_append, Memory.find_cons, Memory.find_cons, ih]
    split <;> simp

theorem Memory.find_filter (m : Memory) (p : Nat → Bool) (a : Nat) :
    Memory.find (m.filter fun x => p x.1) a = if p a then Memory.find m a else none := by
  induction m with
  | nil => simp
  | cons x m ih =>
    by_cases hx : p x.1
    · rw [List.filter_cons_of_pos (by simpa using hx), Memory.find_cons, Memory.find_cons, ih]
      by_cases h : x.1 = a
      · subst h; simp [hx]
      · simp [h]
    · rw [List.filter_cons_of_neg (by simpa using hx), ih, Memory.find_cons]
      by_cases h : x.1 = a
      · subst h; simp [hx]
      · simp [h]

theorem Memory.find_head_or_drop (m : Memory) (a b : Nat) :
    Memory.find m b = if b = a then (m.headAt a).or (Memory.find (m.dropAt a) b)
      else Memory.find (m.dropAt a) b := by
  cases m with
  | nil => simp [Memory.headAt, Memory.dropAt]
  | cons x m =>
    obtain ⟨k, v⟩ := x
    by_cases hk : k = a
    · subst hk
      by_cases hb : b = k
      · subst hb; simp [Memory.headAt, Memory.dropAt, Memory.find_cons]
      · have hb' : ¬ k = b := fun h => hb h.symm
        simp [Memory.dropAt, Memory.find_cons, hb, hb']
    · by_cases hb : b = a
      · subst hb; simp [Memory.headAt, Memory.dropAt, hk]
      · simp [Memory.dropAt, hk, hb]

theorem Memory.find_overlay (os : List (Option Byte)) :
    ∀ (a : Nat) (m : Memory) (b : Nat), Memory.find (Memory.overlay a os m) b =
      if a ≤ b ∧ b < a + os.length then (keptWrite b (os.getD (b - a) none)).or (Memory.find m b)
      else Memory.find m b := by
  induction os with
  | nil => intro a m b; simp [Memory.overlay]
  | cons o os ih =>
    intro a m b
    have hm := Memory.find_head_or_drop m a b
    have key : Memory.find (Memory.overlay a (o :: os) m) b =
        if b = a then ((keptWrite a o).or (m.headAt a)).or (Memory.find (Memory.overlay (a + 1) os (m.dropAt a)) b)
        else Memory.find (Memory.overlay (a + 1) os (m.dropAt a)) b := by
      rw [Memory.overlay]
      cases h : (keptWrite a o).or (m.headAt a) with
      | none => simp
      | some v =>
        by_cases hb : b = a
        · subst hb; simp [Memory.find_cons]
        · have hb' : ¬ a = b := fun h => hb h.symm
          simp [Memory.find_cons, hb, hb']
    rw [key, ih]
    by_cases hb : b = a
    · subst hb
      have hn : ¬ (b + 1 ≤ b ∧ b < b + 1 + os.length) := by omega
      have hp : b ≤ b ∧ b < b + (o :: os).length := ⟨le_refl _, by simp⟩
      rw [if_pos rfl, if_neg hn, if_pos hp, hm, if_pos rfl, Option.or_assoc]
      simp
    · rw [if_neg hb] at hm ⊢
      rw [hm]
      by_cases hr : a + 1 ≤ b ∧ b < a + 1 + os.length
      · have hp : a ≤ b ∧ b < a + (o :: os).length := ⟨by omega, by simp; omega⟩
        rw [if_pos hr, if_pos hp]
        obtain ⟨d, rfl⟩ : ∃ d, b = a + 1 + d := ⟨b - (a + 1), by omega⟩
        have h1 : a + 1 + d - (a + 1) = d := by omega
        have h2 : a + 1 + d - a = d + 1 := by omega
        rw [h1, h2]; simp
      · have hp : ¬ (a ≤ b ∧ b < a + (o :: os).length) := by simp; omega
        rw [if_neg hr, if_neg hp]

/-- What a write leaves at every address. -/
theorem Memory.find_write (m : Memory) (base : Nat) (os : List (Option Byte)) (b : Nat) :
    Memory.find (m.write base os) b =
      if base ≤ b ∧ b < base + os.length then (keptWrite b (os.getD (b - base) none)).or (Memory.find m b)
      else Memory.find m b := by
  rw [Memory.write, Memory.find_append, Memory.find_overlay,
    Memory.find_filter m (fun a => decide (a < base)), Memory.find_filter m (fun a => decide (base ≤ a))]
  by_cases h : base ≤ b
  · have h' : ¬ b < base := by omega
    simp [h, h']
  · have h' : b < base := by omega
    simp [h, h']

/-! ### Reading bytes of the state -/

/-- The byte that an optional write leaves over `old` at `a`. -/
theorem State.readByte_of_find (s : State) (a : Nat) :
    s.readByte a = (s.mem.find a).getD (keptByte a (Config.powerOn s.resets a)) := rfl

theorem State.readByte_write (s : State) (base : Nat) (os : List (Option Byte)) (a : Nat) :
    State.readByte { s with mem := s.mem.write base os } a =
      if base ≤ a ∧ a < base + os.length then (keptWrite a (os.getD (a - base) none)).getD (s.readByte a)
      else s.readByte a := by
  rw [State.readByte, Memory.find_write]
  split
  · cases h : keptWrite a (os.getD (a - base) none) <;> simp [State.readByte]
  · rfl

/-- A write of bytes in storage: the bytes inside the range, everything else as before. -/
theorem State.readByte_writeBytes (s : State) (base : Nat) (bs : List Byte) (a : Nat) :
    (s.writeBytes base bs).readByte a =
      if base ≤ a ∧ a < base + bs.length ∧ isStorageAddr a = true then keptByte a (bs.getD (a - base) 0#8)
      else s.readByte a := by
  rw [State.writeBytes, State.readByte_write]
  simp only [List.length_map]
  by_cases h : base ≤ a ∧ a < base + bs.length
  · have hi : a - base < bs.length := by omega
    by_cases hs : isStorageAddr a = true
    · simp [h, hs, keptWrite, hi]
    · simp [hs, keptWrite]
  · have h' : ¬ (base ≤ a ∧ a < base + bs.length ∧ isStorageAddr a = true) := by tauto
    rw [if_neg h, if_neg h']

/-- Reading a range is reading each byte of it. -/
theorem State.readBytes_eq (s : State) (base n : Nat) :
    s.readBytes base n = (List.range n).map fun i => s.readByte (base + i) := by
  unfold State.readBytes
  apply List.map_congr_left
  intro i hi
  have hi' : i < n := by simpa using hi
  have hp : (decide (base ≤ base + i) && decide (base + i < base + n)) = true := by simp; omega
  have := Memory.find_filter s.mem (fun a => decide (base ≤ a) && decide (a < base + n)) (base + i)
  rw [if_pos hp] at this
  simp only [State.readByte]
  rw [← this]

@[simp] theorem State.length_readBytes (s : State) (base n : Nat) : (s.readBytes base n).length = n := by
  simp [State.readBytes_eq]

theorem State.getElem_readBytes (s : State) (base n i : Nat) (h : i < (s.readBytes base n).length) :
    (s.readBytes base n)[i] = s.readByte (base + i) := by
  simp [State.readBytes_eq]

/-! ### The canonical form -/

theorem keptByte_keptByte (a : Nat) (b : Byte) : keptByte a (keptByte a b) = keptByte a b := by
  unfold keptByte
  split
  · rw [BitVec.and_assoc, BitVec.and_self]
  · rfl

theorem keptWrite_idem (a : Nat) (o : Option Byte) (b : Byte) (h : keptWrite a o = some b) :
    keptWrite a (some b) = some b := by
  unfold keptWrite at *
  by_cases hs : isStorageAddr a = true
  · rw [if_pos hs] at h ⊢
    cases o with
    | none => simp at h
    | some c =>
      simp only [Option.map_some, Option.some.injEq] at h ⊢
      subst h
      exact keptByte_keptByte a c
  · rw [if_neg hs] at h
    simp at h

/-- The canonical form as a proposition. -/
theorem Memory.wf_iff (m : Memory) :
    m.wf = true ↔ (m.Pairwise fun x y => x.1 < y.1) ∧ ∀ x ∈ m, keptWrite x.1 (some x.2) = some x.2 := by
  simp [Memory.wf]

@[simp] theorem Memory.wf_nil : Memory.wf [] = true := by decide

theorem Memory.wf_cons (x : Host.Cell) (m : Memory) : Memory.wf (x :: m) = true ↔
    (∀ y ∈ m, x.1 < y.1) ∧ keptWrite x.1 (some x.2) = some x.2 ∧ m.wf = true := by
  simp only [Memory.wf_iff, List.pairwise_cons, List.mem_cons, forall_eq_or_imp]
  tauto

theorem Memory.mem_dropAt (m : Memory) (a : Nat) (x : Host.Cell) (h : x ∈ m.dropAt a) : x ∈ m := by
  cases m with
  | nil => simp [Memory.dropAt] at h
  | cons y m =>
    obtain ⟨k, v⟩ := y
    by_cases hk : k = a
    · simp only [Memory.dropAt, hk, if_pos] at h; exact List.mem_cons_of_mem _ h
    · simpa [Memory.dropAt, hk] using h

theorem Memory.wf_dropAt (m : Memory) (a : Nat) (h : m.wf = true) : (m.dropAt a).wf = true := by
  cases m with
  | nil => simp [Memory.dropAt]
  | cons y m =>
    obtain ⟨k, v⟩ := y
    by_cases hk : k = a
    · simp only [Memory.dropAt, hk, if_pos]; exact ((Memory.wf_cons _ _).1 h).2.2
    · simpa [Memory.dropAt, hk] using h

theorem Memory.dropAt_gt (m : Memory) (a : Nat) (h : m.wf = true) (hm : ∀ x ∈ m, a ≤ x.1) :
    ∀ x ∈ m.dropAt a, a + 1 ≤ x.1 := by
  cases m with
  | nil => simp [Memory.dropAt]
  | cons y m =>
    obtain ⟨k, v⟩ := y
    have hc := (Memory.wf_cons _ _).1 h
    intro x hx
    by_cases hk : k = a
    · subst hk
      simp only [Memory.dropAt, if_pos] at hx
      exact hc.1 x hx
    · simp only [Memory.dropAt, hk, if_false] at hx
      have hka : a ≤ k := hm (k, v) (by simp)
      rcases List.mem_cons.1 hx with rfl | hx
      · simp; omega
      · have := hc.1 x hx; simp at this; omega

theorem Memory.overlay_wf (os : List (Option Byte)) : ∀ (a : Nat) (m : Memory), m.wf = true → (∀ x ∈ m, a ≤ x.1) →
    (Memory.overlay a os m).wf = true ∧ ∀ x ∈ Memory.overlay a os m, a ≤ x.1 := by
  induction os with
  | nil => intro a m h hm; exact ⟨h, hm⟩
  | cons o os ih =>
    intro a m h hm
    have ih' := ih (a + 1) (m.dropAt a) (Memory.wf_dropAt m a h) (Memory.dropAt_gt m a h hm)
    rw [Memory.overlay]
    cases hv : (keptWrite a o).or (m.headAt a) with
    | none => exact ⟨ih'.1, fun x hx => by have := ih'.2 x hx; omega⟩
    | some v =>
      refine ⟨(Memory.wf_cons _ _).2 ⟨fun y hy => ?_, ?_, ih'.1⟩, ?_⟩
      · have := ih'.2 y hy; simp; omega
      · show keptWrite a (some v) = some v
        cases hk : keptWrite a o with
        | some w =>
          rw [hk] at hv; simp at hv; subst hv
          exact keptWrite_idem a o w hk
        | none =>
          rw [hk] at hv; simp only [Option.none_or] at hv
          cases m with
          | nil => simp [Memory.headAt] at hv
          | cons y m =>
            obtain ⟨k, u⟩ := y
            by_cases hka : k = a
            · subst hka
              simp [Memory.headAt] at hv; subst hv
              exact ((Memory.wf_cons _ _).1 h).2.1
            · simp [Memory.headAt, hka] at hv
      · intro x hx
        rcases List.mem_cons.1 hx with rfl | hx
        · simp
        · have := ih'.2 x hx; omega

theorem Memory.wf_filter (m : Memory) (p : Host.Cell → Bool) (h : m.wf = true) : Memory.wf (m.filter p) = true := by
  rw [Memory.wf_iff] at *
  exact ⟨h.1.filter _, fun x hx => h.2 x (List.mem_filter.1 hx).1⟩

/-- Every write keeps the canonical form. -/
theorem Memory.write_wf (m : Memory) (base : Nat) (os : List (Option Byte)) (h : m.wf = true) :
    (m.write base os).wf = true := by
  have hhi := Memory.overlay_wf os base (m.filter fun x => decide (base ≤ x.1)) (Memory.wf_filter m _ h)
    (fun x hx => by simpa using (List.mem_filter.1 hx).2)
  have hlo := Memory.wf_filter m (fun x => decide (x.1 < base)) h
  rw [Memory.wf_iff] at hlo
  have h2 := (Memory.wf_iff _).1 hhi.1
  rw [Memory.write, Memory.wf_iff]
  refine ⟨List.pairwise_append.2 ⟨hlo.1, h2.1, fun x hx y hy => ?_⟩, fun x hx => ?_⟩
  · have h1 : x.1 < base := by simpa using (List.mem_filter.1 hx).2
    have := hhi.2 y hy; omega
  · rcases List.mem_append.1 hx with hx | hx
    · exact hlo.2 x hx
    · exact h2.2 x hx

@[simp] theorem State.writeBytes_wf (s : State) (base : Nat) (bs : List Byte) (h : s.mem.wf = true) :
    (s.writeBytes base bs).mem.wf = true := Memory.write_wf _ _ _ h

@[simp] theorem State.stamp_wf (s : State) (f : Nat → Nat → Option Byte) (h : s.mem.wf = true) :
    (s.stamp f).mem.wf = true := Memory.write_wf _ _ _ h

@[simp] theorem State.stampSymbol_wf (s : State) (f : Nat → Nat → Option Byte) (h : s.mem.wf = true) :
    (s.stampSymbol f).mem.wf = true := State.stamp_wf s _ h

theorem State.reset_wf : State.reset.mem.wf = true := by decide

end Sys2Proof.Machine
end

