-- ==== Sys2Proof/Laws/Matrix.lean ====
section
/-! SUPPORT. What stamping MAT does to every cell and every other byte, and what reading the symbol cells gives. -/

namespace Sys2Proof.Machine

/-- Entry `n * r + c` of rows of length `n` laid end to end. -/
theorem getElem?_flatMap_rows {α : Type} (f : Nat → Nat → α) (n : Nat) : ∀ (k r c : Nat), r < k → c < n →
    ((List.range k).flatMap fun r => (List.range n).map (f r))[n * r + c]? = some (f r c) := by
  intro k
  induction k with
  | zero => intro r c hr; omega
  | succ k ih =>
    intro r c hr hc
    have hlen : ((List.range k).flatMap fun r => (List.range n).map (f r)).length = n * k := by
      simp [List.length_flatMap, Nat.mul_comm]
    rw [List.range_succ, List.flatMap_append]
    by_cases h : r < k
    · have : n * r + c < n * k := by
        calc n * r + c < n * r + n := by omega
          _ = n * (r + 1) := by ring
          _ ≤ n * k := Nat.mul_le_mul_left n h
      rw [List.getElem?_append_left (by rw [hlen]; exact this)]
      exact ih r c h hc
    · obtain rfl : r = k := by omega
      rw [List.getElem?_append_right (by rw [hlen]; omega), hlen]
      simp [hc]

@[simp] theorem length_matWrites (f : Nat → Nat → Option Byte) : (matWrites f).length = 2624 := by
  simp [matWrites, List.length_flatMap, Config.matRows, Config.matCols]

theorem getD_matWrites (f : Nat → Nat → Option Byte) (r c : Nat) (hr : r < 41) (hc : c < 64) :
    (matWrites f).getD (64 * r + c) none = f r c := by
  have := getElem?_flatMap_rows f 64 41 r c hr hc
  simp only [matWrites, Config.matRows, Config.matCols, List.getD_eq_getElem?_getD, this, Option.getD_some]

theorem isMatAddr_iff (a : Nat) : isMatAddr a = true ↔ 0x1000 ≤ a ∧ a < 0x1A40 := by simp [isMatAddr]

theorem isMatAddr_matAddr (r c : Nat) (hr : r < 41) (hc : c < 64) : isMatAddr (matAddr r c) = true := by
  rw [isMatAddr_iff]; unfold matAddr matBase; omega

/-- Every MAT address is a cell's. -/
theorem exists_cell_of_isMatAddr (a : Nat) (h : isMatAddr a = true) : ∃ r c, r < 41 ∧ c < 64 ∧ a = matAddr r c := by
  rw [isMatAddr_iff] at h
  refine ⟨(a - 0x1000) / 64, (a - 0x1000) % 64, by omega, by omega, ?_⟩
  unfold matAddr matBase; omega

theorem keptWrite_mat (a : Nat) (h : isMatAddr a = true) (o : Option Byte) :
    keptWrite a o = o.map fun b => b &&& 3#8 := by
  have hf : (keptByte a) = fun b => b &&& 3#8 := by funext b; simp [keptByte, h]
  simp [keptWrite, isStorageAddr, h, hf]

/-- What a stamp leaves in a cell. -/
theorem State.cell_stamp (s : State) (f : Nat → Nat → Option Byte) (r c : Nat) (hr : r < 41) (hc : c < 64) :
    (s.stamp f).cell r c = ((f r c).map fun b => b &&& 3#8).getD (s.cell r c) := by
  unfold State.cell State.stamp
  rw [State.readByte_write, length_matWrites]
  have ha : matBase ≤ matAddr r c ∧ matAddr r c < matBase + 2624 := by unfold matAddr; omega
  have hd : matAddr r c - matBase = 64 * r + c := by unfold matAddr; omega
  rw [if_pos ha, hd, getD_matWrites f r c hr hc, keptWrite_mat _ (isMatAddr_matAddr r c hr hc)]

/-- A stamp leaves every byte outside MAT. -/
theorem State.readByte_stamp_of_not_mat (s : State) (f : Nat → Nat → Option Byte) (a : Nat) (h : isMatAddr a = false) :
    (s.stamp f).readByte a = s.readByte a := by
  unfold State.stamp
  rw [State.readByte_write, length_matWrites, if_neg]
  intro hc
  have := (isMatAddr_iff a).2 (by unfold matBase at hc; omega)
  simp [h] at this

/-- What a stamp of the symbol leaves in a cell. -/
theorem State.cell_stampSymbol (s : State) (f : Nat → Nat → Option Byte) (r c : Nat) (hr : r < 41) (hc : c < 64) :
    (s.stampSymbol f).cell r c =
      if r < s.size ∧ c < s.size then ((f r c).map fun b => b &&& 3#8).getD (s.cell r c) else s.cell r c := by
  rw [State.stampSymbol_eq, State.cell_stamp s _ r c hr hc]
  split <;> simp

theorem State.readByte_stampSymbol_of_not_mat (s : State) (f : Nat → Nat → Option Byte) (a : Nat)
    (h : isMatAddr a = false) : (s.stampSymbol f).readByte a = s.readByte a :=
  State.readByte_stamp_of_not_mat s _ a h

/-- A clear leaves 0 in every cell. -/
theorem State.cell_clearMat (s : State) (r c : Nat) (hr : r < 41) (hc : c < 64) : s.clearMat.cell r c = 0#8 := by
  rw [State.clearMat, State.cell_stamp s _ r c hr hc]; rfl

/-! ### Cell bytes -/

@[simp] theorem vBit_cellByte (v r : Bool) : vBit (cellByte v r) = v := by cases v <;> cases r <;> decide
@[simp] theorem rBit_cellByte (v r : Bool) : rBit (cellByte v r) = r := by cases v <;> cases r <;> decide
@[simp] theorem cellByte_and_three (v r : Bool) : cellByte v r &&& 3#8 = cellByte v r := by
  cases v <;> cases r <;> decide
@[simp] theorem setV_and_three (b : Byte) (v : Bool) : setV b v &&& 3#8 = setV b v := cellByte_and_three _ _
@[simp] theorem vBit_setV (b : Byte) (v : Bool) : vBit (setV b v) = v := vBit_cellByte _ _
@[simp] theorem rBit_setV (b : Byte) (v : Bool) : rBit (setV b v) = rBit b := rBit_cellByte _ _

theorem State.finish_stamp_cell (s : State) (f : Nat → Nat → Option Byte) (r c : Nat) :
    (s.stamp f).finish.cell r c = (s.stamp f).cell r c := rfl

/-! ### The symbol cells as rows -/

@[simp] theorem State.length_symCells (s : State) : s.symCells.length = s.size := by simp [State.symCells]

/-- Cell `(r, c)` of the symbol cells. -/
theorem State.symCells_at (s : State) (r c : Nat) (hr : r < s.size) (hc : c < s.size) :
    s.symCells.at r c = s.cell r c := by
  unfold Grid.at State.symCells State.cell
  simp [hr, hc, State.readBytes_eq, matAddr]

theorem State.row_length_of_symCells (s : State) (row : List Byte) (h : row ∈ s.symCells) : row.length = s.size := by
  simp only [State.symCells, List.mem_map] at h
  obtain ⟨r, -, rfl⟩ := h
  simp

end Sys2Proof.Machine
end

