-- ==== Sys2Proof/Laws/Complete.lean ====
section
/-! SUPPORT. Completion says once what every command can do (the effect's state with DONE, or one error and nothing
else), and what no effect of a command touches. -/

namespace Sys2Proof.Machine

@[simp] theorem complete_ok (t s : State) : complete (.ok t) s = .next t.finish := rfl
@[simp] theorem complete_error (e : CmdError) (s : State) : complete (.error e) s = .next (s.raise e) := rfl

/-- A completion always answers a next state, of one of two kinds. -/
theorem complete_cases (effect : Except CmdError State) (s : State) :
    (∃ t, effect = .ok t ∧ complete effect s = .next t.finish) ∨
    (∃ e, effect = .error e ∧ complete effect s = .next (s.raise e)) := by
  cases effect with
  | ok t => exact .inl ⟨t, rfl, rfl⟩
  | error e => exact .inr ⟨e, rfl, rfl⟩

/-- A sequence that succeeds has succeeded in its first part. -/
theorem bind_ok {α β : Type} {x : Except CmdError α} {f : α → Except CmdError β} {b : β} (h : (x >>= f) = .ok b) :
    ∃ a, x = .ok a ∧ f a = .ok b := by
  cases x with
  | ok a => exact ⟨a, rfl, h⟩
  | error e => cases h

theorem checkLevel_ok {ecl : BitVec 3} (h : ecl.toNat ≤ 3) : checkLevel ecl = .ok () := by simp [checkLevel, levelOk, h]
theorem checkLevel_error {ecl : BitVec 3} (h : 3 < ecl.toNat) : checkLevel ecl = .error .unsupportedLevel := by
  have : ¬ ecl.toNat ≤ 3 := by omega
  simp [checkLevel, levelOk, this]
theorem checkLevel_eq_ok {ecl : BitVec 3} {u : Unit} (h : checkLevel ecl = .ok u) : ecl.toNat ≤ 3 := by
  by_contra hc
  rw [checkLevel_error (by omega)] at h
  cases h
@[simp] theorem checkSequence_true : checkSequence true = .ok () := rfl
@[simp] theorem checkSequence_false : checkSequence false = .error .sequenceError := rfl

/-- The fields no command's effect touches: the engine, the pins and the model's counters. -/
structure Untouched (s t : State) : Prop where
  pend : t.pend = s.pend
  rstN : t.rstN = s.rstN
  host : t.host = s.host
  rsp : t.rsp = s.rsp
  wait : t.wait = s.wait
  latencies : t.latencies = s.latencies
  issues : t.issues = s.issues
  resets : t.resets = s.resets

theorem Untouched.refl (s : State) : Untouched s s := ⟨rfl, rfl, rfl, rfl, rfl, rfl, rfl, rfl⟩

theorem Untouched.trans {s t u : State} (h : Untouched s t) (k : Untouched t u) : Untouched s u :=
  ⟨k.1.trans h.1, k.2.trans h.2, k.3.trans h.3, k.4.trans h.4, k.5.trans h.5, k.6.trans h.6, k.7.trans h.7,
    k.8.trans h.8⟩

/-- What every effect keeps: the untouched fields, the canonical memory, a legal SYM. -/
structure Keeps (s t : State) : Prop where
  untouched : Untouched s t
  wf : s.mem.wf = true → t.mem.wf = true
  sym : SymLegal s → SymLegal t

theorem Keeps.refl (s : State) : Keeps s s := ⟨.refl s, id, id⟩

theorem Keeps.trans {s t u : State} (h : Keeps s t) (k : Keeps t u) : Keeps s u :=
  ⟨h.1.trans k.1, k.2 ∘ h.2, k.3 ∘ h.3⟩

/-! ### Each effect -/

theorem symLegal_startSymbol (s : State) (v e : Nat) (hv : 1 ≤ v ∧ v ≤ 6) (he : e ≤ 3) :
    SymLegal (s.startSymbol v e) := by
  have h1 : (s.startSymbol v e).ver = v := by
    show (BitVec.ofNat 3 v).toNat = v
    rw [BitVec.toNat_ofNat]; omega
  have h2 : (s.startSymbol v e).ecl = e := by
    show (BitVec.ofNat 3 e).toNat = e
    rw [BitVec.toNat_ofNat]; omega
  have h3 : (s.startSymbol v e).size = 17 + 4 * v := by
    show (BitVec.ofNat 8 (17 + 4 * v)).toNat = 17 + 4 * v
    rw [BitVec.toNat_ofNat]; omega
  unfold SymLegal
  rw [h1, h2, h3]
  exact ⟨hv, he, rfl⟩

theorem startSymbol_keeps (s : State) (v e : Nat) (hv : 1 ≤ v ∧ v ≤ 6) (he : e ≤ 3) : Keeps s (s.startSymbol v e) :=
  ⟨⟨rfl, rfl, rfl, rfl, rfl, rfl, rfl, rfl⟩, fun h => State.stamp_wf s _ h, fun _ => symLegal_startSymbol s v e hv he⟩

theorem cmdSetsym_keeps {ecl ver : BitVec 3} {s t : State} (h : cmdSetsym ecl ver s = .ok t) : Keeps s t := by
  obtain ⟨_, hl, h⟩ := bind_ok h
  obtain ⟨_, hv, h⟩ := bind_ok h
  cases h
  refine startSymbol_keeps s _ _ ?_ (checkLevel_eq_ok hl)
  by_contra hc
  have : versionOk ver = false := by
    simp only [versionOk, Bool.and_eq_false_iff, decide_eq_false_iff_not]
    omega
  simp [checkVersion, this] at hv

theorem smallestFit_mem {n e v : Nat} (h : smallestFit n e = some v) : 1 ≤ v ∧ v ≤ 6 := by
  have := List.mem_of_find?_eq_some h
  simp [versions] at this
  omega

theorem selectVersion_range {n e v : Nat} {fb : Bool} (h : selectVersion n e fb = .ok v) : 1 ≤ v ∧ v ≤ 6 := by
  unfold selectVersion at h
  split at h
  · cases h; exact smallestFit_mem ‹_›
  · split at h
    · cases h; omega
    · cases h

theorem cmdSelver_keeps {ecl : BitVec 3} {s t : State} (h : cmdSelver ecl s = .ok t) : Keeps s t := by
  obtain ⟨_, hl, h⟩ := bind_ok h
  obtain ⟨v, hv, h⟩ := bind_ok h
  cases h
  exact startSymbol_keeps s _ _ (selectVersion_range hv) (checkLevel_eq_ok hl)

theorem cmdPack_keeps {s t : State} (h : cmdPack s = .ok t) : Keeps s t := by
  obtain ⟨_, -, h⟩ := bind_ok h
  cases h
  exact ⟨⟨rfl, rfl, rfl, rfl, rfl, rfl, rfl, rfl⟩, fun h => State.writeBytes_wf s _ _ h, id⟩

theorem cmdRsgen_keeps {n : Byte} {s t : State} (h : cmdRsgen n s = .ok t) : Keeps s t := by
  cases h
  exact ⟨⟨rfl, rfl, rfl, rfl, rfl, rfl, rfl, rfl⟩, fun h => State.writeBytes_wf s _ _ h, id⟩

theorem cmdRsenc_keeps {l n : Byte} {s t : State} (h : cmdRsenc l n s = .ok t) : Keeps s t := by
  unfold cmdRsenc at h
  dsimp only at h
  split at h
  · cases h
  · cases h
    exact ⟨⟨rfl, rfl, rfl, rfl, rfl, rfl, rfl, rfl⟩,
      fun h => State.writeBytes_wf _ _ _ (State.writeBytes_wf s _ _ h), id⟩

theorem cmdEccil_keeps {s t : State} (h : cmdEccil s = .ok t) : Keeps s t := by
  cases h
  exact ⟨⟨rfl, rfl, rfl, rfl, rfl, rfl, rfl, rfl⟩, fun h => State.writeBytes_wf s _ _ h, id⟩

theorem stamp_keeps (s : State) (f : Nat → Nat → Option Byte) (m : MState) : Keeps s ((s.stampSymbol f).setMState m) :=
  ⟨⟨rfl, rfl, rfl, rfl, rfl, rfl, rfl, rfl⟩, fun h => State.stampSymbol_wf s _ h, id⟩

theorem cmdMclear_keeps {s t : State} (h : cmdMclear s = .ok t) : Keeps s t := by
  cases h
  exact ⟨⟨rfl, rfl, rfl, rfl, rfl, rfl, rfl, rfl⟩, fun h => State.stamp_wf s _ h, id⟩

theorem cmdStfind_keeps {s t : State} (h : cmdStfind s = .ok t) : Keeps s t := by
  obtain ⟨_, -, h⟩ := bind_ok h; cases h; exact stamp_keeps s _ _

theorem cmdStalign_keeps {s t : State} (h : cmdStalign s = .ok t) : Keeps s t := by
  obtain ⟨_, -, h⟩ := bind_ok h; cases h; exact stamp_keeps s _ _

theorem cmdSttime_keeps {s t : State} (h : cmdSttime s = .ok t) : Keeps s t := by
  obtain ⟨_, -, h⟩ := bind_ok h; cases h; exact stamp_keeps s _ _

theorem cmdRsvfmt_keeps {s t : State} (h : cmdRsvfmt s = .ok t) : Keeps s t := by
  obtain ⟨_, -, h⟩ := bind_ok h; cases h; exact stamp_keeps s _ _

theorem cmdPlace_keeps {s t : State} (h : cmdPlace s = .ok t) : Keeps s t := by
  obtain ⟨_, -, h⟩ := bind_ok h
  cases h
  exact (stamp_keeps s _ .data).trans ⟨⟨rfl, rfl, rfl, rfl, rfl, rfl, rfl, rfl⟩, id, id⟩

theorem cmdMapply_keeps {k : BitVec 3} {s t : State} (h : cmdMapply k s = .ok t) : Keeps s t := by
  unfold cmdMapply at h
  dsimp only at h
  split at h
  · cases h
    exact (stamp_keeps s _ .masked).trans ⟨⟨rfl, rfl, rfl, rfl, rfl, rfl, rfl, rfl⟩, id, id⟩
  · split at h
    · cases h
      exact (stamp_keeps s _ .data).trans ⟨⟨rfl, rfl, rfl, rfl, rfl, rfl, rfl, rfl⟩, id, id⟩
    · cases h

theorem select_keeps (s : State) (k : BitVec 3) (v : Vector (BitVec 16) 8) (r0 r1 : Word) :
    Keeps s { s with scores := v, sym := { s.sym with mask := k }, result0 := r0, result1 := r1 } :=
  ⟨⟨rfl, rfl, rfl, rfl, rfl, rfl, rfl, rfl⟩, id, id⟩

theorem cmdMasksel_keeps {s t : State} (h : cmdMasksel s = .ok t) : Keeps s t := by
  obtain ⟨_, -, h⟩ := bind_ok h
  cases h
  exact (stamp_keeps s _ .masked).trans (select_keeps _ _ _ _ _)

theorem cmdFmtwr_keeps {s t : State} (h : cmdFmtwr s = .ok t) : Keeps s t := by
  obtain ⟨_, -, h⟩ := bind_ok h
  cases h
  exact (stamp_keeps s _ .final).trans ⟨⟨rfl, rfl, rfl, rfl, rfl, rfl, rfl, rfl⟩, id, id⟩

theorem generateSteps_keeps {ecl : BitVec 3} {s t : State} (h : generateSteps ecl s = .ok t) : Keeps s t := by
  obtain ⟨_, h1, h⟩ := bind_ok h
  obtain ⟨_, h2, h⟩ := bind_ok h
  obtain ⟨_, h3, h⟩ := bind_ok h
  obtain ⟨_, h4, h⟩ := bind_ok h
  obtain ⟨_, h5, h⟩ := bind_ok h
  obtain ⟨_, h6, h⟩ := bind_ok h
  obtain ⟨_, h7, h⟩ := bind_ok h
  obtain ⟨_, h8, h⟩ := bind_ok h
  obtain ⟨_, h9, h⟩ := bind_ok h
  exact (cmdSelver_keeps h1).trans <| (cmdPack_keeps h2).trans <| (cmdEccil_keeps h3).trans <|
    (cmdStfind_keeps h4).trans <| (cmdStalign_keeps h5).trans <| (cmdSttime_keeps h6).trans <|
    (cmdRsvfmt_keeps h7).trans <| (cmdPlace_keeps h8).trans <| (cmdMasksel_keeps h9).trans <| cmdFmtwr_keeps h

theorem cmdGenerate_keeps {ecl : BitVec 3} {s t : State} (h : cmdGenerate ecl s = .ok t) : Keeps s t := by
  obtain ⟨_, -, h⟩ := bind_ok h
  obtain ⟨_, -, h⟩ := bind_ok h
  obtain ⟨u, hu, h⟩ := bind_ok h
  cases h
  exact (generateSteps_keeps hu).trans ⟨⟨rfl, rfl, rfl, rfl, rfl, rfl, rfl, rfl⟩, id, id⟩

theorem result_keeps (s : State) (w : Word) : Keeps s { s with result0 := w } :=
  ⟨⟨rfl, rfl, rfl, rfl, rfl, rfl, rfl, rfl⟩, id, id⟩

theorem cmdGflog_keeps {a : Byte} {s t : State} (h : cmdGflog a s = .ok t) : Keeps s t := by
  unfold cmdGflog at h
  split at h
  · cases h; exact result_keeps s _
  · cases h

theorem cmdFmtenc_keeps {e k : BitVec 3} {s t : State} (h : cmdFmtenc e k s = .ok t) : Keeps s t := by
  obtain ⟨_, -, h⟩ := bind_ok h; cases h; exact result_keeps s _

theorem cmdSrst_keeps {s t : State} (h : cmdSrst s = .ok t) : Keeps s t := by
  cases h
  exact ⟨⟨rfl, rfl, rfl, rfl, rfl, rfl, rfl, rfl⟩, id,
    fun _ => (by decide : SymLegal State.reset)⟩

end Sys2Proof.Machine
end

