-- ==== Sys2Proof/Laws/Encoding.lean ====
section
/-! SUPPORT. The bits of the four formats, and that each operand field of an encoded word reads as the operand. -/

namespace Sys2Proof

/-- Bit `i` of a word of format F. -/
theorem formatF_getLsbD (b a o : BitVec 8) (i : Nat) : (formatF b a o).getLsbD i =
    if i < 8 then o.getLsbD i else if i - 8 < 8 then (0#8).getLsbD (i - 8)
    else if i - 8 - 8 < 8 then a.getLsbD (i - 8 - 8) else b.getLsbD (i - 8 - 8 - 8) := by
  unfold formatF
  rw [BitVec.getLsbD_append, BitVec.getLsbD_append, BitVec.getLsbD_append]

/-- Bit `i` of a word of format P. -/
theorem formatP_getLsbD (p : BitVec 15) (o : BitVec 8) (i : Nat) : (formatP p o).getLsbD i =
    if i < 8 then o.getLsbD i else if i - 8 < 8 then (0#8).getLsbD (i - 8)
    else if i - 8 - 8 < 15 then p.getLsbD (i - 8 - 8) else (0#1).getLsbD (i - 8 - 8 - 15) := by
  unfold formatP
  rw [BitVec.getLsbD_append, BitVec.getLsbD_append, BitVec.getLsbD_append]

/-- Bit `i` of a word of format S. -/
theorem formatS_getLsbD (v e : BitVec 3) (o : BitVec 8) (i : Nat) : (formatS v e o).getLsbD i =
    if i < 8 then o.getLsbD i else if i - 8 < 3 then e.getLsbD (i - 8)
    else if i - 8 - 3 < 1 then (0#1).getLsbD (i - 8 - 3)
    else if i - 8 - 3 - 1 < 3 then v.getLsbD (i - 8 - 3 - 1) else (0#17).getLsbD (i - 8 - 3 - 1 - 3) := by
  unfold formatS
  rw [BitVec.getLsbD_append, BitVec.getLsbD_append, BitVec.getLsbD_append, BitVec.getLsbD_append]

@[simp] theorem opcField_formatN (o : BitVec 8) : opcField (formatN o) = o := by
  apply BitVec.eq_of_getLsbD_eq; intro i hi
  rw [opcField, BitVec.getLsbD_extractLsb', formatN, BitVec.getLsbD_append]; simp [hi]

@[simp] theorem opcField_formatF (b a o : BitVec 8) : opcField (formatF b a o) = o := by
  apply BitVec.eq_of_getLsbD_eq; intro i hi
  rw [opcField, BitVec.getLsbD_extractLsb', formatF_getLsbD]; simp [hi]

@[simp] theorem aField_formatF (b a o : BitVec 8) : aField (formatF b a o) = a := by
  apply BitVec.eq_of_getLsbD_eq; intro i hi
  rw [aField, BitVec.getLsbD_extractLsb', formatF_getLsbD]
  interval_cases i <;> simp

@[simp] theorem bField_formatF (b a o : BitVec 8) : bField (formatF b a o) = b := by
  apply BitVec.eq_of_getLsbD_eq; intro i hi
  rw [bField, BitVec.getLsbD_extractLsb', formatF_getLsbD]
  interval_cases i <;> simp

@[simp] theorem opcField_formatP (p : BitVec 15) (o : BitVec 8) : opcField (formatP p o) = o := by
  apply BitVec.eq_of_getLsbD_eq; intro i hi
  rw [opcField, BitVec.getLsbD_extractLsb', formatP_getLsbD]; simp [hi]

@[simp] theorem pField_formatP (p : BitVec 15) (o : BitVec 8) : pField (formatP p o) = p := by
  apply BitVec.eq_of_getLsbD_eq; intro i hi
  rw [pField, BitVec.getLsbD_extractLsb', formatP_getLsbD]
  interval_cases i <;> simp

@[simp] theorem opcField_formatS (v e : BitVec 3) (o : BitVec 8) : opcField (formatS v e o) = o := by
  apply BitVec.eq_of_getLsbD_eq; intro i hi
  rw [opcField, BitVec.getLsbD_extractLsb', formatS_getLsbD]; simp [hi]

@[simp] theorem eclField_formatS (v e : BitVec 3) (o : BitVec 8) : eclField (formatS v e o) = e := by
  apply BitVec.eq_of_getLsbD_eq; intro i hi
  rw [eclField, BitVec.getLsbD_extractLsb', formatS_getLsbD]
  interval_cases i <;> simp

@[simp] theorem vmField_formatS (v e : BitVec 3) (o : BitVec 8) : vmField (formatS v e o) = v := by
  apply BitVec.eq_of_getLsbD_eq; intro i hi
  rw [vmField, BitVec.getLsbD_extractLsb', formatS_getLsbD]
  interval_cases i <;> simp

end Sys2Proof
end

