-- ==== Sys2Proof/Laws/PerInstr.lean ====
section
/-! SUPPORT. Facts about every command as syntax, one lemma a constructor. -/

namespace Sys2Proof.Laws.OpcodeRow

/-- Row `k` of the opcode map is the command's: the encoding has the row's opcode and fixed bits, and the row's operand
assembly reads the command back from it. -/
def HasRow (k : Nat) (i : Instr) : Prop :=
  ∃ row, opcodeMap[k]? = some row ∧ row.opc = opcField (encode i) ∧ encode i &&& row.mask = row.pattern ∧
    row.operands (encode i) = i

/-- Some row of the opcode map is the command's (30_encoding R151, R153, R160). -/
def Statement (i : Instr) : Prop := ∃ k, HasRow k i

theorem nop : Statement .nop := ⟨0, _, rfl, by decide, by decide, rfl⟩

theorem srst : Statement .srst := ⟨1, _, rfl, by decide, by decide, rfl⟩

theorem gfclmul (a b : BitVec 8) : Statement (.gfclmul a b) := by
  refine ⟨2, _, rfl, by simp [encode], ?_, by simp [encode]⟩
  apply BitVec.eq_of_getLsbD_eq; intro i hi
  rw [BitVec.getLsbD_and, encode, formatF_getLsbD]
  interval_cases i <;> simp

theorem gfred (p : BitVec 15) : Statement (.gfred p) := by
  refine ⟨3, _, rfl, by simp [encode], ?_, by simp [encode]⟩
  apply BitVec.eq_of_getLsbD_eq; intro i hi
  rw [BitVec.getLsbD_and, encode, formatP_getLsbD]
  interval_cases i <;> simp

theorem gfmul (a b : BitVec 8) : Statement (.gfmul a b) := by
  refine ⟨4, _, rfl, by simp [encode], ?_, by simp [encode]⟩
  apply BitVec.eq_of_getLsbD_eq; intro i hi
  rw [BitVec.getLsbD_and, encode, formatF_getLsbD]
  interval_cases i <;> simp

theorem gfexp (n : BitVec 8) : Statement (.gfexp n) := by
  refine ⟨5, _, rfl, by simp [encode], ?_, by simp [encode]⟩
  apply BitVec.eq_of_getLsbD_eq; intro i hi
  rw [BitVec.getLsbD_and, encode, formatF_getLsbD]
  interval_cases i <;> simp

theorem gflog (a : BitVec 8) : Statement (.gflog a) := by
  refine ⟨6, _, rfl, by simp [encode], ?_, by simp [encode]⟩
  apply BitVec.eq_of_getLsbD_eq; intro i hi
  rw [BitVec.getLsbD_and, encode, formatF_getLsbD]
  interval_cases i <;> simp

theorem rsgen (nsym : BitVec 8) : Statement (.rsgen nsym) := by
  refine ⟨7, _, rfl, by simp [encode], ?_, by simp [encode]⟩
  apply BitVec.eq_of_getLsbD_eq; intro i hi
  rw [BitVec.getLsbD_and, encode, formatF_getLsbD]
  interval_cases i <;> simp

theorem rsenc (len nsym : BitVec 8) : Statement (.rsenc len nsym) := by
  refine ⟨8, _, rfl, by simp [encode], ?_, by simp [encode]⟩
  apply BitVec.eq_of_getLsbD_eq; intro i hi
  rw [BitVec.getLsbD_and, encode, formatF_getLsbD]
  interval_cases i <;> simp

theorem eccil : Statement .eccil := ⟨9, _, rfl, by decide, by decide, rfl⟩

theorem setsym (ecl ver : BitVec 3) : Statement (.setsym ecl ver) := by
  refine ⟨10, _, rfl, by simp [encode], ?_, by simp [encode]⟩
  apply BitVec.eq_of_getLsbD_eq; intro i hi
  rw [BitVec.getLsbD_and, encode, formatS_getLsbD]
  interval_cases i <;> simp

theorem selver (ecl : BitVec 3) : Statement (.selver ecl) := by
  refine ⟨11, _, rfl, by simp [encode], ?_, by simp [encode]⟩
  apply BitVec.eq_of_getLsbD_eq; intro i hi
  rw [BitVec.getLsbD_and, encode, formatS_getLsbD]
  interval_cases i <;> simp

theorem pack : Statement .pack := ⟨12, _, rfl, by decide, by decide, rfl⟩

theorem mclear : Statement .mclear := ⟨13, _, rfl, by decide, by decide, rfl⟩

theorem stfind : Statement .stfind := ⟨14, _, rfl, by decide, by decide, rfl⟩

theorem stalign : Statement .stalign := ⟨15, _, rfl, by decide, by decide, rfl⟩

theorem sttime : Statement .sttime := ⟨16, _, rfl, by decide, by decide, rfl⟩

theorem rsvfmt : Statement .rsvfmt := ⟨17, _, rfl, by decide, by decide, rfl⟩

theorem place : Statement .place := ⟨18, _, rfl, by decide, by decide, rfl⟩

theorem mapply (mask : BitVec 3) : Statement (.mapply mask) := by
  refine ⟨19, _, rfl, by simp [encode], ?_, by simp [encode]⟩
  apply BitVec.eq_of_getLsbD_eq; intro i hi
  rw [BitVec.getLsbD_and, encode, formatS_getLsbD]
  interval_cases i <;> simp

theorem mscore : Statement .mscore := ⟨20, _, rfl, by decide, by decide, rfl⟩

theorem masksel : Statement .masksel := ⟨21, _, rfl, by decide, by decide, rfl⟩

theorem fmtenc (ecl mask : BitVec 3) : Statement (.fmtenc ecl mask) := by
  refine ⟨22, _, rfl, by simp [encode], ?_, by simp [encode]⟩
  apply BitVec.eq_of_getLsbD_eq; intro i hi
  rw [BitVec.getLsbD_and, encode, formatS_getLsbD]
  interval_cases i <;> simp

theorem fmtwr : Statement .fmtwr := ⟨23, _, rfl, by decide, by decide, rfl⟩

theorem generate (ecl : BitVec 3) : Statement (.generate ecl) := by
  refine ⟨24, _, rfl, by simp [encode], ?_, by simp [encode]⟩
  apply BitVec.eq_of_getLsbD_eq; intro i hi
  rw [BitVec.getLsbD_and, encode, formatS_getLsbD]
  interval_cases i <;> simp

end Sys2Proof.Laws.OpcodeRow
end

