-- ==== Sys2Proof/Laws/Step.lean ====
section
/-! SUPPORT. What one step can do when no completion is due, and runs taken apart step by step. -/

namespace Sys2Proof.Machine

/-- No completion is due without a pending command. -/
theorem State.due_of_pend_none {s : State} (h : s.pend = none) : s.due = none := by simp [State.due, h]

/-- No completion is due while reset is asserted. -/
theorem State.due_of_reset {s : State} (h : s.rstN = false) : s.due = none := by simp [State.due, h]

/-- No completion is due while a latency is left. -/
theorem State.due_of_wait {s : State} (h : s.wait ≠ 0) : s.due = none := by simp [State.due, h]

/-- A completion that is due is of the pending word, with reset released and no latency left. -/
theorem State.due_some {s : State} {w : Word} (h : s.due = some w) : s.rstN = true ∧ s.wait = 0 ∧ s.pend = some w := by
  unfold State.due at h
  split at h
  · rename_i hc
    exact ⟨hc.1, hc.2, h⟩
  · cases h

/-- A step with no completion due and an event waiting serves that event. -/
theorem step_serve {s : State} {e : HostEvent} {es : List HostEvent} (hd : s.due = none) (hh : s.host = e :: es) :
    step s = .next ({ s with wait := s.wait - 1, host := es }.serve e) := by
  unfold step
  rw [hd]
  unfold State.hostTurn
  rw [hh]
  rfl

/-- A step with no completion due and no event waiting only brings the completion nearer. -/
theorem step_idle {s : State} (hd : s.due = none) (hh : s.host = []) : step s = .next s.tick := by
  unfold step
  rw [hd]
  unfold State.hostTurn
  rw [hh]

/-- A run of one step more begins with that step. -/
theorem core_run_succ {s t : State} (k : Nat) (h : step s = .next t) : core.run (k + 1) s = core.run k t := by
  have h' : core.step s = .next t := h
  simp only [Host.Core.run, h']

end Sys2Proof.Machine
end

