-- ==== Sys2Proof/Tests/Slice0.lean ====
section
/-! SUPPORT. Tests: WellFormed, decoding of words of the spec, single steps against the vectors of 95_test_vectors, and
a witness for the hypotheses of each statement. -/

namespace Sys2Proof.Tests

open Sys2Proof.Machine Sys2Proof.Claims

/-! ### WellFormed: one ill-formed term for each check (30_encoding R154, 42_reed_solomon R305, 41_galois_field R275) -/

theorem test_wf_gflog_zero : Instr.wellFormed (.gflog 0#8) = false := by decide
theorem test_wf_rsenc_too_long : Instr.wellFormed (.rsenc 250#8 10#8) = false := by decide
theorem test_wf_rsenc_limit : Instr.wellFormed (.rsenc 246#8 10#8) = true := by decide
theorem test_wf_setsym_level : Instr.wellFormed (.setsym 4#3 1#3) = false := by decide
theorem test_wf_setsym_version_zero : Instr.wellFormed (.setsym 1#3 0#3) = false := by decide
theorem test_wf_setsym_version_seven : Instr.wellFormed (.setsym 1#3 7#3) = false := by decide
theorem test_wf_selver_level : Instr.wellFormed (.selver 7#3) = false := by decide
theorem test_wf_fmtenc_level : Instr.wellFormed (.fmtenc 5#3 0#3) = false := by decide
theorem test_wf_generate_level : Instr.wellFormed (.generate 4#3) = false := by decide

/-! ### Decoding: words from the tables of 95_test_vectors and 30_encoding R160 -/

theorem test_decode_nop : decode 0x00000000#32 = .ok .nop := by decide
theorem test_decode_srst : decode 0x00000001#32 = .ok .srst := by decide
theorem test_decode_gfclmul : decode 0xCA530010#32 = .ok (.gfclmul 0x53#8 0xCA#8) := by decide
theorem test_decode_gfred : decode 0x3F7E0011#32 = .ok (.gfred 0x3F7E#15) := by decide
theorem test_decode_gfmul : decode 0x8E020012#32 = .ok (.gfmul 0x02#8 0x8E#8) := by decide
theorem test_decode_gfexp : decode 0x00190013#32 = .ok (.gfexp 25#8) := by decide
theorem test_decode_gflog : decode 0x00530014#32 = .ok (.gflog 0x53#8) := by decide
theorem test_decode_rsgen : decode 0x07000020#32 = .ok (.rsgen 7#8) := by decide
theorem test_decode_rsenc : decode 0x0A100021#32 = .ok (.rsenc 16#8 10#8) := by decide
theorem test_decode_eccil : decode 0x00000022#32 = .ok .eccil := by decide
theorem test_decode_setsym : decode 0x00006330#32 = .ok (.setsym 3#3 6#3) := by decide
theorem test_decode_selver : decode 0x00000131#32 = .ok (.selver 1#3) := by decide
theorem test_decode_pack : decode 0x00000032#32 = .ok .pack := by decide
theorem test_decode_mclear : decode 0x00000040#32 = .ok .mclear := by decide
theorem test_decode_stfind : decode 0x00000041#32 = .ok .stfind := by decide
theorem test_decode_stalign : decode 0x00000042#32 = .ok .stalign := by decide
theorem test_decode_sttime : decode 0x00000043#32 = .ok .sttime := by decide
theorem test_decode_rsvfmt : decode 0x00000044#32 = .ok .rsvfmt := by decide
theorem test_decode_place : decode 0x00000045#32 = .ok .place := by decide
theorem test_decode_mapply : decode 0x00005050#32 = .ok (.mapply 5#3) := by decide
theorem test_decode_mscore : decode 0x00000051#32 = .ok .mscore := by decide
theorem test_decode_masksel : decode 0x00000052#32 = .ok .masksel := by decide
theorem test_decode_fmtenc : decode 0x00007360#32 = .ok (.fmtenc 3#3 7#3) := by decide
theorem test_decode_fmtwr : decode 0x00000061#32 = .ok .fmtwr := by decide
theorem test_decode_generate : decode 0x00000170#32 = .ok (.generate 1#3) := by decide

/-- Unused operand fields and must-be-zero bits (30_encoding R171, 95_test_vectors 2.1). -/
theorem test_decode_reserved_bits :
    ([0x80000011#32, 0x01000013#32, 0x00000110#32, 0x00001131#32, 0x00000850#32, 0x00008060#32].map decode) =
      List.replicate 6 (.error .reservedBits) := by decide

/-- Unassigned opcodes, the ends of their ranges (30_encoding R171). -/
theorem test_decode_unassigned :
    ([0x02#32, 0x0F#32, 0x15#32, 0x1F#32, 0x23#32, 0x2F#32, 0x33#32, 0x3F#32, 0x46#32, 0x4F#32, 0x53#32, 0x5F#32,
      0x62#32, 0x6F#32, 0x71#32, 0xFF#32].map decode) = List.replicate 16 (.error .unassignedOpcode) := by decide

/-- The table's numbering is the word itself. -/
theorem test_decode_table_word : decodeTableWord 32 0x00002130 = some (.setsym 1#3 2#3) := by decide

/-! ### Single steps -/

/-- The reset state with the given MSTATE, level, version and payload length. -/
def stateIn (m : MState) (ecl ver : BitVec 3) (plen : BitVec 8) : State :=
  { State.reset with
    status := { Status.reset with mstate := m }
    sym := ⟨ver, ecl, 0#3, BitVec.ofNat 8 (17 + 4 * ver.toNat)⟩
    plen := plen }

/-- What one step with the completion of word `w` due in `s` leaves, seen through `f`. -/
def after {α : Type} (s : State) (w : Nat) (f : State → α) : Option α :=
  match step (s.withFetchWord 32 w) with
  | .next t => some (f t)
  | .fault _ => none
  | .refused _ => none

/-- RESULT0 and STATUS. -/
def resultAndStatus (s : State) : Word × Word := (s.result0, s.statusWord)

theorem test_nop_status : after .reset 0x00 State.statusWord = some 0xF2#32 := by decide
theorem test_srst_clears : after { State.reset with plen := 7#8, result0 := 5#32 } 0x01 (fun t => (t.plen, t.result0)) =
    some (0#8, 0#32) := by decide
theorem test_gfclmul : after .reset 0xCA530010 State.result0 = some 0x3F7E#32 := by decide
theorem test_gfclmul_highest : after .reset 0x80800010 State.result0 = some 0x4000#32 := by decide
theorem test_gfred : after .reset 0x3F7E0011 State.result0 = some 0x8F#32 := by decide
theorem test_gfred_largest : after .reset 0x7FFF0011 State.result0 = some 0x1D#32 := by decide
theorem test_gfmul : after .reset 0xCA530012 resultAndStatus = some (0x8F#32, 0xF2#32) := by decide
theorem test_gfexp_wraps : after .reset 0x00FF0013 State.result0 = some 1#32 := by decide +kernel
theorem test_gfexp_first_reduction : after .reset 0x00080013 State.result0 = some 0x1D#32 := by decide +kernel
theorem test_gflog : after .reset 0x00530014 State.result0 = some 206#32 := by decide +kernel
theorem test_gflog_zero : after { State.reset with result0 := 9#32 } 0x00000014 resultAndStatus =
    some (9#32, 0x6F6#32) := by decide +kernel
theorem test_rsgen : after .reset 0x07000020 (fun t => t.readBytes 0x500 8) =
    some [0x01#8, 0x7F#8, 0x7A#8, 0x9A#8, 0xA4#8, 0x0B#8, 0x44#8, 0x75#8] := by decide +kernel
theorem test_rsenc : after (State.reset.writeBytes 0x400 [0x12#8, 0x34#8, 0x56#8]) 0x04030021
    (fun t => t.readBytes 0x403 4) = some [0x37#8, 0xE6#8, 0x78#8, 0xD9#8] := by decide +kernel
theorem test_rsenc_too_long : after .reset 0x0AFA0021 State.statusWord = some 0x5F6#32 := by decide
theorem test_eccil : after ((stateIn .empty 1#3 1#3 0#8).writeBytes 0x200 [0x40#8, 0x00#8, 0xEC#8, 0x11#8, 0xEC#8,
    0x11#8, 0xEC#8, 0x11#8, 0xEC#8, 0x11#8, 0xEC#8, 0x11#8, 0xEC#8, 0x11#8, 0xEC#8, 0x11#8]) 0x22
    (fun t => (t.result0, t.readBytes 0x310 10)) = some (26#32, [0x08#8, 0xB1#8, 0xA5#8, 0x39#8, 0x52#8, 0x62#8, 0x38#8,
      0x3B#8, 0x9F#8, 0x34#8]) := by decide +kernel
theorem test_setsym : after .reset 0x00002130 (fun t => (t.sym.toWord, t.result1, t.statusWord)) =
    some (0x00190012#32, 28#32, 0x02#32) := by decide
theorem test_setsym_level_first : after .reset 0x00000530 State.statusWord = some 0x2F6#32 := by decide
theorem test_selver : after (stateIn .uninit 1#3 1#3 15#8) 0x131 (fun t => (t.sym.toWord, t.result1)) =
    some (0x00190012#32, 28#32) := by decide
theorem test_selver_too_large : after (stateIn .uninit 1#3 1#3 107#8) 0x131 State.statusWord = some 0x1F6#32 := by
  decide
theorem test_pack : after ((stateIn .empty 2#3 1#3 5#8).writeBytes 0x100 [0x48#8, 0x45#8, 0x4C#8, 0x4C#8, 0x4F#8]) 0x32
    (fun t => t.readBytes 0x200 13) = some [0x40#8, 0x54#8, 0x84#8, 0x54#8, 0xC4#8, 0xC4#8, 0xF0#8, 0xEC#8, 0x11#8,
      0xEC#8, 0x11#8, 0xEC#8, 0x11#8] := by decide
theorem test_pack_too_large : after (stateIn .empty 1#3 1#3 15#8) 0x32 State.statusWord = some 0x106#32 := by decide
theorem test_mclear : after .reset 0x40 State.statusWord = some 0x02#32 := by decide
theorem test_stfind : after (stateIn .empty 1#3 6#3 0#8) 0x41
    (fun t => (t.cell 0 40, t.cell 7 33, t.cell 36 3)) = some (3#8, 2#8, 3#8) := by decide +kernel
theorem test_stfind_uninit : after .reset 0x41 State.statusWord = some 0x7F6#32 := by decide
theorem test_stalign : after (stateIn .finder 1#3 2#3 0#8) 0x42
    (fun t => (t.cell 18 18, t.cell 17 17, t.cell 16 20)) = some (3#8, 2#8, 3#8) := by decide +kernel
theorem test_sttime_finder_v2 : after (stateIn .finder 1#3 2#3 0#8) 0x43 State.statusWord = some 0x716#32 := by decide
theorem test_rsvfmt : after (stateIn .timing 1#3 1#3 0#8) 0x44
    (fun t => (t.cell 8 0, t.cell 8 20, t.cell 20 8, t.cell 13 8)) = some (2#8, 2#8, 2#8, 2#8) := by decide +kernel
theorem test_place_timing : after (stateIn .timing 1#3 1#3 0#8) 0x45 State.statusWord = some 0x736#32 := by decide
theorem test_mapply_empty : after (stateIn .empty 1#3 1#3 0#8) 0x5050 State.statusWord = some 0x706#32 := by decide
theorem test_masksel_masked : after (stateIn .masked 1#3 1#3 0#8) 0x52 State.statusWord = some 0x766#32 := by decide
theorem test_fmtenc : after .reset 0x360 State.result0 = some 0x1689#32 := by decide
theorem test_fmtenc_level : after .reset 0x460 State.statusWord = some 0x2F6#32 := by decide
theorem test_fmtwr_data : after (stateIn .data 1#3 1#3 0#8) 0x61 State.statusWord = some 0x756#32 := by decide
theorem test_generate_too_large : after { stateIn .data 1#3 1#3 107#8 with cfg := ⟨true, false⟩ } 0x170
    State.statusWord = some 0x156#32 := by decide
/-- What the host is answered and one field, after one step that serves an access. -/
def served {α : Type} (s : State) (e : HostEvent) (f : State → α) : Option (Option BusResp × α) :=
  match step { s with host := [e] } with
  | .next t => some (t.rsp, f t)
  | .fault _ => none
  | .refused _ => none

theorem test_bus_cfg_keeps_two_bits : served .reset (wordAccess 0x00C#13 true 0xFFFFFFFF#32) (fun t => t.cfg.toWord) =
    some (some .ack, 3#32) := by decide
theorem test_bus_plen_keeps_a_byte : served .reset (wordAccess 0x014#13 true 0x1FF#32) State.plen =
    some (some .ack, 0xFF#8) := by decide
theorem test_bus_narrow : served .reset (.access ⟨0x100#13, true, 1#32, 1#4⟩) State.mem = some (some .busErr, []) := by
  decide
theorem test_bus_past_mat : served .reset (wordAccess 0x1A40#13 false 0#32) State.mem = some (some .busErr, []) := by
  decide
theorem test_bus_mat_keeps_two_bits : served .reset (wordAccess 0x1000#13 true 0xFFFF0703#32) (fun t => t.readWord 0x1000) =
    some (some .ack, 0x03030303#32) := by decide
theorem test_bus_busy_mat_read :
    served { State.reset with pend := some 0#32, wait := 2 } (wordAccess 0x1000#13 false 0#32) State.mem =
      some (some .busErr, []) := by decide
theorem test_bus_issue : served .reset (wordAccess 0x004#13 true 0x131#32) (fun t => (t.pend, t.statusWord)) =
    some (some .ack, some 0x131#32, 0xF1#32) := by decide
theorem test_illegal_command : after .reset 0x80000011 State.statusWord = some 0x4F6#32 := by decide

/-! ### Witnesses: states and operands that meet all hypotheses of a statement, at the ends of the ranges of its clauses -/

/-- The reset state with word `w` issued, its latency passed. -/
def dueIn (s : State) (w : Word) : State :=
  { s with cmd := w, pend := some w, status := s.status.onIssue }

/-- The reset state with the given host events to come. -/
def hostIn (es : List HostEvent) : State := { State.reset with host := es }

/-- A busy state with `n` events to go. -/
def busyIn (n : Nat) (es : List HostEvent) : State := { dueIn State.reset 0x131#32 with wait := n, host := es }

theorem witness_EncodeOfDecode : decode 0xCA530012#32 = .ok (.gfmul 0x53#8 0xCA#8) := by decide

/-- A word of the first row and the last, and one of no row. -/
theorem witness_DecodeFollowsOpcodeMap :
    ("NOP", 0x00000000#32, 0xFFFFFFFF#32) ∈ opcodeRows ∧ 0x00000000#32 &&& 0xFFFFFFFF#32 = 0x00000000#32 ∧
    ("GENERATE", 0x00000070#32, 0xFFFFF8FF#32) ∈ opcodeRows ∧ 0x00000770#32 &&& 0xFFFFF8FF#32 = 0x00000070#32 ∧
    ∀ p ∈ opcodeRows, 0x00000002#32 &&& p.2.2 ≠ p.2.1 := by decide

theorem witness_StepRunsDecodedCommand : let s := dueIn .reset 0xCA530012#32
    s.rstN = true ∧ s.pend = some 0xCA530012#32 ∧ s.wait = 0 ∧
      decode 0xCA530012#32 = .ok (.gfmul 0x53#8 0xCA#8) := by decide

theorem witness_StepRaisesIllegalCommand : let s := dueIn .reset 0x02#32
    s.rstN = true ∧ s.pend = some 0x02#32 ∧ s.wait = 0 ∧ decode 0x02#32 = .error .unassignedOpcode := by decide

/-- A pending NOP, and its completion. -/
theorem witness_StepKeepsInvariant : Inv (dueIn .reset 0#32) ∧ ∃ t, step (dueIn .reset 0#32) = .next t :=
  ⟨by refine ⟨by decide, by decide, ⟨?_, by decide⟩, by decide⟩; intro w hw; cases hw; decide, _, rfl⟩

theorem witness_StepKeepsScoreBound :
    SymLegal (hostIn [.idle]) ∧ ScoresBounded (hostIn [.idle]) ∧ ∃ t, step (hostIn [.idle]) = .next t :=
  ⟨by decide, by decide, _, rfl⟩

theorem witness_FailedCommandChangesOnlyStatus : (dueIn .reset 0x02#32).due = some 0x02#32 ∧
    ∃ t, step (dueIn .reset 0x02#32) = .next t ∧ t.status.errCode = some .illegalCommand := ⟨by decide, _, rfl, rfl⟩

theorem witness_CommandRaisesFirstError : (dueIn .reset 0x02#32).due = some 0x02#32 ∧
    (dueIn .reset 0x470#32).due = some 0x470#32 := by decide

theorem witness_CompletionSetsDoneAndIrq : (dueIn .reset 0#32).due = some 0#32 := by decide

/-- A zero operand, and the exponents 1 and 254. -/
theorem witness_FieldProductAddsExponents :
    ((0#8 = 0#8 ∨ 5#8 = 0#8) ∧ (2#8).toNat = expOf 1 ∧ (0x8E#8).toNat = expOf 254) := by decide +kernel

theorem witness_DiscreteLogarithm : (1#8 ≠ 0#8 ∧ 255#8 ≠ 0#8) ∧ 0#8 = (0#8 : Byte) := by decide

/-- The longest blocks, and one byte more. -/
theorem witness_ParityMakesCodeword : (246#8).toNat + (10#8).toNat ≤ 256 ∧ (1#8).toNat + (255#8).toNat ≤ 256 ∧
    9 < (10#8).toNat ∧ 256 < (2#8).toNat + (255#8).toNat := by decide

/-- 5-Q: the last byte of the last block, and its last root. -/
theorem witness_InterleavedStream : let s := stateIn .empty 2#3 5#3 0#8
    SymLegal s ∧ 3 < (blockLengths s.ver s.ecl).length ∧ 15 < (blockLengths s.ver s.ecl).getD 3 0 ∧
      17 < ecPerBlock s.ver s.ecl := by decide

theorem witness_BlockTableAddsUp : 6 ∈ [1, 2, 3, 4, 5, 6] ∧ 3 ∈ [0, 1, 2, 3] := by decide

theorem witness_SetSymbolSelects : ((3#3).toNat ≤ 3 ∧ 1 ≤ (6#3).toNat ∧ (6#3).toNat ≤ 6) ∧ 1 ≤ (1#3).toNat ∧
    3 < (4#3).toNat ∧ (0#3 = 0#3 ∨ 0#3 = 7#3) ∧ (7#3 = 0#3 ∨ 7#3 = 7#3) := by decide

/-- Level M: 14 bytes at version 1, 15 at version 2, 106 at version 6, and 107 with FALLBACK 1 and 0; and level 4. -/
theorem witness_SmallestFittingVersionIsSelected :
    SmallestVersion (stateIn .uninit 1#3 1#3 14#8).plen.toNat 1 1 ∧ SmallestVersion 15 1 2 ∧ SmallestVersion 106 1 6 ∧
    (let s := { stateIn .uninit 1#3 1#3 107#8 with cfg := ⟨true, false⟩ }
     dcap 6 1 < s.plen.toNat + 2 ∧ s.cfg.fallback = true) ∧
    (let s := stateIn .uninit 1#3 1#3 107#8
     dcap 6 1 < s.plen.toNat + 2 ∧ s.cfg.fallback = false) ∧ (1#3).toNat = 1 ∧ 3 < (4#3).toNat := by
  refine ⟨⟨by decide, by decide, ?_⟩, ⟨by decide, by decide, ?_⟩, ⟨by decide, by decide, ?_⟩, by decide, by decide,
    by decide, by decide⟩ <;>
    (intro u h1 h2; interval_cases u <;> decide)

/-- 1-M: the longest payload that fits, and the first that does not. -/
theorem witness_PackedCodewordsClosedForm :
    (let s := stateIn .empty 1#3 1#3 14#8
     s.plen.toNat + 2 ≤ dcap s.ver s.ecl ∧ 15 < dcap s.ver s.ecl) ∧
    (let s := stateIn .empty 1#3 1#3 15#8
     dcap s.ver s.ecl < s.plen.toNat + 2) := by decide

/-- A state in which no command with a sequence precondition is accepted: the last clause of each of those statements. -/
theorem witness_sequence_clauses : SymLegal State.reset ∧ State.reset.status.mstate ≠ .empty ∧
    State.reset.status.mstate ≠ .finder ∧
    ¬ (State.reset.status.mstate = .align ∨ (State.reset.status.mstate = .finder ∧ State.reset.ver = 1)) ∧
    State.reset.status.mstate ≠ .timing ∧ State.reset.status.mstate ≠ .fmtrsv ∧ State.reset.status.mstate ≠ .data ∧
    State.reset.status.mstate ≠ .masked := by decide

/-- STTIME's last clause in FINDER at version 2. -/
theorem witness_TimingPatternsStamped_finder : let s := stateIn .finder 1#3 2#3 0#8
    SymLegal s ∧ ¬ (s.status.mstate = .align ∨ (s.status.mstate = .finder ∧ s.ver = 1)) := by decide

/-- The inner cell of each of the three corners at version 6. -/
theorem witness_FinderPatternsStamped : let s := stateIn .empty 1#3 6#3 0#8
    SymLegal s ∧ s.status.mstate = .empty ∧ InCorner s.size 7 7 ∧ InCorner s.size 7 33 ∧ InCorner s.size 33 7 := by
  unfold InCorner; decide

/-- The corners of the pattern at version 2. -/
theorem witness_AlignmentPatternStamped : let s := stateIn .finder 1#3 2#3 0#8
    SymLegal s ∧ s.status.mstate = .finder ∧ 2 ≤ s.ver ∧ s.size - 9 ≤ 16 ∧ 20 ≤ s.size - 5 := by decide

/-- ALIGN, and FINDER at version 1; cells (6, 20) and (20, 6) not reserved. -/
theorem witness_TimingPatternsStamped :
    (let s := (stateIn .align 1#3 1#3 0#8).clearMat
     SymLegal s ∧ s.status.mstate = .align ∧ 20 < s.size ∧ rAt s 6 20 = false ∧ rAt s 20 6 = false) ∧
    (let s := stateIn .finder 1#3 1#3 0#8
     SymLegal s ∧ s.status.mstate = .finder ∧ s.ver = 1) := by decide +kernel

/-- The ends of the two runs in row 8 and in column 8, and the dark module. -/
theorem witness_FormatAreaReserved : let s := stateIn .timing 1#3 1#3 0#8
    SymLegal s ∧ s.status.mstate = .timing ∧ InFormat s.size 8 0 ∧ InFormat s.size 8 20 ∧ InFormat s.size 0 8 ∧
      InFormat s.size 13 8 := by unfold InFormat; decide

/-- The first and the last cell placed in an empty matrix. -/
theorem witness_DataPlacedInZigzagOrder : let s := (stateIn .fmtrsv 1#3 1#3 0#8).clearMat
    SymLegal s ∧ s.status.mstate = .fmtrsv ∧ InSymbol s 20 20 ∧ placeable s 20 20 = true ∧ InSymbol s 20 0 ∧
      placeable s 20 0 = true := by unfold InSymbol; decide +kernel

theorem witness_MaskAppliesAndRemoves :
    (SymLegal (stateIn .data 1#3 1#3 0#8) ∧ (stateIn .data 1#3 1#3 0#8).status.mstate = .data) ∧
    (let s := { stateIn .masked 3#3 6#3 0#8 with sym := ⟨6#3, 3#3, 7#3, 41#8⟩ }
     SymLegal s ∧ s.status.mstate = .masked ∧ 7#3 = s.sym.mask ∧
      ¬ (s.status.mstate = .data ∨ (s.status.mstate = .masked ∧ 6#3 = s.sym.mask))) := by decide

theorem witness_MaskTwiceRestores : let s := stateIn .data 1#3 1#3 0#8
    SymLegal s ∧ s.mem.wf = true ∧ s.status.mstate = .data := by decide

theorem witness_ScoreOfMatrix : SymLegal State.reset ∧ SymLegal (stateIn .empty 3#3 6#3 0#8) := by decide

theorem witness_BestMaskIsLowestOfLowest : let s := stateIn .data 1#3 1#3 0#8
    SymLegal s ∧ s.status.mstate = .data := by decide

theorem witness_FormatWordIsBchWord : (3#3).toNat ≤ 3 ∧ (0#3).toNat ≤ 3 ∧ 3 < (4#3).toNat := by decide

theorem witness_FormatWordsFarApart : 0 < 32 ∧ 31 < 32 ∧ 0 ≠ 31 := by decide

theorem witness_FormatWrittenTwice : let s := stateIn .masked 1#3 1#3 0#8
    SymLegal s ∧ s.status.mstate = .masked ∧ InFormat s.size 13 8 ∧ InFormat s.size 8 20 := by unfold InFormat; decide

/-- GENERATE at level M: an empty payload, the largest that fits and the first that does not; and level 4. -/
theorem witness_GenerateCompletes : (1#3).toNat ≤ 3 ∧ SmallestVersion State.reset.plen.toNat 1 1 ∧
    SmallestVersion (stateIn .data 1#3 1#3 106#8).plen.toNat 1 6 ∧
    dcap 6 1 < (stateIn .data 1#3 1#3 107#8).plen.toNat + 2 ∧ 3 < (4#3).toNat := by
  refine ⟨by decide, ⟨by decide, by decide, ?_⟩, ⟨by decide, by decide, ?_⟩, by decide, by decide⟩ <;>
    (intro u h1 h2; interval_cases u <;> decide)

theorem witness_GenerateEqualsEncode : (3#3).toNat ≤ 3 ∧ SmallestVersion (stateIn .data 1#3 1#3 58#8).plen.toNat 3 6 := by
  refine ⟨by decide, ⟨by decide, by decide, ?_⟩⟩; intro u h1 h2; interval_cases u <;> decide

/-- The inner cells of the corners of the smallest symbol. -/
theorem witness_GeneratedSymbolHasFindersAndDarkModule : (0#3).toNat ≤ 3 ∧ SmallestVersion State.reset.plen.toNat 0 1 ∧
    InCorner 21 7 7 ∧ InCorner 21 7 13 ∧ InCorner 21 13 7 := by
  refine ⟨by decide, ⟨by decide, by decide, ?_⟩, by unfold InCorner; decide⟩; intro u h1 h2; omega

/-- Two states that differ in everything but the payload: one byte of it, and the same one. -/
theorem witness_GenerateDependsOnPayloadAlone :
    let s := (stateIn .data 1#3 1#3 1#8).writeBytes 0x100 [0x41#8]
    let s' := (stateIn .uninit 3#3 4#3 1#8).writeBytes 0x100 [0x41#8, 0x42#8]
    (1#3).toNat ≤ 3 ∧ SmallestVersion s.plen.toNat 1 1 ∧ s'.plen = s.plen ∧
      ∀ i, i < s.plen.toNat → s'.readByte (0x100 + i) = s.readByte (0x100 + i) := by
  refine ⟨by decide, ⟨by decide, by decide, ?_⟩, by decide, ?_⟩
  · intro u h1 h2; omega
  · intro i hi
    have : i = 0 := by
      have h : i < 1 := hi
      omega
    subst this; decide

/-- A rejected access for each reason, and a served one on each side of the borders of the map. -/
theorem witness_RejectedAccessesHaveNoEffect :
    (let s := hostIn [wordAccess 0x040#13 false 0#32]
     s.rstN = true ∧ s.due = none ∧ Rejected ⟨0x040#13, false, 0#32, 0xF#4⟩ s.busy) ∧
    Rejected ⟨0x1A40#13, false, 0#32, 0xF#4⟩ false ∧ Rejected ⟨0x100#13, true, 0#32, 1#4⟩ false ∧
    Rejected ⟨0x102#13, false, 0#32, 0xF#4⟩ false ∧
    (let s := busyIn 1 [wordAccess 0x014#13 true 0#32]
     s.rstN = true ∧ s.due = none ∧ Rejected ⟨0x014#13, true, 0#32, 0xF#4⟩ s.busy) ∧
    ¬ Rejected ⟨0x03C#13, false, 0#32, 0xF#4⟩ true ∧ ¬ Rejected ⟨0x5FC#13, true, 0#32, 0xF#4⟩ false ∧
    ¬ Rejected ⟨0x1A3C#13, false, 0#32, 0xF#4⟩ false := by
  refine ⟨?_, ?_, ?_, ?_, ?_, ?_, ?_, ?_⟩ <;> unfold Rejected Mapped <;> decide

theorem witness_RegisterReadsAnswerTheRegister : let s := busyIn 1 [wordAccess 0x03C#13 false 0#32]
    s.rstN = true ∧ s.due = none ∧ s.host = [wordAccess 0x03C#13 false 0#32] ∧ (0x03C#13).toNat < 0x40 ∧
      (0x03C#13).toNat % 4 = 0 := by decide

theorem witness_CommandWriteIssues :
    let s := { hostIn [wordAccess 0x004#13 true 0x131#32] with latencies := [4] }
    s.rstN = true ∧ s.pend = none ∧ s.host = [wordAccess 0x004#13 true 0x131#32] ∧ s.latencies = [4] := by decide

theorem witness_CommandWriteWhileBusyIsDropped : let s := busyIn 1 [wordAccess 0x004#13 true 0#32]
    s.rstN = true ∧ s.pend = some 0x131#32 ∧ s.wait ≠ 0 ∧ s.host = [wordAccess 0x004#13 true 0#32] := by decide

theorem witness_StatusWriteClearsFlags : let s := busyIn 1 [wordAccess 0x008#13 true 0xA#32]
    s.rstN = true ∧ s.due = none ∧ s.host = [wordAccess 0x008#13 true 0xA#32] := by decide

/-- CFG and PLEN while not busy, the last read-only register while busy, and the first. -/
theorem witness_RegisterWritesStoreWritableBits :
    (let s := hostIn [wordAccess 0x00C#13 true 3#32]
     s.rstN = true ∧ s.due = none ∧ s.pend = none ∧ s.host = [wordAccess 0x00C#13 true 3#32] ∧
      (0x00C#13).toNat < 0x40 ∧ (0x00C#13).toNat % 4 = 0) ∧
    (let s := hostIn [wordAccess 0x014#13 true 3#32]
     s.rstN = true ∧ s.due = none ∧ s.pend = none ∧ s.host = [wordAccess 0x014#13 true 3#32] ∧
      (0x014#13).toNat < 0x40 ∧ (0x014#13).toNat % 4 = 0) ∧
    (let s := busyIn 1 [wordAccess 0x03C#13 true 3#32]
     s.rstN = true ∧ s.due = none ∧ s.pend = some 0x131#32 ∧ s.host = [wordAccess 0x03C#13 true 3#32] ∧
      (0x03C#13).toNat < 0x40 ∧ (0x03C#13).toNat % 4 = 0 ∧ 0x03C#13 ≠ 0x004#13 ∧ 0x03C#13 ≠ 0x008#13 ∧
      0x03C#13 ≠ 0x00C#13 ∧ 0x03C#13 ≠ 0x014#13) ∧
    ((0x000#13).toNat % 4 = 0 ∧ 0x000#13 ≠ 0x004#13 ∧ 0x000#13 ≠ 0x008#13 ∧ 0x000#13 ≠ 0x00C#13 ∧
      0x000#13 ≠ 0x014#13) := by decide

/-- The first and last word of the buffers and of MAT. -/
theorem witness_StorageWordsAreLittleEndian :
    (let s := hostIn [wordAccess 0x5FC#13 true 1#32]
     s.rstN = true ∧ s.pend = none ∧ s.host = [wordAccess 0x5FC#13 true 1#32] ∧
      (0x5FC#13).toNat % 4 = 0 ∧ 0x100 ≤ (0x5FC#13).toNat ∧ (0x5FC#13).toNat < 0x600) ∧
    (let s := hostIn [wordAccess 0x1A3C#13 false 0#32]
     s.rstN = true ∧ s.pend = none ∧ s.host = [wordAccess 0x1A3C#13 false 0#32] ∧
      (0x1A3C#13).toNat % 4 = 0 ∧ InMat (0x1A3C#13).toNat ∧ s.mem.wf = true ∧ 0x1000 ≤ (0x1A3C#13).toNat) ∧
    ((0x100#13).toNat % 4 = 0 ∧ 0x100 ≤ (0x100#13).toNat ∧ InMat (0x1000#13).toNat) := by unfold InMat; decide

theorem witness_HardwareResetLoadsResetValues : let s := busyIn 1 [.resetAssert]
    s.rstN = true ∧ s.due = none ∧ s.host = [.resetAssert] := by decide

theorem witness_BusyCommandCompletes : let s := busyIn 2 [wordAccess 0x008#13 false 0#32, .idle, .resetAssert]
    s.pend = some 0x131#32 ∧ s.rstN = true ∧ ∀ e ∈ s.host.take s.wait, e ≠ .resetAssert := by decide

/-- The block in reset before each kind of event, and a released block before a release. -/
theorem witness_AssertedResetAnswersNoAccess :
    (let s := { hostIn [wordAccess 0x004#13 true 0x131#32] with rstN := false }
     s.rstN = false ∧ s.host = [wordAccess 0x004#13 true 0x131#32]) ∧
    (let s := { hostIn [.idle] with rstN := false }
     s.rstN = false ∧ s.host = [.idle]) ∧
    (let s := { hostIn [.resetAssert] with rstN := false }
     s.rstN = false ∧ s.host = [.resetAssert]) ∧
    (let s := { hostIn [.resetRelease] with rstN := false }
     s.rstN = false ∧ s.host = [.resetRelease]) ∧
    (let s := busyIn 1 [.resetRelease]
     s.rstN = true ∧ s.due = none ∧ s.host = [.resetRelease]) := by decide

/-- A busy block, an access during reset, and an access after it. -/
theorem witness_ReleasedBlockHoldsResetValues :
    let during := [wordAccess 0x004#13 true 0x131#32, .resetAssert]
    let rest := [wordAccess 0x008#13 false 0#32]
    let s := busyIn 1 (.resetAssert :: (during ++ .resetRelease :: rest))
    s.rstN = true ∧ s.due = none ∧ s.host = .resetAssert :: (during ++ .resetRelease :: rest) ∧
      ∀ e ∈ during, e ≠ .resetRelease := by decide

/-- A busy block before an idle turn, and a block whose host does nothing more. -/
theorem witness_IdleTurnChangesNothing :
    (let s := busyIn 1 [.idle]
     s.due = none ∧ s.host = [.idle]) ∧
    (State.reset.due = none ∧ State.reset.host = []) := by decide

/-- `irq` is high with DONE and IE, and falls when the host clears DONE or IE (10_state R44). -/
theorem test_irq_falls :
    let s := { State.reset with status := { Status.reset with done := true }, cfg := ⟨false, true⟩ }
    s.irq = true ∧ served s (wordAccess 0x008#13 true 2#32) State.irq = some (some .ack, false) ∧
      served s (wordAccess 0x00C#13 true 1#32) State.irq = some (some .ack, false) := by decide

end Sys2Proof.Tests
end

