-- ==== Sys2Proof/Proofs/Registers.lean ====
section
/-! What the host reads from the registers, and the reset values (10_state R50). -/

namespace Sys2Proof.Machine

/-- A register is served in every state, busy or not (20_memory R110). -/
theorem State.busRead_register (s : State) {off : Nat} (h : off < 0x40) : s.busRead off = .data (s.readReg off) := by
  simp [State.busRead, isRegAddr, h]

theorem State.map_busRead_registers (s : State) :
    ((List.range 16).map fun k => s.busRead (4 * k)) =
      ((List.range 16).map fun k => s.readReg (4 * k)).map BusResp.data := by
  rw [List.map_map]
  refine List.map_congr_left fun k hk => s.busRead_register ?_
  have := List.mem_range.mp hk
  omega

/-- The sixteen register words in address order (20_memory R102). -/
theorem State.map_readReg_registers (s : State) :
    ((List.range 16).map fun k => s.readReg (4 * k)) =
      [Config.idValue, s.cmd, s.statusWord, s.cfg.toWord, s.sym.toWord, s.plen.setWidth 32, s.result0, s.result1,
        s.scores[0].setWidth 32, s.scores[1].setWidth 32, s.scores[2].setWidth 32, s.scores[3].setWidth 32,
        s.scores[4].setWidth 32, s.scores[5].setWidth 32, s.scores[6].setWidth 32, s.scores[7].setWidth 32] := rfl

@[simp] theorem Status.reset_toWord : Status.reset.toWord false = 0xF0#32 := by decide

@[simp] theorem Cfg.reset_toWord : Cfg.reset.toWord = 0#32 := by decide

@[simp] theorem Sym.reset_toWord : Sym.reset.toWord = 0x00150011#32 := by decide

/-- Settles O54: the sixteen reads are served, and each register's word is that of its reset value. -/
theorem registersReadResetValues : Obligations.RegistersReadResetValues := by
  unfold Obligations.RegistersReadResetValues
  refine ⟨?_, rfl, rfl⟩
  rw [State.map_busRead_registers, State.map_readReg_registers]
  simp [State.reset, State.statusWord, State.busy, scoresReset, Config.idValue]

end Sys2Proof.Machine
end

