-- ==== Sys2Proof/Proofs/Storage.lean ====
section
/-! Words of the buffers and of MAT on the bus: which access is served, and how a word lies in the bytes (20_memory
R107). -/

namespace Sys2Proof.Machine
open Sys2Proof.Claims

/-! ### The access -/

/-- With reset released, an aligned word write is served and answered (20_memory R125). -/
theorem State.serve_wordAccess_write {s : State} {addr : BitVec 13} (w : Word) (hr : s.rstN = true)
    (ha : addr.toNat % 4 = 0) : s.serve (wordAccess addr true w) =
      { (s.busWrite addr.toNat w).1 with rsp := some (s.busWrite addr.toNat w).2 } := by
  simp [State.serve, wordAccess, State.serveAccess, State.busAccess, hr, ha]

/-- With reset released, an aligned word read changes the answer alone (20_memory R110). -/
theorem State.serve_wordAccess_read {s : State} {addr : BitVec 13} (w : Word) (hr : s.rstN = true)
    (ha : addr.toNat % 4 = 0) : s.serve (wordAccess addr false w) =
      { s with rsp := some (s.busRead addr.toNat) } := by
  simp [State.serve, wordAccess, State.serveAccess, State.busAccess, hr, ha]

theorem isStorageAddr_iff (a : Nat) : isStorageAddr a = true ↔ (0x100 ≤ a ∧ a < 0x600) ∨ InMat a := by
  simp [isStorageAddr, isBufferAddr, isMatAddr, InMat]

/-- No offset is both a register's and a byte of storage (20_memory R101). -/
theorem isRegAddr_of_isStorageAddr {a : Nat} (h : isStorageAddr a = true) : isRegAddr a = false := by
  rw [isStorageAddr_iff, InMat] at h
  exact decide_eq_false (by omega)

theorem State.busWrite_storage {s : State} {off : Nat} (w : Word) (ho : isStorageAddr off = true)
    (hp : s.pend = none) : s.busWrite off w = (s.writeWord off w, .ack) := by
  simp [State.busWrite, isRegAddr_of_isStorageAddr ho, ho, State.busy, hp]

theorem State.busRead_storage {s : State} {off : Nat} (ho : isStorageAddr off = true) (hp : s.pend = none) :
    s.busRead off = .data (s.readWord off) := by
  simp [State.busRead, isRegAddr_of_isStorageAddr ho, ho, State.busy, hp]

/-- The regions of storage begin and end at multiples of four, so an aligned word lies in storage whole. -/
theorem isStorageAddr_word {a i : Nat} (ha : a % 4 = 0) (h : (0x100 ≤ a ∧ a < 0x600) ∨ InMat a) (hi : i < 4) :
    isStorageAddr (a + i) = true := by
  rw [isStorageAddr_iff]
  unfold InMat at *
  omega

/-- A word of MAT lies in MAT whole, and of a word of a buffer no byte is in MAT. -/
theorem isMatAddr_word {a i : Nat} (ha : a % 4 = 0) (h : (0x100 ≤ a ∧ a < 0x600) ∨ InMat a) (hi : i < 4) :
    isMatAddr (a + i) = decide (0x1000 ≤ a) := by
  unfold InMat at h
  rw [Bool.eq_iff_iff, isMatAddr_iff, decide_eq_true_iff]
  omega

/-! ### The bytes of a word -/

/-- A stored word puts its byte `a - o` at each address `a` of storage in its range, and no other byte changes. -/
theorem State.readByte_writeWord (s : State) (o : Nat) (w : Word) (a : Nat) :
    (s.writeWord o w).readByte a =
      if o ≤ a ∧ a < o + 4 ∧ isStorageAddr a = true then keptByte a (w.extractLsb' (8 * (a - o)) 8)
      else s.readByte a := by
  rw [State.writeWord, State.readByte_writeBytes]
  simp only [List.length_cons, List.length_nil, Nat.zero_add, Nat.reduceAdd]
  refine ite_congr rfl (fun h => congrArg (keptByte a) ?_) fun _ => rfl
  obtain ⟨i, rfl⟩ := Nat.exists_eq_add_of_le h.1
  have hi : i < 4 := by omega
  rw [Nat.add_sub_cancel_left]
  interval_cases i <;> rfl

/-- A byte of `x ++ b` above `b` is the byte of `x` eight bits lower. -/
theorem extractLsb'_append_byte {v k : Nat} (x : BitVec v) (b : Byte) :
    (x ++ b).extractLsb' (k + 8) 8 = x.extractLsb' k 8 := by
  rw [BitVec.extractLsb'_append_eq_of_le (by omega), Nat.add_sub_cancel]

/-- Byte `i` of a word read is the byte at the word's offset plus `i`. -/
theorem State.extractLsb'_readWord (s : State) (o : Nat) {i : Nat} (hi : i < 4) :
    (s.readWord o).extractLsb' (8 * i) 8 = s.readByte (o + i) := by
  match i, hi with
  | 0, _ => exact BitVec.extractLsb'_append_eq_right
  | 1, _ => exact (extractLsb'_append_byte _ _).trans BitVec.extractLsb'_append_eq_right
  | 2, _ =>
    exact ((extractLsb'_append_byte _ _).trans (extractLsb'_append_byte _ _)).trans BitVec.extractLsb'_append_eq_right
  | 3, _ =>
    exact ((extractLsb'_append_byte _ _).trans (extractLsb'_append_byte _ _)).trans BitVec.extractLsb'_append_eq_left

/-! ### MAT holds two bits a byte -/

theorem Memory.mem_of_find {m : Memory} {a : Nat} {b : Byte} (h : m.find a = some b) : (a, b) ∈ m := by
  obtain ⟨x, hx, rfl⟩ := Option.map_eq_some_iff.mp h
  obtain rfl : x.1 = a := by simpa using List.find?_some hx
  exact List.mem_of_find?_eq_some hx

/-- In a canonical memory every byte of MAT reads with bits 7:2 zero, written or not (10_state R46). -/
theorem State.readByte_mat_and_three {s : State} {a : Nat} (hm : s.mem.wf = true) (ha : isMatAddr a = true) :
    s.readByte a &&& 3#8 = s.readByte a := by
  rw [State.readByte_of_find]
  cases hf : s.mem.find a with
  | none => simp [keptByte, ha, BitVec.and_assoc]
  | some b =>
    have hk := ((Memory.wf_iff _).mp hm).2 _ (Memory.mem_of_find hf)
    rw [keptWrite_mat a ha] at hk
    simpa using hk

theorem and_mask_of_and_three {b : Byte} (h : b &&& 3#8 = b) : b &&& 0xFC#8 = 0#8 := by
  rw [← h, BitVec.and_assoc]
  simp

/-- A word of four bytes of MAT has bits 7:2 of each zero. -/
theorem State.readWord_and_mask {s : State} {o : Nat}
    (h : ∀ i, i < 4 → s.readByte (o + i) &&& 3#8 = s.readByte (o + i)) :
    s.readWord o &&& 0xFCFCFCFC#32 = 0#32 := by
  have hb : ∀ i, i < 4 → s.readByte (o + i) &&& 0xFC#8 = 0#8 := fun i hi => and_mask_of_and_three (h i hi)
  calc s.readWord o &&& 0xFCFCFCFC#32
      = (s.readByte (o + 3) ++ s.readByte (o + 2) ++ s.readByte (o + 1) ++ s.readByte (o + 0)) &&&
          (0xFC#8 ++ 0xFC#8 ++ 0xFC#8 ++ 0xFC#8) := rfl
    _ = 0#8 ++ 0#8 ++ 0#8 ++ 0#8 := by
      simp only [BitVec.and_append, hb 3 (by omega), hb 2 (by omega), hb 1 (by omega), hb 0 (by omega)]
    _ = 0#32 := rfl

/-! ### The two directions -/

theorem step_storage_write {s : State} {addr : BitVec 13} {w : Word} {rest : List HostEvent} (hr : s.rstN = true)
    (hp : s.pend = none) (ha : addr.toNat % 4 = 0) (ho : isStorageAddr addr.toNat = true)
    (hh : s.host = wordAccess addr true w :: rest) :
    step s = .next { (turn s rest).writeWord addr.toNat w with rsp := some .ack } := by
  have hserve := State.serve_wordAccess_write (s := turn s rest) w hr ha
  rw [State.busWrite_storage (s := turn s rest) w ho hp] at hserve
  exact (step_serve (State.due_of_pend_none hp) hh).trans (congrArg _ hserve)

theorem step_storage_read {s : State} {addr : BitVec 13} {w : Word} {rest : List HostEvent} (hr : s.rstN = true)
    (hp : s.pend = none) (ha : addr.toNat % 4 = 0) (ho : isStorageAddr addr.toNat = true)
    (hh : s.host = wordAccess addr false w :: rest) :
    step s = .next { turn s rest with rsp := some (.data (s.readWord addr.toNat)) } := by
  have hserve := State.serve_wordAccess_read (s := turn s rest) w hr ha
  rw [State.busRead_storage (s := turn s rest) ho hp] at hserve
  exact (step_serve (State.due_of_pend_none hp) hh).trans (congrArg _ hserve)

/-- Settles O52: an aligned word lies whole in a buffer or in MAT, so the write reaches its four bytes and no other, and
the read answers them; in a canonical memory MAT holds nothing in bits 7:2. -/
theorem storageWordsAreLittleEndian : Obligations.StorageWordsAreLittleEndian := by
  unfold Obligations.StorageWordsAreLittleEndian
  intro s addr w rest hr hp ha hregion
  have ho : ∀ i, i < 4 → isStorageAddr (addr.toNat + i) = true := fun i => isStorageAddr_word ha hregion
  have hmat : ∀ i, i < 4 → isMatAddr (addr.toNat + i) = decide (0x1000 ≤ addr.toNat) := fun i =>
    isMatAddr_word ha hregion
  have hbyte := (turn s rest).readByte_writeWord addr.toNat w
  have ho0 : isStorageAddr addr.toNat = true := ho 0 (by omega)
  refine ⟨fun hh => ⟨_, step_storage_write hr hp ha ho0 hh, rfl, ?kept, ?stored⟩,
    fun hh => ⟨s.readWord addr.toNat, step_storage_read hr hp ha ho0 hh, ?answered, ?clear⟩⟩
  case kept =>
    intro a hna
    exact (hbyte a).trans (if_neg fun ⟨hlo, hhi, _⟩ => hna ⟨hlo, hhi⟩)
  case stored =>
    intro i hi
    refine (hbyte _).trans ?_
    rw [if_pos ⟨by omega, by omega, ho i hi⟩, Nat.add_sub_cancel_left, keptByte, hmat i hi]
    simp only [decide_eq_true_eq]
  case answered =>
    exact fun i hi => s.extractLsb'_readWord _ hi
  case clear =>
    intro hm hlo
    exact State.readWord_and_mask fun i hi =>
      State.readByte_mat_and_three hm ((hmat i hi).trans (decide_eq_true hlo))

end Sys2Proof.Machine
end

