-- ==== Sys2Proof/Proofs/OpcodeMap.lean ====
section
/-! Which words decode: the rows of the opcode map, told apart by opcode and by mnemonic (30_encoding R160). -/

namespace Sys2Proof
open Sys2Proof.Claims

/-! ### The rows -/

/-- The row's fixed bits have the values the row gives them (30_encoding R171). -/
def OpcodeRow.Matches (row : OpcodeRow) (w : Word) : Prop := w &&& row.mask = row.pattern

/-- The mnemonic of a row, read off the command it assembles from the zero word. -/
def OpcodeRow.name (row : OpcodeRow) : String := mnemonic (row.operands 0#32)

/-- The operands do not change which command a row assembles. -/
theorem OpcodeRow.mnemonic_operands {row : OpcodeRow} (h : row ∈ opcodeMap) (w : Word) :
    mnemonic (row.operands w) = row.name := by
  revert row
  simp only [opcodeMap, List.forall_mem_cons, OpcodeRow.name, mnemonic, true_and]
  exact List.forall_mem_nil _

/-- The rows of the statement are the rows `decode` searches, in the same order. -/
theorem opcodeRows_eq_map_opcodeMap :
    opcodeRows = opcodeMap.map fun row => (row.name, row.pattern, row.mask) := rfl

theorem OpcodeRow.eq_of_opc_eq {row row' : OpcodeRow} (h : row ∈ opcodeMap) (h' : row' ∈ opcodeMap)
    (ho : row.opc = row'.opc) : row = row' :=
  List.inj_on_of_nodup_map (f := OpcodeRow.opc) (by decide) h h' ho

theorem OpcodeRow.eq_of_name_eq {row row' : OpcodeRow} (h : row ∈ opcodeMap) (h' : row' ∈ opcodeMap)
    (hn : row.name = row'.name) : row = row' :=
  List.inj_on_of_nodup_map (f := OpcodeRow.name) (by decide) h h' hn

/-! ### The opcode is among a row's fixed bits -/

theorem OpcodeRow.opcField_mask_pattern :
    ∀ row ∈ opcodeMap, opcField row.mask = BitVec.allOnes 8 ∧ opcField row.pattern = row.opc := by decide

theorem OpcodeRow.Matches.opcField_eq {row : OpcodeRow} {w : Word} (hm : row.Matches w) (h : row ∈ opcodeMap) :
    opcField w = row.opc := by
  obtain ⟨hmask, hpattern⟩ := OpcodeRow.opcField_mask_pattern row h
  calc opcField w
      = opcField w &&& opcField row.mask := by rw [hmask, BitVec.and_allOnes]
    _ = opcField (w &&& row.mask) := BitVec.extractLsb'_and.symm
    _ = row.opc := by rw [hm, hpattern]

/-- No two rows match one word. -/
theorem OpcodeRow.Matches.unique {row row' : OpcodeRow} {w : Word} (hm : row.Matches w) (hm' : row'.Matches w)
    (h : row ∈ opcodeMap) (h' : row' ∈ opcodeMap) : row = row' :=
  OpcodeRow.eq_of_opc_eq h h' ((hm.opcField_eq h).symm.trans (hm'.opcField_eq h'))

/-! ### Decoding by the rows -/

/-- The search by opcode finds the one row that has the word's opcode. -/
theorem find?_opcodeMap_eq_some_iff {w : Word} {row : OpcodeRow} :
    opcodeMap.find? (fun r => r.opc == opcField w) = some row ↔ row ∈ opcodeMap ∧ row.opc = opcField w := by
  constructor
  · intro hf
    exact ⟨List.mem_of_find?_eq_some hf, by simpa using List.find?_some hf⟩
  · rintro ⟨h, ho⟩
    have hsome : (opcodeMap.find? fun r => r.opc == opcField w).isSome :=
      List.find?_isSome.mpr ⟨row, h, by simpa using ho⟩
    obtain ⟨found, hf⟩ := Option.isSome_iff_exists.mp hsome
    have hfo : found.opc = opcField w := by simpa using List.find?_some hf
    rw [hf, OpcodeRow.eq_of_opc_eq (List.mem_of_find?_eq_some hf) h (hfo.trans ho.symm)]

/-- A word decodes to the command that a matching row assembles, and to no other. -/
theorem decode_eq_ok_iff {w : Word} {i : Instr} :
    decode w = .ok i ↔ ∃ row ∈ opcodeMap, row.Matches w ∧ row.operands w = i := by
  constructor
  · intro hd
    unfold decode at hd
    split at hd
    next => cases hd
    next row hf =>
      split at hd
      next hm => exact ⟨row, (find?_opcodeMap_eq_some_iff.mp hf).1, hm, Except.ok.inj hd⟩
      next => cases hd
  · rintro ⟨row, h, hm, rfl⟩
    have hf := find?_opcodeMap_eq_some_iff.mpr ⟨h, (hm.opcField_eq h).symm⟩
    simp only [decode, hf]
    exact if_pos hm

/-- A word decodes to a command of a row's mnemonic exactly when the row matches it. -/
theorem exists_decode_mnemonic_iff {row : OpcodeRow} (h : row ∈ opcodeMap) (w : Word) :
    (∃ i, decode w = .ok i ∧ mnemonic i = row.name) ↔ row.Matches w := by
  constructor
  · rintro ⟨i, hd, hn⟩
    obtain ⟨row', h', hm', rfl⟩ := decode_eq_ok_iff.mp hd
    rw [OpcodeRow.mnemonic_operands h'] at hn
    exact OpcodeRow.eq_of_name_eq h' h hn ▸ hm'
  · intro hm
    exact ⟨row.operands w, decode_eq_ok_iff.mpr ⟨row, h, hm, rfl⟩, OpcodeRow.mnemonic_operands h w⟩

/-- Settles O3: the statement's rows are those of `opcodeMap`; a matching row has the word's opcode, so it is the one
row the search finds, and its mnemonic is no other row's. -/
theorem decodeFollowsOpcodeMap : Obligations.DecodeFollowsOpcodeMap := by
  unfold Obligations.DecodeFollowsOpcodeMap
  rw [opcodeRows_eq_map_opcodeMap]
  refine ⟨rfl, fun w => ?_⟩
  simp only [List.forall_mem_map]
  refine ⟨fun row h => exists_decode_mnemonic_iff h w, ?disjoint, ?rejected⟩
  case disjoint =>
    intro row h row' h' hm hm'
    rw [OpcodeRow.Matches.unique hm hm' h h']
  case rejected =>
    intro hnone
    cases hd : decode w with
    | error e => exact ⟨e, rfl⟩
    | ok i =>
      obtain ⟨row, h, hm, -⟩ := decode_eq_ok_iff.mp hd
      exact absurd hm (hnone row h)

end Sys2Proof
end

