-- ==== Sys2Proof/Proofs/Effects.lean ====
section
/-! How a command that raises an error completes, and what a write to the buffers leaves (60_exceptions R560, 20_memory
R101). -/

namespace Sys2Proof.Machine
open Sys2Proof.Claims

/-! ### Errors -/

/-- A command whose effect is an error fails with it (60_exceptions R560). -/
theorem fails_of_effect_error {i : Instr} {s : State} {effect : Except CmdError State} {e : CmdError}
    (hexec : exec i s = complete effect s) (h : effect = .error e) : Fails i s e := by
  rw [Fails, hexec, h]
  rfl

/-! ### Writing to a buffer -/

/-- The range lies in the buffers (20_memory R101). -/
def InBuffers (base n : Nat) : Prop := 0x100 ≤ base ∧ base + n ≤ 0x600

theorem InBuffers.isStorageAddr {base n i : Nat} (h : InBuffers base n) (hi : i < n) :
    isStorageAddr (base + i) = true := by
  unfold InBuffers at h
  exact (isStorageAddr_iff _).mpr (.inl (by omega))

theorem InBuffers.isMatAddr {base n i : Nat} (h : InBuffers base n) (hi : i < n) : isMatAddr (base + i) = false := by
  unfold InBuffers at h
  rw [Bool.eq_false_iff, Ne, isMatAddr_iff]
  omega

/-- Bytes written to the buffers read back whole. -/
theorem State.readByte_writeBytes_buffer (s : State) {base : Nat} {bs : List Byte} {i : Nat}
    (hb : InBuffers base bs.length) (hi : i < bs.length) : (s.writeBytes base bs).readByte (base + i) = bs[i] := by
  rw [State.readByte_writeBytes, if_pos ⟨by omega, by omega, hb.isStorageAddr hi⟩,
    Nat.add_sub_cancel_left, keptByte, hb.isMatAddr hi]
  simp [hi]

theorem State.bytesKept_writeBytes (s : State) (base : Nat) (bs : List Byte) :
    BytesKept s (s.writeBytes base bs) (Within base bs.length) := by
  intro a ha
  rw [State.readByte_writeBytes]
  exact if_neg fun ⟨hlo, hhi, _⟩ => ha ⟨hlo, hhi⟩

end Sys2Proof.Machine
end

