-- ==== Sys2Proof/Proofs/SymbolContext.lean ====
section
/-! The tables, and the selection of a symbol context by SETSYM and SELVER (40_bitstream R200, R201, R205). -/

namespace Sys2Proof.Machine
open Sys2Proof.Claims

/-! ### The tables -/

/-- Settles O57: the tables are closed, so both sides evaluate to the same list. -/
theorem capacityAndBlockTableCells : Obligations.CapacityAndBlockTableCells := by
  unfold Obligations.CapacityAndBlockTableCells
  rfl

/-- Version 6 holds the most at every level. -/
theorem dcap_le_dcap_six : ∀ v ∈ versions, ∀ e ≤ 3, dcap v e ≤ dcap 6 e := by decide

theorem le_nine_of_mem_versions : ∀ v ∈ versions, v ≤ 9 := by decide

/-! ### The checks -/

theorem checkVersion_ok {ver : BitVec 3} (h1 : 1 ≤ ver.toNat) (h6 : ver.toNat ≤ 6) : checkVersion ver = .ok () := by
  simp [checkVersion, versionOk, h1, h6]

theorem checkVersion_error {ver : BitVec 3} (h : ver = 0#3 ∨ ver = 7#3) :
    checkVersion ver = .error .unsupportedVersion := by
  obtain rfl | rfl := h <;> rfl

/-! ### The new context -/

/-- A cleared MAT reads 0 in every cell, and every byte outside MAT is kept (40_bitstream R200). -/
theorem selected_startSymbol (s : State) (v e : Nat) : Selected s (s.startSymbol v e).finish v e :=
  ⟨rfl, fun r c hr hc => s.cell_clearMat r c hr hc, fun a ha =>
    s.readByte_stamp_of_not_mat _ a (Bool.eq_false_iff.mpr (mt (isMatAddr_iff a).mp ha))⟩

/-- A command whose effect is a new symbol context completes with that context selected. -/
theorem selects_of_effect_startSymbol {i : Instr} {s : State} {effect : Except CmdError State} {v e : Nat}
    (hexec : exec i s = complete effect s) (h : effect = .ok (s.startSymbol v e)) :
    ∃ t, exec i s = .next t ∧ Selected s t v e :=
  ⟨_, by rw [hexec, h, complete_ok], selected_startSymbol s v e⟩

/-! ### SETSYM -/

theorem exec_setsym (ecl ver : BitVec 3) (s : State) :
    exec (.setsym ecl ver) s = complete (cmdSetsym ecl ver s) s := rfl

theorem cmdSetsym_of_level {ecl : BitVec 3} (ver : BitVec 3) (s : State) (h : ecl.toNat ≤ 3) :
    cmdSetsym ecl ver s = (checkVersion ver).map fun _ => s.startSymbol ver.toNat ecl.toNat := by
  rw [cmdSetsym, checkLevel_ok h]
  rfl

theorem cmdSetsym_of_not_level {ecl : BitVec 3} (ver : BitVec 3) (s : State) (h : 3 < ecl.toNat) :
    cmdSetsym ecl ver s = .error .unsupportedLevel := by
  rw [cmdSetsym, checkLevel_error h]
  rfl

/-- Settles O25, by the outcome of the level check and then of the version check. -/
theorem setSymbolSelects : Obligations.SetSymbolSelects := by
  unfold Obligations.SetSymbolSelects
  intro ecl ver s
  have hexec := exec_setsym ecl ver s
  refine ⟨fun hl h1 h6 => selects_of_effect_startSymbol hexec ?selected,
    fun hl => fails_of_effect_error hexec (cmdSetsym_of_not_level ver s hl),
    fun hl hv => fails_of_effect_error hexec ?version⟩
  case selected => rw [cmdSetsym_of_level ver s hl, checkVersion_ok h1 h6]; rfl
  case version => rw [cmdSetsym_of_level ver s hl, checkVersion_error hv]; rfl

/-! ### SELVER -/

/-- The mode overhead is two bytes in every supported version (40_bitstream R202). -/
theorem overhead_eq_two {v : Nat} (h : v ≤ 9) : overhead v = 2 := by simp [overhead, lengthWidth, h]

theorem fits_eq_decide (n : Nat) {v : Nat} (e : Nat) (h : v ≤ 9) : fits n v e = decide (n + 2 ≤ dcap v e) := by
  rw [fits, overhead_eq_two h]

/-- The search in ascending order finds the smallest version that fits, and no other (40_bitstream R205). -/
theorem smallestFit_eq_some_iff {n e v : Nat} : smallestFit n e = some v ↔ SmallestVersion n e v := by
  have hrange : versions = List.range' 1 6 := rfl
  have hsix : (1 ≤ v ∧ v < 1 + 6) ↔ (1 ≤ v ∧ v ≤ 6) := by omega
  rw [smallestFit, hrange, List.find?_range'_eq_some, List.mem_range'_1, SmallestVersion, and_left_comm, hsix]
  refine and_congr_right fun ⟨_, h6⟩ => and_congr ?fitsV (forall₃_congr fun u _ huv => ?failsU)
  case fitsV => rw [fits_eq_decide n e (by omega : v ≤ 9), decide_eq_true_iff]
  case failsU => simp [fits_eq_decide n e (by omega : u ≤ 9)]

/-- When the payload does not fit version 6, it fits none. -/
theorem smallestFit_eq_none {n e : Nat} (he : e ≤ 3) (h : dcap 6 e < n + 2) : smallestFit n e = none := by
  refine List.find?_eq_none.mpr fun v hv => ?_
  have hle := dcap_le_dcap_six v hv e he
  rw [fits_eq_decide n e (le_nine_of_mem_versions v hv), decide_eq_true_iff]
  omega

theorem selectVersion_of_smallest {n e v : Nat} (h : SmallestVersion n e v) (fallback : Bool) :
    selectVersion n e fallback = .ok v := by
  rw [selectVersion, smallestFit_eq_some_iff.mpr h]

theorem selectVersion_of_too_large {n e : Nat} (he : e ≤ 3) (h : dcap 6 e < n + 2) (fallback : Bool) :
    selectVersion n e fallback = if fallback then .ok 6 else .error .payloadTooLarge := by
  rw [selectVersion, smallestFit_eq_none he h]

theorem exec_selver (ecl : BitVec 3) (s : State) : exec (.selver ecl) s = complete (cmdSelver ecl s) s := rfl

theorem cmdSelver_of_level {ecl : BitVec 3} (s : State) (h : ecl.toNat ≤ 3) :
    cmdSelver ecl s =
      (selectVersion s.plen.toNat ecl.toNat s.cfg.fallback).map fun v => s.startSymbol v ecl.toNat := by
  rw [cmdSelver, checkLevel_ok h]
  cases selectVersion s.plen.toNat ecl.toNat s.cfg.fallback <;> rfl

theorem cmdSelver_of_not_level {ecl : BitVec 3} (s : State) (h : 3 < ecl.toNat) :
    cmdSelver ecl s = .error .unsupportedLevel := by
  rw [cmdSelver, checkLevel_error h]
  rfl

/-- Settles O26, by the outcome of the search for a version, and FALLBACK where it finds none. -/
theorem smallestFittingVersionIsSelected : Obligations.SmallestFittingVersionIsSelected := by
  unfold Obligations.SmallestFittingVersionIsSelected
  intro ecl s
  have hexec := exec_selver ecl s
  refine ⟨fun hl => ⟨fun v hv => selects_of_effect_startSymbol hexec ?fits,
      fun hbig hfb => selects_of_effect_startSymbol hexec ?fallback,
      fun hbig hfb => fails_of_effect_error hexec ?tooLarge⟩,
    fun hl => fails_of_effect_error hexec (cmdSelver_of_not_level s hl)⟩
  case fits => rw [cmdSelver_of_level s hl, selectVersion_of_smallest hv]; rfl
  case fallback => rw [cmdSelver_of_level s hl, selectVersion_of_too_large hl hbig, hfb]; rfl
  case tooLarge => rw [cmdSelver_of_level s hl, selectVersion_of_too_large hl hbig, hfb]; rfl

end Sys2Proof.Machine
end

