-- ==== Sys2Proof/Proofs/Packing.lean ====
section
/-! PACK: the bit stream cut into bytes half a byte out of step with the payload, and the closed form of the codewords
(40_bitstream R210, R211). -/

namespace Sys2Proof.Machine
open Sys2Proof.Claims

/-! ### Bytes half a byte out of step -/

/-- The low half of `a` followed by the high half of `b`. -/
def straddle (a b : Byte) : Byte := a.extractLsb' 0 4 ++ b.extractLsb' 4 4

theorem toNat_straddle (a b : Byte) : (straddle a b).toNat = a.toNat % 16 * 16 + b.toNat / 16 := by
  have hb := b.isLt
  have hlow : (a.extractLsb' 0 4).toNat = a.toNat % 16 := by simp
  have hhigh : (b.extractLsb' 4 4).toNat = b.toNat / 16 := by
    rw [BitVec.extractLsb'_toNat, Nat.shiftRight_eq_div_pow]
    omega
  rw [straddle, BitVec.toNat_append, ← Nat.shiftLeft_add_eq_or_of_lt (BitVec.isLt _), hlow, hhigh, Nat.shiftLeft_eq]

theorem byteOfBits_eq_straddle (a b : Byte) :
    byteOfBits (a.getLsbD 3) (a.getLsbD 2) (a.getLsbD 1) (a.getLsbD 0) (b.getLsbD 7) (b.getLsbD 6) (b.getLsbD 5)
      (b.getLsbD 4) = straddle a b := by
  refine BitVec.eq_of_getLsbD_eq fun i hi => ?_
  unfold byteOfBits straddle
  simp only [BitVec.getLsbD_append, BitVec.getLsbD_ofBool, BitVec.getLsbD_extractLsb']
  interval_cases i <;> simp

theorem bitsOfBytes_cons (b : Byte) (bs : List Byte) : bitsOfBytes (b :: bs) = bitsMSB b.toNat 8 ++ bitsOfBytes bs :=
  rfl

theorem length_bitsOfBytes (bs : List Byte) : (bitsOfBytes bs).length = 8 * bs.length := by
  simp [bitsOfBytes, bitsMSB, Nat.mul_comm]

theorem bytesOfBits_straddle (a b : Byte) (rest : List Bool) :
    bytesOfBits (bitsMSB a.toNat 4 ++ (bitsMSB b.toNat 8 ++ rest)) =
      straddle a b :: bytesOfBits (bitsMSB b.toNat 4 ++ rest) := by
  rw [← byteOfBits_eq_straddle]
  rfl

/-- Half a byte, then whole bytes, then half a byte of zeros: every byte of the stream straddles two. -/
theorem bytesOfBits_out_of_step (a : Byte) (bs : List Byte) :
    bytesOfBits (bitsMSB a.toNat 4 ++ (bitsOfBytes bs ++ List.replicate 4 false)) =
      List.zipWith straddle (a :: bs) (bs ++ [0#8]) := by
  induction bs generalizing a with
  | nil => exact bytesOfBits_straddle a 0#8 []
  | cons b bs ih =>
    rw [bitsOfBytes_cons, List.append_assoc, bytesOfBits_straddle, ih]
    rfl

/-! ### The message -/

theorem messageBits_eq {v : Nat} {n : Byte} {payload : List Byte} (hv : v ≤ 9) (hn : payload.length = n.toNat) :
    messageBits v payload = bitsMSB (4#8).toNat 4 ++ bitsOfBytes (n :: payload) := by
  rw [messageBits, lengthWidth, if_pos hv, hn, bitsOfBytes_cons, List.append_assoc]
  rfl

/-- A payload that fits leaves room for the whole terminator, which ends at a byte boundary (40_bitstream R211). -/
theorem terminated_eq {d n : Nat} {bits : List Bool} (hlen : bits.length = 12 + 8 * n) (hd : n + 2 ≤ d) :
    terminated d bits = bits ++ List.replicate 4 false := by
  have hterm : min 4 (8 * d - bits.length) = 4 := by omega
  have hpad : (8 - (bits.length + 4) % 8) % 8 = 0 := by omega
  simp [terminated, hterm, hpad]

theorem unpaddedCodewords_eq {v d : Nat} {n : Byte} {payload : List Byte} (hv : v ≤ 9)
    (hn : payload.length = n.toNat) (hd : n.toNat + 2 ≤ d) :
    unpaddedCodewords v d payload = List.zipWith straddle (4#8 :: n :: payload) (n :: payload ++ [0#8]) := by
  have hlen : (bitsMSB (4#8).toNat 4 ++ bitsOfBytes (n :: payload)).length = 12 + 8 * n.toNat := by
    simp [length_bitsOfBytes, hn, bitsMSB]
    omega
  rw [unpaddedCodewords, messageBits_eq hv hn, terminated_eq hlen hd, List.append_assoc, bytesOfBits_out_of_step]

/-! ### The codewords -/

/-- The codewords PACK has before padding, from the state (40_bitstream R210). -/
def State.messageCodewords (s : State) : List Byte :=
  unpaddedCodewords s.ver (dcap s.ver s.ecl) (s.readBytes pbufBase s.plen.toNat)

/-- The codewords PACK writes, padding included (40_bitstream R210). -/
def State.packedCodewords (s : State) : List Byte :=
  s.messageCodewords ++ padCodewords (dcap s.ver s.ecl - s.messageCodewords.length)

@[simp] theorem length_padCodewords (n : Nat) : (padCodewords n).length = n := by simp [padCodewords]

/-- DBUF holds every capacity (40_bitstream R201). -/
theorem State.inBuffers_dbuf (s : State) : InBuffers dbufBase (dcap s.ver s.ecl) := by
  have hcap : ∀ v e : BitVec 3, dcap v.toNat e.toNat ≤ 136 := by decide
  have hle : dcap s.ver s.ecl ≤ 136 := hcap s.sym.ver s.sym.ecl
  unfold InBuffers dbufBase
  omega

theorem State.ver_le_nine (s : State) : s.ver ≤ 9 := by
  have hlt : s.ver < 2 ^ 3 := s.sym.ver.isLt
  omega

/-- The closed form after its first byte: the length, or the byte before, against the next byte, if there is one. -/
theorem packedByte_succ {s : State} {n j : Nat} (h : j ≤ n) : packedByte s n (j + 1) =
    (if j = 0 then n else (s.readByte (0x100 + (j - 1))).toNat) % 16 * 16 +
      (if j < n then (s.readByte (0x100 + j)).toNat / 16 else 0) := by
  have hpos : j + 1 ≠ 0 := by omega
  have hmsg : j + 1 ≤ n + 1 := by omega
  have hsub : j + 1 - 2 = j - 1 := by omega
  simp only [packedByte, hpos, hmsg, hsub, if_false, if_true, Nat.add_eq_right, Nat.succ_le_iff, Nat.add_sub_cancel]

section Fits
variable {s : State} (hfit : s.plen.toNat + 2 ≤ dcap s.ver s.ecl)
include hfit

theorem State.messageCodewords_eq : s.messageCodewords =
    List.zipWith straddle (4#8 :: s.plen :: s.readBytes pbufBase s.plen.toNat)
      (s.plen :: s.readBytes pbufBase s.plen.toNat ++ [0#8]) :=
  unpaddedCodewords_eq s.ver_le_nine (s.length_readBytes _ _) hfit

theorem State.length_messageCodewords : s.messageCodewords.length = s.plen.toNat + 2 := by
  simp [State.messageCodewords_eq hfit]

theorem State.length_packedCodewords : s.packedCodewords.length = dcap s.ver s.ecl := by
  rw [State.packedCodewords, List.length_append, length_padCodewords, State.length_messageCodewords hfit]
  omega

/-- The codewords of the message are those of the closed form: mode and length, then the payload out of step. -/
theorem State.toNat_getElem_messageCodewords {k : Nat} (hk : k < s.messageCodewords.length) :
    s.messageCodewords[k].toNat = packedByte s s.plen.toNat k := by
  have hn : k < s.plen.toNat + 2 := State.length_messageCodewords hfit ▸ hk
  simp only [State.messageCodewords_eq hfit, List.getElem_zipWith, toNat_straddle]
  cases k with
  | zero => rfl
  | succ j =>
    have hleft : (s.plen :: s.readBytes pbufBase s.plen.toNat)[j]'(by simp; omega) =
        if j = 0 then s.plen else s.readByte (0x100 + (j - 1)) := by
      cases j with
      | zero => rfl
      | succ i => exact s.getElem_readBytes _ _ _ _
    have hright : (s.readBytes pbufBase s.plen.toNat ++ [0#8])[j]'(by simp; omega) =
        if j < s.plen.toNat then s.readByte (0x100 + j) else 0#8 := by
      simp only [List.getElem_append, State.length_readBytes, State.getElem_readBytes, List.getElem_singleton]
      rfl
    simp only [List.getElem_cons_succ, List.cons_append, hleft, hright, packedByte_succ (by omega : j ≤ s.plen.toNat)]
    congr 1 <;> split <;> rfl

theorem State.toNat_getElem_packedCodewords {k : Nat} (hk : k < s.packedCodewords.length) :
    s.packedCodewords[k].toNat = packedByte s s.plen.toNat k := by
  have hlen := State.length_messageCodewords hfit
  simp only [State.packedCodewords, List.getElem_append]
  split
  next hmsg => exact State.toNat_getElem_messageCodewords hfit hmsg
  next hpad =>
    rw [hlen] at hpad
    have hk0 : k ≠ 0 := by omega
    have hkn : ¬ k ≤ s.plen.toNat + 1 := by omega
    simp only [padCodewords, List.getElem_map, List.getElem_range, packedByte, hk0, hkn, if_false, hlen]
    split <;> rfl

end Fits

/-! ### PACK -/

theorem exec_pack (s : State) : exec .pack s = complete (cmdPack s) s := rfl

theorem State.fits_plen (s : State) :
    fits s.plen.toNat s.ver s.ecl = decide (s.plen.toNat + 2 ≤ dcap s.ver s.ecl) :=
  fits_eq_decide _ _ s.ver_le_nine

theorem cmdPack_of_fits {s : State} (hfit : s.plen.toNat + 2 ≤ dcap s.ver s.ecl) :
    cmdPack s = .ok { s.writeBytes dbufBase s.packedCodewords with
      result0 := word (dcap s.ver s.ecl)
      result1 := word (dcap s.ver s.ecl - s.messageCodewords.length) } := by
  rw [cmdPack, s.fits_plen, decide_eq_true hfit]
  rfl

theorem cmdPack_of_too_large {s : State} (h : dcap s.ver s.ecl < s.plen.toNat + 2) :
    cmdPack s = .error .payloadTooLarge := by
  rw [cmdPack, s.fits_plen, decide_eq_false (by omega)]
  rfl

/-- Settles O27: the codewords are the closed form byte for byte, and they fill exactly the capacity. -/
theorem packedCodewordsClosedForm : Obligations.PackedCodewordsClosedForm := by
  unfold Obligations.PackedCodewordsClosedForm
  intro s
  refine ⟨fun hfit => ⟨_, by rw [exec_pack, cmdPack_of_fits hfit, complete_ok], ?regs, ?kept, ?codewords⟩,
    fun hbig => fails_of_effect_error (exec_pack s) (cmdPack_of_too_large hbig)⟩
  case regs =>
    rw [State.length_messageCodewords hfit]
    rfl
  case kept =>
    rw [← State.length_packedCodewords hfit]
    exact s.bytesKept_writeBytes dbufBase s.packedCodewords
  case codewords =>
    intro k hk
    have hlen := State.length_packedCodewords hfit
    have hread := s.readByte_writeBytes_buffer (hlen ▸ s.inBuffers_dbuf) (hlen ▸ hk)
    exact (congrArg BitVec.toNat hread).trans (State.toNat_getElem_packedCodewords hfit (hlen ▸ hk))

end Sys2Proof.Machine
end

