-- ==== Sys2Proof/Proofs/BinaryPolynomials.lean ====
section
/-! Words as polynomials over GF(2): the carry-less product and the remainder modulo the field polynomial
(41_galois_field R250, R255). -/

namespace Sys2Proof.Machine
open Sys2Proof.Claims Polynomial

/-! ### Bits as coefficients -/

/-- A bit as an element of GF(2). -/
def bitCoeff (b : Bool) : ZMod 2 := if b then 1 else 0

@[simp] theorem bitCoeff_false : bitCoeff false = 0 := rfl

theorem bitCoeff_xor (a b : Bool) : bitCoeff (a ^^ b) = bitCoeff a + bitCoeff b := by
  cases a <;> cases b <;> decide

theorem bitCoeff_and (a b : Bool) : bitCoeff (a && b) = bitCoeff a * bitCoeff b := by
  cases a <;> cases b <;> decide

theorem bitCoeff_injective : Function.Injective bitCoeff := by decide

theorem bitCoeff_odd (n : ℕ) : bitCoeff (n % 2 == 1) = n := by
  rw [← ZMod.natCast_mod n 2]
  obtain h | h := Nat.mod_two_eq_zero_or_one n <;> rw [h] <;> decide

theorem natCast_countP_range (p : ℕ → Bool) (n : ℕ) :
    (((List.range n).countP p : ℕ) : ZMod 2) = ∑ i ∈ Finset.range n, bitCoeff (p i) := by
  induction n with
  | zero => rfl
  | succ n ih =>
    rw [List.range_succ, List.countP_append, Nat.cast_add, ih, Finset.sum_range_succ]
    cases h : p n <;> simp [h, bitCoeff]

/-! ### The polynomial of a number -/

/-- The polynomial whose coefficient of `x^i` is bit `i` (41_galois_field R265). -/
noncomputable def poly (n : ℕ) : (ZMod 2)[X] := ∑ i ∈ Finset.range n, bitCoeff (n.testBit i) • X ^ i

theorem coeff_sum_bits {n w : ℕ} (h : n < 2 ^ w) (k : ℕ) :
    (∑ i ∈ Finset.range w, bitCoeff (n.testBit i) • X ^ i).coeff k = bitCoeff (n.testBit k) := by
  simp only [finsetSum_coeff, coeff_smul, coeff_X_pow, smul_eq_mul, mul_ite, mul_one, mul_zero, Finset.sum_ite_eq,
    Finset.mem_range]
  split
  next => rfl
  next hk => rw [Nat.testBit_lt_two_pow (h.trans_le (Nat.pow_le_pow_right two_pos (not_lt.mp hk))), bitCoeff_false]

theorem coeff_poly (n k : ℕ) : (poly n).coeff k = bitCoeff (n.testBit k) := coeff_sum_bits Nat.lt_two_pow_self k

/-- A number is determined by its bits, the coefficients of its polynomial. -/
theorem poly_injective : Function.Injective poly := fun m n h =>
  Nat.eq_of_testBit_eq fun k => bitCoeff_injective (by rw [← coeff_poly, ← coeff_poly, h])

theorem poly_eq_sum {n w : ℕ} (h : n < 2 ^ w) : poly n = ∑ i ∈ Finset.range w, bitCoeff (n.testBit i) • X ^ i := by
  ext k
  rw [coeff_poly, coeff_sum_bits h]

@[simp] theorem poly_zero : poly 0 = 0 := rfl

@[simp] theorem poly_one : poly 1 = 1 := by simp [poly, bitCoeff]

theorem poly_xor (m n : ℕ) : poly (m ^^^ n) = poly m + poly n := by
  ext k
  simp [coeff_poly, bitCoeff_xor]

theorem poly_shiftLeft (n i : ℕ) : poly (n <<< i) = poly n * X ^ i := by
  ext k
  rw [coeff_poly, coeff_mul_X_pow', Nat.testBit_shiftLeft, coeff_poly]
  by_cases h : i ≤ k <;> simp [h]

theorem poly_two_mul (n : ℕ) : poly (2 * n) = poly n * X := by
  rw [← pow_one X, ← poly_shiftLeft, Nat.shiftLeft_eq, pow_one, mul_comm]

/-- The statements' coefficient is the coefficient of the product. -/
theorem coeff_poly_mul_poly (x y k : ℕ) : (poly x * poly y).coeff k = bitCoeff (polyCoeff x y k) := by
  rw [polyCoeff, bitCoeff_odd, natCast_countP_range, coeff_mul,
    Finset.Nat.sum_antidiagonal_eq_sum_range_succ fun i j => (poly x).coeff i * (poly y).coeff j]
  simp only [coeff_poly, bitCoeff_and]

theorem polyCoeff_one (x k : ℕ) : polyCoeff x 1 k = x.testBit k := by
  apply bitCoeff_injective
  rw [← coeff_poly_mul_poly, poly_one, mul_one, coeff_poly]

theorem polyCoeff_eq_xor_testBit {x y q f r : ℕ} (h : poly x * poly y = poly q * poly f + poly r) (k : ℕ) :
    polyCoeff x y k = (polyCoeff q f k ^^ r.testBit k) := by
  apply bitCoeff_injective
  rw [bitCoeff_xor, ← coeff_poly, ← coeff_poly_mul_poly, ← coeff_poly_mul_poly, h, coeff_add]

/-! ### Carry-less multiplication -/

/-- A word shifted by no more than its leading zeros loses no bit. -/
theorem toNat_shiftLeft_of_lt {w m i : ℕ} {x : BitVec w} (hx : x.toNat < 2 ^ m) (hw : m + i ≤ w) :
    (x <<< i).toNat = x.toNat <<< i := by
  rw [BitVec.toNat_shiftLeft, Nat.mod_eq_of_lt]
  calc x.toNat <<< i = x.toNat * 2 ^ i := Nat.shiftLeft_eq _ _
    _ < 2 ^ m * 2 ^ i := Nat.mul_lt_mul_of_pos_right hx (by positivity)
    _ ≤ 2 ^ w := by rw [← pow_add]; exact Nat.pow_le_pow_right two_pos hw

/-- Exclusive-or of the words selected is the sum of their polynomials. -/
theorem poly_foldl_xor {w : ℕ} (c : ℕ → Bool) (f : ℕ → BitVec w) (n : ℕ) :
    poly ((List.range n).foldl (fun p i => if c i then p ^^^ f i else p) 0#w).toNat =
      ∑ i ∈ Finset.range n, bitCoeff (c i) • poly (f i).toNat := by
  induction n with
  | zero => simp
  | succ n ih =>
    rw [List.range_succ, List.foldl_append, Finset.sum_range_succ, ← ih]
    cases h : c n <;> simp [h, bitCoeff, poly_xor]

theorem poly_clmul (a b : Byte) : poly (clmul a b).toNat = poly a.toNat * poly b.toNat := by
  have hshift : ∀ i ∈ Finset.range 8, poly (a.setWidth 15 <<< i).toNat = poly a.toNat * X ^ i := fun i hi => by
    have ha : (a.setWidth 15).toNat = a.toNat := BitVec.toNat_setWidth_of_le (by decide)
    have hi : i < 8 := Finset.mem_range.mp hi
    rw [toNat_shiftLeft_of_lt (ha ▸ a.isLt) (by omega), ha, poly_shiftLeft]
  rw [clmul, poly_foldl_xor, poly_eq_sum b.isLt, Finset.mul_sum]
  exact Finset.sum_congr rfl fun i hi => by rw [hshift i hi, BitVec.testBit_toNat, mul_smul_comm]

/-! ### The modular reducer -/

/-- The field polynomial (41_galois_field R265). -/
noncomputable def fieldPolynomial : (ZMod 2)[X] := poly 0x11D

/-- One round of the reducer: clears bit `n + 8` by a multiple of the field polynomial (41_galois_field R255). -/
def reduceStep (p : BitVec 15) (n : ℕ) : BitVec 15 :=
  if p.getLsbD (n + 8) then p ^^^ (fieldPoly <<< n) else p

/-- The rounds for the bits `n + 7` down to 8. -/
def reduceSteps : ℕ → BitVec 15 → BitVec 15
  | 0, p => p
  | n + 1, p => reduceSteps n (reduceStep p n)

theorem gfReduce_eq (p : BitVec 15) : gfReduce p = (reduceSteps 7 p).setWidth 8 := rfl

/-- The exclusive-or of two numbers with the same top bit loses that bit. -/
theorem xor_lt_two_pow_of_testBit {x y m : ℕ} (hx : x < 2 ^ (m + 1)) (hy : y < 2 ^ (m + 1))
    (h : x.testBit m = y.testBit m) : x ^^^ y < 2 ^ m := by
  refine Nat.lt_pow_two_of_testBit _ fun i hi => ?_
  rw [Nat.testBit_xor]
  obtain rfl | hlt := hi.eq_or_lt
  · rw [h, Bool.xor_self]
  · have hle : 2 ^ (m + 1) ≤ 2 ^ i := Nat.pow_le_pow_right two_pos hlt
    rw [Nat.testBit_lt_two_pow (hx.trans_le hle), Nat.testBit_lt_two_pow (hy.trans_le hle), Bool.xor_self]

theorem toNat_fieldPoly_shiftLeft {n : ℕ} (hn : n < 7) : (fieldPoly <<< n).toNat = 0x11D <<< n :=
  toNat_shiftLeft_of_lt (m := 9) (by decide) (by omega)

/-- A round subtracts the field polynomial shifted by `n`, or nothing, and leaves a shorter polynomial. -/
theorem reduceStep_spec {p : BitVec 15} {n : ℕ} (hn : n < 7) (hp : p.toNat < 2 ^ (n + 9)) :
    (reduceStep p n).toNat < 2 ^ (n + 8) ∧
      ∃ d < 2 ^ (n + 1), poly p.toNat = poly d * fieldPolynomial + poly (reduceStep p n).toNat := by
  unfold reduceStep
  cases hbit : p.getLsbD (n + 8) with
  | true =>
    have htop : p.toNat.testBit (n + 8) = (0x11D <<< n).testBit (n + 8) := by
      rw [BitVec.testBit_toNat, hbit, Nat.testBit_shiftLeft, Nat.add_sub_cancel_left,
        decide_eq_true (Nat.le_add_right n 8)]
      rfl
    have hlt : 0x11D <<< n < 2 ^ (n + 9) := by
      rw [Nat.shiftLeft_eq, pow_add, mul_comm]
      exact Nat.mul_lt_mul_of_pos_left (by decide) (by positivity)
    simp only [if_true, BitVec.toNat_xor, toNat_fieldPoly_shiftLeft hn]
    refine ⟨xor_lt_two_pow_of_testBit hp hlt htop, 1 <<< n, ?_, ?_⟩
    · rw [Nat.one_shiftLeft]
      exact Nat.pow_lt_pow_right one_lt_two n.lt_succ_self
    · rw [poly_xor, poly_shiftLeft, poly_shiftLeft, poly_one, one_mul, fieldPolynomial, mul_comm,
        add_left_comm, CharTwo.add_self_eq_zero, add_zero]
  | false =>
    refine ⟨?_, 0, by positivity, by simp⟩
    simpa using xor_lt_two_pow_of_testBit (y := 0) hp (by positivity) (by simpa [BitVec.testBit_toNat] using hbit)

theorem reduceSteps_spec {n : ℕ} (hn : n ≤ 7) {p : BitVec 15} (hp : p.toNat < 2 ^ (n + 8)) :
    (reduceSteps n p).toNat < 2 ^ 8 ∧
      ∃ q < 2 ^ n, poly p.toNat = poly q * fieldPolynomial + poly (reduceSteps n p).toNat := by
  induction n generalizing p with
  | zero => exact ⟨by simpa [reduceSteps] using hp, 0, by decide, by simp [reduceSteps]⟩
  | succ n ih =>
    obtain ⟨hstep, d, hd, hpd⟩ := reduceStep_spec hn (by simpa [add_right_comm] using hp)
    obtain ⟨hlt, q, hq, hpq⟩ := ih (by omega) hstep
    refine ⟨hlt, d ^^^ q, Nat.xor_lt_two_pow hd (hq.trans (Nat.pow_lt_pow_right one_lt_two n.lt_succ_self)), ?_⟩
    rw [reduceSteps, hpd, hpq, poly_xor, add_mul, add_assoc]

/-- The reducer answers the remainder of a division by the field polynomial (41_galois_field R255). -/
theorem exists_poly_eq_add_gfReduce (p : BitVec 15) :
    ∃ q < 2 ^ 7, poly p.toNat = poly q * fieldPolynomial + poly (gfReduce p).toNat := by
  obtain ⟨hlt, q, hq, hpoly⟩ := reduceSteps_spec le_rfl p.isLt
  refine ⟨q, hq, ?_⟩
  rw [hpoly, gfReduce_eq, BitVec.toNat_setWidth, Nat.mod_eq_of_lt hlt]

/-! ### GFCLMUL and GFRED -/

/-- A command whose effect is a value in RESULT0 completes with nothing else changed. -/
theorem exec_of_effect_result0 {i : Instr} {s : State} {effect : Except CmdError State} {w : Word}
    (hexec : exec i s = complete effect s) (h : effect = .ok { s with result0 := w }) :
    exec i s = .next { s with result0 := w, pend := none, status := okStatus s.status s.status.mstate } := by
  rw [hexec, h]
  rfl

theorem exec_gfclmul (a b : Byte) (s : State) : exec (.gfclmul a b) s = complete (cmdGfclmul a b s) s := rfl
theorem exec_gfred (p : BitVec 15) (s : State) : exec (.gfred p) s = complete (cmdGfred p s) s := rfl

/-- Settles O16: the rounds add up `a` shifted by the places of the bits of `b`, which is the product. -/
theorem carrylessProduct : Obligations.CarrylessProduct := by
  unfold Obligations.CarrylessProduct
  intro a b s
  refine ⟨clmul a b, exec_of_effect_result0 (exec_gfclmul a b s) rfl, fun k _ => bitCoeff_injective ?_⟩
  rw [← BitVec.testBit_toNat, ← coeff_poly, poly_clmul, coeff_poly_mul_poly]

/-- Settles O17: each round subtracts a multiple of the field polynomial, and seven of them leave a byte. -/
theorem remainderModuloFieldPolynomial : Obligations.RemainderModuloFieldPolynomial := by
  unfold Obligations.RemainderModuloFieldPolynomial
  intro p s
  obtain ⟨q, hq, hpoly⟩ := exists_poly_eq_add_gfReduce p
  refine ⟨gfReduce p, exec_of_effect_result0 (exec_gfred p s) rfl, q, hq, fun k _ => ?_⟩
  rw [← BitVec.testBit_toNat, ← BitVec.testBit_toNat, ← polyCoeff_one p.toNat]
  exact polyCoeff_eq_xor_testBit (by rw [poly_one, mul_one, hpoly, fieldPolynomial]) k

end Sys2Proof.Machine
end

