-- ==== Sys2Proof/Proofs/GaloisField.lean ====
section
/-! GF(256) as the polynomials over GF(2) modulo the field polynomial: the field product, the exponents of `α` and the
logarithms (41_galois_field R260, R265, R266, R270, R275). -/

namespace Sys2Proof.Machine
open Sys2Proof.Claims Polynomial

/-! ### The elements -/

/-- The residue of a number's polynomial modulo the field polynomial. -/
noncomputable def residue (n : ℕ) : AdjoinRoot fieldPolynomial := AdjoinRoot.mk fieldPolynomial (poly n)

/-- The primitive element `α`, the residue of `x` (41_galois_field R265). -/
noncomputable def alpha : AdjoinRoot fieldPolynomial := AdjoinRoot.root fieldPolynomial

@[simp] theorem residue_zero : residue 0 = 0 := by simp [residue]

@[simp] theorem residue_one : residue 1 = 1 := by simp [residue]

theorem residue_xor (m n : ℕ) : residue (m ^^^ n) = residue m + residue n := by simp [residue, poly_xor]

theorem residue_two_mul (n : ℕ) : residue (2 * n) = residue n * alpha := by simp [residue, poly_two_mul, alpha]

@[simp] theorem residue_fieldPolynomial : residue 0x11D = 0 := AdjoinRoot.mk_self

/-- The field polynomial has degree 8, so it divides no difference of two bytes' polynomials. -/
theorem residue_injOn : Set.InjOn residue (Set.Iio 256) := by
  intro m hm n hn h
  have hdvd : fieldPolynomial ∣ poly m - poly n := AdjoinRoot.mk_eq_mk.mp h
  have hdegree : (8 : ℕ) ≤ fieldPolynomial.degree :=
    le_degree_of_ne_zero (by rw [fieldPolynomial, coeff_poly]; decide)
  have hbyte : (poly m - poly n).degree < (8 : ℕ) := by
    refine (degree_lt_iff_coeff_zero _ _).mpr fun k hk => ?_
    have hle : 2 ^ 8 ≤ 2 ^ k := Nat.pow_le_pow_right two_pos hk
    rw [coeff_sub, coeff_poly, coeff_poly, Nat.testBit_lt_two_pow (hm.trans_le hle),
      Nat.testBit_lt_two_pow (hn.trans_le hle), sub_self]
  exact poly_injective (sub_eq_zero.mp (eq_zero_of_dvd_of_degree_lt hdvd (hbyte.trans_le hdegree)))

theorem residue_gfReduce (p : BitVec 15) : residue (gfReduce p).toNat = residue p.toNat := by
  obtain ⟨q, -, hpoly⟩ := exists_poly_eq_add_gfReduce p
  simp [residue, hpoly]

theorem residue_gfMul (a b : Byte) : residue (gfMul a b).toNat = residue a.toNat * residue b.toNat := by
  rw [gfMul, residue_gfReduce, residue, poly_clmul, map_mul, residue, residue]

/-! ### The powers of `α` -/

/-- On each of the 256 bytes `xtime` is doubling with reduction (41_galois_field R265). -/
theorem toNat_xtime : ∀ y : Byte, (xtime y).toNat =
    if 256 ≤ 2 * y.toNat then (2 * y.toNat) ^^^ 0x11D else 2 * y.toNat := by decide

theorem toNat_gfExpTable (n : ℕ) : (gfExpTable n).toNat = expOf n := by
  induction n with
  | zero => rfl
  | succ n ih => rw [gfExpTable, toNat_xtime, ih, expOf]

theorem gfExpTable_eq_iff {n : ℕ} {y : Byte} : gfExpTable n = y ↔ expOf n = y.toNat := by
  rw [← toNat_gfExpTable, BitVec.toNat_inj]

theorem expOf_lt (n : ℕ) : expOf n < 256 := toNat_gfExpTable n ▸ (gfExpTable n).isLt

/-- Doubling makes an even number, and the field polynomial is odd. -/
theorem expOf_ne_zero (n : ℕ) : expOf n ≠ 0 := by
  induction n with
  | zero => decide
  | succ n ih =>
    rw [expOf]
    split
    · rw [Ne, Nat.xor_eq_zero_iff]
      omega
    · omega

theorem residue_expOf (n : ℕ) : residue (expOf n) = alpha ^ n := by
  induction n with
  | zero => exact residue_one
  | succ n ih =>
    rw [expOf, pow_succ, ← ih, ← residue_two_mul]
    split
    · rw [residue_xor, residue_fieldPolynomial, add_zero]
    · rfl

theorem eq_expOf_iff {x n : ℕ} (hx : x < 256) : x = expOf n ↔ residue x = alpha ^ n := by
  rw [← residue_expOf, residue_injOn.eq_iff hx (expOf_lt n)]

theorem alpha_pow_eq_one_iff (n : ℕ) : alpha ^ n = 1 ↔ expOf n = 1 := by
  rw [eq_comm, ← residue_one, ← eq_expOf_iff (by decide), eq_comm]

/-- `α` is primitive: its order divides 255 = 3 · 5 · 17 and no proper divisor of it. -/
theorem orderOf_alpha : orderOf alpha = 255 := by
  have hpow : alpha ^ 255 = 1 := (alpha_pow_eq_one_iff 255).mpr (by decide +kernel)
  refine orderOf_eq_of_pow_and_pow_div_prime (by decide) hpow fun p hp hdvd => ?_
  have hmem : p ∈ Nat.primeFactorsList 255 := (Nat.mem_primeFactorsList (by decide)).mpr ⟨hp, hdvd⟩
  have hfactors : Nat.primeFactorsList 255 = [3, 5, 17] := by simp
  rw [Ne, alpha_pow_eq_one_iff]
  simp only [hfactors, List.mem_cons, List.not_mem_nil, or_false] at hmem
  obtain rfl | rfl | rfl := hmem <;> decide +kernel

/-- The first 255 powers of `α` are distinct, since its order is 255. -/
theorem expOf_injOn : Set.InjOn expOf (Set.Iio 255) := fun i hi j hj h =>
  pow_injOn_Iio_orderOf (x := alpha) (by rwa [orderOf_alpha]) (by rwa [orderOf_alpha])
    (by simp only [← residue_expOf, h])

/-- The powers of `α` cover the nonzero bytes: 255 distinct ones among 255. -/
theorem exists_expOf_eq {x : ℕ} (h0 : x ≠ 0) (hx : x < 256) : ∃ i < 255, expOf i = x := by
  have hmaps : Set.MapsTo expOf (Finset.range 255) (Finset.Ico 1 256) := fun i _ =>
    Finset.mem_Ico.mpr ⟨Nat.pos_of_ne_zero (expOf_ne_zero i), expOf_lt i⟩
  have hinj : Set.InjOn expOf (Finset.range 255) := by simpa only [Finset.coe_range] using expOf_injOn
  obtain ⟨i, hi, h⟩ := Finset.surjOn_of_injOn_of_card_le _ hmaps hinj (by simp)
    (Finset.mem_Ico.mpr ⟨Nat.pos_of_ne_zero h0, hx⟩)
  exact ⟨i, Finset.mem_range.mp hi, h⟩

/-! ### The logarithm -/

/-- The walk from `EXP[i]` finds the first of the `n` exponents from `i` on whose power is `y`. -/
theorem gfLogFrom_eq_find? (y : Byte) (n i : ℕ) :
    gfLogFrom y n i (gfExpTable i) = (List.range' i n).find? fun j => expOf j = y.toNat := by
  induction n generalizing i with
  | zero => rfl
  | succ n ih =>
    rw [gfLogFrom, List.range'_succ, List.find?_cons, ← gfExpTable, ih]
    by_cases h : expOf i = y.toNat <;> simp [h, gfExpTable_eq_iff]

theorem gfLogTable_eq_find? (y : Byte) : gfLogTable y = (List.range' 0 255).find? fun j => expOf j = y.toNat :=
  gfLogFrom_eq_find? y 255 0

theorem expOf_of_gfLogTable {y : Byte} {i : ℕ} (h : gfLogTable y = some i) : i < 255 ∧ expOf i = y.toNat := by
  rw [gfLogTable_eq_find?] at h
  exact ⟨by simpa using List.mem_of_find?_eq_some h, by simpa using List.find?_some h⟩

/-- A nonzero byte has a logarithm (41_galois_field R265). -/
theorem exists_gfLogTable {y : Byte} (hy : y ≠ 0#8) : ∃ i, gfLogTable y = some i := by
  obtain ⟨j, hj, hexp⟩ := exists_expOf_eq (fun h => hy (BitVec.eq_of_toNat_eq h)) y.isLt
  rw [← Option.isSome_iff_exists, gfLogTable_eq_find?, List.find?_isSome]
  exact ⟨j, by simpa using hj, by simpa using hexp⟩

theorem gfLogTable_zero : gfLogTable 0#8 = none := by
  rw [gfLogTable_eq_find?, List.find?_eq_none]
  exact fun i _ => by simpa using expOf_ne_zero i

theorem cmdGflog_of_some {a : Byte} {i : ℕ} (h : gfLogTable a = some i) (s : State) :
    cmdGflog a s = .ok { s with result0 := word i } := by
  rw [cmdGflog, h]

theorem cmdGflog_of_none {a : Byte} (h : gfLogTable a = none) (s : State) : cmdGflog a s = .error .logOfZero := by
  rw [cmdGflog, h]

/-! ### GFMUL, GFEXP and GFLOG -/

theorem exec_gfmul (a b : Byte) (s : State) : exec (.gfmul a b) s = complete (cmdGfmul a b s) s := rfl
theorem exec_gfexp (n : Byte) (s : State) : exec (.gfexp n) s = complete (cmdGfexp n s) s := rfl
theorem exec_gflog (a : Byte) (s : State) : exec (.gflog a) s = complete (cmdGflog a s) s := rfl

/-- Settles O18: the product is the remainder of the carry-less product, and in the quotient ring the factors' residues
multiply: 0 by anything is 0, and exponents of `α` add. -/
theorem fieldProductAddsExponents : Obligations.FieldProductAddsExponents := by
  unfold Obligations.FieldProductAddsExponents
  intro a b s
  have hmul := residue_gfMul a b
  have hlt : (gfMul a b).toNat < 256 := (gfMul a b).isLt
  refine ⟨gfMul a b, exec_of_effect_result0 (exec_gfmul a b s) rfl, ?remainder, ?zero, ?exponents⟩
  case remainder =>
    obtain ⟨q, hq, hpoly⟩ := exists_poly_eq_add_gfReduce (clmul a b)
    rw [poly_clmul] at hpoly
    refine ⟨q, hq, fun k _ => ?_⟩
    rw [← BitVec.testBit_toNat]
    exact polyCoeff_eq_xor_testBit hpoly k
  case zero =>
    intro h
    have hzero : residue (gfMul a b).toNat = residue 0 := by
      obtain rfl | rfl := h <;> simp [hmul]
    exact BitVec.eq_of_toNat_eq (residue_injOn hlt (by decide) hzero)
  case exponents =>
    intro i j _ _ ha hb
    rw [eq_expOf_iff hlt, hmul, ha, hb, residue_expOf, residue_expOf, pow_add]

/-- Settles O19: `xtime` on bytes is doubling with reduction, so the two tables agree entry by entry. -/
theorem exponentTable : Obligations.ExponentTable := by
  unfold Obligations.ExponentTable
  intro n s
  refine exec_of_effect_result0 (exec_gfexp n s) ?_
  rw [cmdGfexp, ← toNat_gfExpTable, BitVec.ofNat_toNat]

/-- Settles O20: the walk finds an exponent of every nonzero byte, `α` is primitive and so has no other below 255, and no
power of `α` is 0. -/
theorem discreteLogarithm : Obligations.DiscreteLogarithm := by
  unfold Obligations.DiscreteLogarithm
  intro a s
  constructor
  · intro ha
    obtain ⟨i, hlog⟩ := exists_gfLogTable ha
    obtain ⟨hi, hexp⟩ := expOf_of_gfLogTable hlog
    exact ⟨i, Nat.le_of_lt_succ hi, exec_of_effect_result0 (exec_gflog a s) (cmdGflog_of_some hlog s), hexp,
      fun j hj h => expOf_injOn (Nat.lt_succ_of_le hj) hi (h.trans hexp.symm)⟩
  · rintro rfl
    exact fails_of_effect_error (exec_gflog 0#8 s) (cmdGflog_of_none gfLogTable_zero s)

end Sys2Proof.Machine
end

