-- ==== Sys2Proof/Proofs/FieldPolynomials.lean ====
section
/-! Polynomials over GF(256) by their values: what the value of a coefficient list, highest degree first, becomes under
the operations of the encoder (42_reed_solomon R302). -/

namespace Sys2Proof.Machine
open Sys2Proof.Claims Polynomial

/-! ### Bytes as field elements -/

/-- The field element a byte stands for (41_galois_field R265). -/
noncomputable def element (b : Byte) : AdjoinRoot fieldPolynomial := residue b.toNat

theorem element_injective : Function.Injective element := fun a b h =>
  BitVec.eq_of_toNat_eq (residue_injOn a.isLt b.isLt h)

@[simp] theorem element_zero : element 0#8 = 0 := residue_zero

@[simp] theorem element_one : element 1#8 = 1 := residue_one

@[simp] theorem element_xor (a b : Byte) : element (a ^^^ b) = element a + element b := by
  rw [element, BitVec.toNat_xor, residue_xor, element, element]

@[simp] theorem element_gfMul (a b : Byte) : element (gfMul a b) = element a * element b := residue_gfMul a b

@[simp] theorem element_gfExpTable (n : ℕ) : element (gfExpTable n) = alpha ^ n := by
  rw [element, toNat_gfExpTable, residue_expOf]

/-- The statements' power of `α` is the table's entry. -/
theorem ofNat_expOf (n : ℕ) : BitVec.ofNat 8 (expOf n) = gfExpTable n := by
  rw [← toNat_gfExpTable, BitVec.ofNat_toNat, BitVec.setWidth_eq]

/-! ### The value of a coefficient list -/

/-- The value at `x` of the polynomial with the given coefficients, highest degree first (42_reed_solomon R302). -/
noncomputable def valueAt (x : AdjoinRoot fieldPolynomial) : List Byte → AdjoinRoot fieldPolynomial
  | [] => 0
  | c :: p => element c * x ^ p.length + valueAt x p

section Value
variable (x : AdjoinRoot fieldPolynomial)

@[simp] theorem valueAt_nil : valueAt x [] = 0 := rfl

@[simp] theorem valueAt_cons (c : Byte) (p : List Byte) :
    valueAt x (c :: p) = element c * x ^ p.length + valueAt x p := rfl

@[simp] theorem valueAt_append (p q : List Byte) :
    valueAt x (p ++ q) = valueAt x p * x ^ q.length + valueAt x q := by
  induction p with
  | nil => simp
  | cons c p ih =>
    rw [List.cons_append, valueAt_cons, ih, valueAt_cons, List.length_append, pow_add]
    ring

@[simp] theorem valueAt_replicate_zero (n : ℕ) : valueAt x (List.replicate n 0#8) = 0 := by
  induction n with
  | zero => rfl
  | succ n ih => rw [List.replicate_succ, valueAt_cons, ih, element_zero, zero_mul, add_zero]

@[simp] theorem valueAt_map_gfMul (p : List Byte) (a : Byte) :
    valueAt x (p.map fun c => gfMul c a) = valueAt x p * element a := by
  induction p with
  | nil => simp
  | cons c p ih =>
    rw [List.map_cons, valueAt_cons, ih, valueAt_cons, List.length_map, element_gfMul]
    ring

theorem valueAt_zipWith_xor {p q : List Byte} (h : p.length = q.length) :
    valueAt x (List.zipWith (· ^^^ ·) p q) = valueAt x p + valueAt x q := by
  induction p generalizing q with
  | nil =>
    obtain rfl := List.length_eq_zero_iff.mp h.symm
    simp
  | cons a p ih =>
    obtain ⟨b, q, rfl⟩ := List.exists_cons_of_length_eq_add_one h.symm
    have hlen : p.length = q.length := Nat.succ.inj h
    rw [List.zipWith_cons_cons, valueAt_cons, ih hlen, valueAt_cons, valueAt_cons, List.length_zipWith, ← hlen,
      Nat.min_self, element_xor]
    ring

@[simp] theorem xorFront_nil (p : List Byte) : xorFront p [] = p := by cases p <;> rfl

@[simp] theorem length_xorFront (p q : List Byte) : (xorFront p q).length = p.length := by
  induction p generalizing q with
  | nil => rfl
  | cons a p ih =>
    cases q with
    | nil => rfl
    | cons b q => exact congrArg Nat.succ (ih q)

/-- What is xored into the front counts from the leading coefficient on. -/
theorem valueAt_xorFront {p q : List Byte} (h : q.length ≤ p.length) :
    valueAt x (xorFront p q) = valueAt x p + valueAt x q * x ^ (p.length - q.length) := by
  induction p generalizing q with
  | nil =>
    obtain rfl := List.eq_nil_of_length_eq_zero (Nat.le_zero.mp h)
    simp
  | cons a p ih =>
    cases q with
    | nil => simp
    | cons b q =>
      have hlen : q.length ≤ p.length := Nat.le_of_succ_le_succ h
      have hpow : x ^ q.length * x ^ (p.length - q.length) = x ^ p.length := pow_mul_pow_sub x hlen
      rw [xorFront, valueAt_cons, ih hlen, valueAt_cons, valueAt_cons, length_xorFront, element_xor, List.length_cons,
        List.length_cons, Nat.add_sub_add_right, add_mul (element b * _), mul_assoc (element b), hpow]
      ring

end Value

/-- The statements' evaluation is the value in the field. -/
@[simp] theorem element_evalPoly (p : List Byte) (x : Byte) : element (evalPoly p x) = valueAt (element x) p := by
  induction p using List.reverseRecOn with
  | nil => exact element_zero
  | append_singleton p c ih =>
    have hstep : evalPoly (p ++ [c]) x = gfMul (evalPoly p x) x ^^^ c := List.foldl_concat ..
    rw [hstep, element_xor, element_gfMul, ih]
    simp

end Sys2Proof.Machine
end

