-- ==== Sys2Proof/Proofs/ReedSolomon.lean ====
section
/-! The generator polynomial and the long division by it: RSGEN and RSENC (42_reed_solomon R300, R303, R305). -/

namespace Sys2Proof.Machine
open Sys2Proof.Claims Polynomial

/-! ### The generator -/

theorem valueAt_mulRoot (x : AdjoinRoot fieldPolynomial) (g : List Byte) (root : Byte) :
    valueAt x (mulRoot g root) = valueAt x g * (x + element root) := by
  rw [mulRoot, valueAt_zipWith_xor x (by simp)]
  simp [mul_add]

@[simp] theorem length_mulRoot (g : List Byte) (root : Byte) : (mulRoot g root).length = g.length + 1 := by
  simp [mulRoot]

@[simp] theorem length_rsGenerator (n : ℕ) : (rsGenerator n).length = n + 1 := by
  induction n with
  | zero => rfl
  | succ n ih => rw [rsGenerator, length_mulRoot, ih]

/-- The generator is monic: a factor keeps the leading coefficient (42_reed_solomon R302). -/
theorem rsGenerator_eq_one_cons (n : ℕ) : rsGenerator n = 1#8 :: (rsGenerator n).tail := by
  induction n with
  | zero => rfl
  | succ n ih =>
    rw [rsGenerator, ih]
    rfl

theorem valueAt_rsGenerator (x : AdjoinRoot fieldPolynomial) (n : ℕ) :
    valueAt x (rsGenerator n) = ∏ i ∈ Finset.range n, (x + alpha ^ i) := by
  induction n with
  | zero => simp [rsGenerator]
  | succ n ih => rw [rsGenerator, valueAt_mulRoot, ih, Finset.prod_range_succ, element_gfExpTable]

/-- Every power of `α` below the degree is a root: in characteristic 2 its factor `x + x` vanishes. -/
theorem valueAt_rsGenerator_root {i n : ℕ} (hi : i < n) : valueAt (alpha ^ i) (rsGenerator n) = 0 := by
  rw [valueAt_rsGenerator]
  exact Finset.prod_eq_zero (Finset.mem_range.mpr hi) (ZModModule.add_self _)

theorem element_rootProduct (n : ℕ) (x : Byte) :
    element (rootProduct n x) = ∏ i ∈ Finset.range n, (element x + alpha ^ i) := by
  induction n with
  | zero => exact element_one
  | succ n ih =>
    have hstep : rootProduct (n + 1) x = gfMul (rootProduct n x) (x ^^^ gfExpTable n) := by
      rw [rootProduct, List.range_succ, List.foldl_concat, ofNat_expOf, rootProduct]
    rw [hstep, element_gfMul, ih, Finset.prod_range_succ, element_xor, element_gfExpTable]

theorem evalPoly_rsGenerator (n : ℕ) (x : Byte) : evalPoly (rsGenerator n) x = rootProduct n x :=
  element_injective (by rw [element_evalPoly, valueAt_rsGenerator, element_rootProduct])

/-! ### The division -/

theorem length_divStep (g p : List Byte) : (divStep g p).length = p.length - 1 := by
  cases p with
  | nil => rfl
  | cons c p =>
    rw [divStep]
    split <;> simp

theorem length_divSteps (g : List Byte) (n : ℕ) (p : List Byte) : (divSteps g n p).length = p.length - n := by
  induction n generalizing p with
  | zero => rfl
  | succ n ih => rw [divSteps, ih, length_divStep, Nat.sub_sub, Nat.add_comm]

section Root
variable {x : AdjoinRoot fieldPolynomial} {g : List Byte} (hroot : valueAt x (1#8 :: g) = 0)
include hroot

/-- A step subtracts a multiple of the divisor, which is 0 at its root, so the value there is kept. -/
theorem valueAt_divStep {p : List Byte} (h : g.length < p.length) :
    valueAt x (divStep (1#8 :: g) p) = valueAt x p := by
  cases p with
  | nil => rfl
  | cons c p =>
    have hlen : g.length ≤ p.length := Nat.le_of_lt_succ h
    have hpow : x ^ p.length = x ^ g.length * x ^ (p.length - g.length) := (pow_mul_pow_sub x hlen).symm
    have hg : valueAt x g = x ^ g.length := by
      rw [valueAt_cons, element_one, one_mul] at hroot
      rw [eq_neg_of_add_eq_zero_right hroot, ZModModule.neg_eq_self]
    rw [divStep]
    split
    next hc => simp [hc]
    next =>
      rw [List.tail_cons, valueAt_xorFront x (by simpa using hlen), valueAt_map_gfMul, List.length_map, hg,
        valueAt_cons, hpow]
      ring

theorem valueAt_divSteps {n : ℕ} {p : List Byte} (h : n + g.length ≤ p.length) :
    valueAt x (divSteps (1#8 :: g) n p) = valueAt x p := by
  induction n generalizing p with
  | zero => rfl
  | succ n ih => rw [divSteps, ih (by rw [length_divStep]; omega), valueAt_divStep hroot (by omega)]

end Root

/-! ### The parity -/

@[simp] theorem length_rsParity (data : List Byte) (nsym : ℕ) : (rsParity data nsym).length = nsym := by
  simp [rsParity, length_divSteps]

/-- At a root of the generator the remainder has the value of the shifted data. -/
theorem valueAt_rsParity (data : List Byte) {i nsym : ℕ} (hi : i < nsym) :
    valueAt (alpha ^ i) (rsParity data nsym) = valueAt (alpha ^ i) data * (alpha ^ i) ^ nsym := by
  have hroot := valueAt_rsGenerator_root hi
  rw [rsGenerator_eq_one_cons] at hroot
  rw [rsParity, rsGenerator_eq_one_cons, valueAt_divSteps hroot (by simp)]
  simp

/-- A block with its parity is a codeword (42_reed_solomon R305). -/
theorem evalPoly_append_rsParity (data : List Byte) {i nsym : ℕ} (hi : i < nsym) :
    evalPoly (data ++ rsParity data nsym) (BitVec.ofNat 8 (expOf i)) = 0#8 := by
  apply element_injective
  rw [ofNat_expOf, element_evalPoly, element_gfExpTable, valueAt_append, length_rsParity, valueAt_rsParity data hi,
    ZModModule.add_self, element_zero]

/-! ### Ranges of bytes -/

/-- Bytes written to the buffers are what a read of their range gives. -/
theorem State.readBytes_writeBytes_buffer (s : State) {base : ℕ} {bs : List Byte} (hb : InBuffers base bs.length) :
    (s.writeBytes base bs).readBytes base bs.length = bs :=
  List.ext_getElem (State.length_readBytes _ _ _) fun i h hi =>
    (State.getElem_readBytes _ _ _ i h).trans (s.readByte_writeBytes_buffer hb hi)

/-- A range that no changed byte lies in reads as before. -/
theorem readBytes_of_bytesKept {s t : State} {p : ℕ → Prop} (h : BytesKept s t p) {base n : ℕ}
    (hp : ∀ i < n, ¬ p (base + i)) : t.readBytes base n = s.readBytes base n := by
  rw [State.readBytes_eq, State.readBytes_eq]
  exact List.map_congr_left fun i hi => h _ (hp i (List.mem_range.mp hi))

theorem State.readBytes_add (s : State) (base m n : ℕ) :
    s.readBytes base (m + n) = s.readBytes base m ++ s.readBytes (base + m) n := by
  simp [State.readBytes_eq, List.range_add, Nat.add_assoc, Function.comp_def]

/-! ### RSGEN -/

theorem exec_rsgen (n : Byte) (s : State) : exec (.rsgen n) s = complete (cmdRsgen n s) s := rfl

theorem holdsGenerator_of_readBytes {t : State} {n : ℕ} (h : t.readBytes gbufBase (n + 1) = rsGenerator n) :
    HoldsGenerator t n := by
  refine ⟨?_, fun x => (congrArg (evalPoly · x) h).trans (evalPoly_rsGenerator n x)⟩
  rw [State.readBytes_eq, List.range_succ_eq_map, rsGenerator_eq_one_cons] at h
  exact (List.cons.inj h).1

/-- GBUF holds the longest generator (10_state R45). -/
theorem inBuffers_gbuf (n : Byte) : InBuffers gbufBase (rsGenerator n.toNat).length := by
  have hn := n.isLt
  rw [length_rsGenerator]
  unfold InBuffers gbufBase
  omega

/-- Settles O21: each factor multiplies the value at every point by that factor's, and GBUF has room for the whole. -/
theorem generatorIsProductOfRoots : Obligations.GeneratorIsProductOfRoots := by
  unfold Obligations.GeneratorIsProductOfRoots
  intro n s
  have hread := s.readBytes_writeBytes_buffer (inBuffers_gbuf n)
  have hkept := s.bytesKept_writeBytes gbufBase (rsGenerator n.toNat)
  rw [length_rsGenerator] at hread hkept
  exact ⟨_, exec_rsgen n s, rfl, hkept, holdsGenerator_of_readBytes hread⟩

/-! ### RSENC -/

theorem exec_rsenc (len nsym : Byte) (s : State) : exec (.rsenc len nsym) s = complete (cmdRsenc len nsym s) s := rfl

theorem cmdRsenc_of_too_long {len nsym : Byte} (s : State) (h : 256 < len.toNat + nsym.toNat) :
    cmdRsenc len nsym s = .error .badOperand := if_pos h

/-- The parity RSENC writes, from the state (42_reed_solomon R305). -/
def State.wbufParity (s : State) (len nsym : ℕ) : List Byte := rsParity (s.readBytes wbufBase len) nsym

/-- The storage after RSENC: the generator in GBUF, then the parity after the data in WBUF. -/
def State.encodeBlock (s : State) (len nsym : ℕ) : State :=
  (s.writeBytes gbufBase (rsGenerator nsym)).writeBytes (wbufBase + len) (s.wbufParity len nsym)

theorem cmdRsenc_of_fits {len nsym : Byte} (s : State) (h : len.toNat + nsym.toNat ≤ 256) :
    cmdRsenc len nsym s =
      .ok { s.encodeBlock len.toNat nsym.toNat with result0 := word (len.toNat + nsym.toNat) } :=
  if_neg (Nat.not_lt.mpr h)

@[simp] theorem State.length_wbufParity (s : State) (len nsym : ℕ) : (s.wbufParity len nsym).length = nsym :=
  length_rsParity _ _

theorem State.bytesKept_encodeBlock (s : State) (len nsym : ℕ) : BytesKept s (s.encodeBlock len nsym)
    fun a => Within (wbufBase + len) nsym a ∨ Within gbufBase (nsym + 1) a := by
  intro a ha
  obtain ⟨hparity, hgen⟩ := not_or.mp ha
  rw [State.encodeBlock, State.bytesKept_writeBytes _ _ _ a (by rwa [State.length_wbufParity]),
    State.bytesKept_writeBytes _ _ _ a (by rwa [length_rsGenerator])]

section Block
variable (s : State) {len nsym : Byte} (hfit : len.toNat + nsym.toNat ≤ 256)
include hfit

/-- The parity ends within WBUF, below GBUF, so the generator stands. -/
theorem State.readBytes_gbuf_encodeBlock :
    (s.encodeBlock len.toNat nsym.toNat).readBytes gbufBase (nsym.toNat + 1) = rsGenerator nsym.toNat := by
  have hgen := s.readBytes_writeBytes_buffer (inBuffers_gbuf nsym)
  rw [length_rsGenerator] at hgen
  rw [State.encodeBlock, readBytes_of_bytesKept (State.bytesKept_writeBytes _ _ _), hgen]
  intro i _
  rw [State.length_wbufParity]
  unfold Within wbufBase gbufBase
  omega

/-- WBUF holds the data and the parity after it. -/
theorem State.readBytes_wbuf_encodeBlock :
    (s.encodeBlock len.toNat nsym.toNat).readBytes wbufBase (len.toNat + nsym.toNat) =
      s.readBytes wbufBase len.toNat ++ s.wbufParity len.toNat nsym.toNat := by
  have hdata : (s.encodeBlock len.toNat nsym.toNat).readBytes wbufBase len.toNat = s.readBytes wbufBase len.toNat := by
    refine readBytes_of_bytesKept (s.bytesKept_encodeBlock _ _) fun i hi => ?_
    unfold Within wbufBase gbufBase
    omega
  have hbuf : InBuffers (wbufBase + len.toNat) (s.wbufParity len.toNat nsym.toNat).length := by
    rw [State.length_wbufParity]
    unfold InBuffers wbufBase
    omega
  have hparity := (s.writeBytes gbufBase (rsGenerator nsym.toNat)).readBytes_writeBytes_buffer hbuf
  rw [State.length_wbufParity] at hparity
  rw [State.readBytes_add, hdata, State.encodeBlock, hparity]

end Block

/-- Settles O22: the remainder of the long division has the value of the shifted data at every root of the generator, so
data and remainder together are 0 there. -/
theorem parityMakesCodeword : Obligations.ParityMakesCodeword := by
  unfold Obligations.ParityMakesCodeword
  intro len nsym s
  refine ⟨fun hfit => ⟨_, by rw [exec_rsenc, cmdRsenc_of_fits s hfit, complete_ok], rfl, ?kept, ?generator, ?codeword⟩,
    fun hlong => fails_of_effect_error (exec_rsenc len nsym s) (cmdRsenc_of_too_long s hlong)⟩
  case kept => exact s.bytesKept_encodeBlock _ _
  case generator => exact holdsGenerator_of_readBytes (s.readBytes_gbuf_encodeBlock hfit)
  case codeword =>
    intro i hi
    refine (congrArg (evalPoly · _) (s.readBytes_wbuf_encodeBlock hfit)).trans ?_
    exact evalPoly_append_rsParity _ hi

end Sys2Proof.Machine
end

