-- ==== Sys2Proof/Proofs/Interleaving.lean ====
section
/-! The blocks of the data codewords and their interleaving: ECCIL (42_reed_solomon R301, R310). -/

namespace Sys2Proof.Machine
open Sys2Proof.Claims

/-! ### Cutting into blocks -/

@[simp] theorem length_splitBlocks (lens : List ℕ) (data : List Byte) :
    (splitBlocks lens data).length = lens.length := by
  induction lens generalizing data with
  | nil => rfl
  | cons n lens ih => exact congrArg Nat.succ (ih _)

/-- Block `b` of the data: it starts where the blocks before it end (42_reed_solomon R310). -/
def dataBlock (lens : List ℕ) (data : List Byte) (b : ℕ) : List Byte :=
  (data.drop (blockOffset lens b)).take (lens.getD b 0)

theorem getElem?_splitBlocks {lens : List ℕ} (data : List Byte) {b : ℕ} (hb : b < lens.length) :
    (splitBlocks lens data)[b]? = some (dataBlock lens data b) := by
  induction lens generalizing data b with
  | nil => exact absurd hb b.not_lt_zero
  | cons n lens ih =>
    cases b with
    | zero => rfl
    | succ b =>
      rw [splitBlocks, List.getElem?_cons_succ, ih _ (Nat.lt_of_succ_lt_succ hb)]
      simp [dataBlock, blockOffset]

theorem map_length_splitBlocks {lens : List ℕ} {data : List Byte} (h : lens.sum ≤ data.length) :
    (splitBlocks lens data).map List.length = lens := by
  induction lens generalizing data with
  | nil => rfl
  | cons n lens ih =>
    rw [List.sum_cons] at h
    rw [splitBlocks, List.map_cons, List.length_take, Nat.min_eq_left (by omega),
      ih (by rw [List.length_drop]; omega)]

/-- A block lies within the data. -/
theorem blockOffset_add_le (lens : List ℕ) (b : ℕ) : blockOffset lens b + lens.getD b 0 ≤ lens.sum := by
  induction lens generalizing b with
  | nil => simp [blockOffset]
  | cons n lens ih =>
    cases b with
    | zero => simp [blockOffset]
    | succ b => simpa [blockOffset, Nat.add_assoc] using ih b

theorem length_dataBlock {lens : List ℕ} {data : List Byte} (h : lens.sum ≤ data.length) (b : ℕ) :
    (dataBlock lens data b).length = lens.getD b 0 := by
  have hle := blockOffset_add_le lens b
  rw [dataBlock, List.length_take, List.length_drop, Nat.min_eq_left (by omega)]

theorem getElem?_dataBlock {lens : List ℕ} (data : List Byte) {b i : ℕ} (hi : i < lens.getD b 0) :
    (dataBlock lens data b)[i]? = data[blockOffset lens b + i]? := by
  rw [dataBlock, List.getElem?_take_of_lt hi, List.getElem?_drop]

theorem State.getElem?_readBytes (s : State) (base : ℕ) {n i : ℕ} (h : i < n) :
    (s.readBytes base n)[i]? = some (s.readByte (base + i)) := by
  simp [State.readBytes_eq, h]

/-- A block of a range of bytes is a range of bytes. -/
theorem dataBlock_readBytes (s : State) (base : ℕ) {lens : List ℕ} {n : ℕ} (h : lens.sum ≤ n) (b : ℕ) :
    dataBlock lens (s.readBytes base n) b = s.readBytes (base + blockOffset lens b) (lens.getD b 0) := by
  obtain ⟨r, rfl⟩ := Nat.exists_eq_add_of_le ((blockOffset_add_le lens b).trans h)
  rw [dataBlock, Nat.add_assoc, State.readBytes_add, List.drop_left' (s.length_readBytes _ _), State.readBytes_add,
    List.take_left' (s.length_readBytes _ _)]

/-! ### Positions in the interleaved stream -/

/-- Round `i` takes byte `i` of every block that has one (42_reed_solomon R310). -/
def interleaveRound (blocks : List (List Byte)) (i : ℕ) : List Byte := blocks.filterMap fun b => b[i]?

theorem interleave_succ (n : ℕ) (blocks : List (List Byte)) :
    interleave (n + 1) blocks = interleave n blocks ++ interleaveRound blocks n := by
  rw [interleave, List.range_succ, List.flatMap_append, List.flatMap_singleton]
  rfl

theorem length_interleaveRound (blocks : List (List Byte)) (i : ℕ) :
    (interleaveRound blocks i).length = (blocks.map List.length).countP fun n => decide (i < n) := by
  rw [interleaveRound, List.length_filterMap_eq_countP, List.countP_map]
  exact List.countP_congr fun b _ => by simp

/-- In its round byte `i` of block `b` comes after those of the earlier blocks that have one. -/
theorem getElem?_interleaveRound {blocks : List (List Byte)} {block : List Byte} {b i : ℕ}
    (hb : blocks[b]? = some block) (hi : i < block.length) :
    (interleaveRound blocks i)[((blocks.map List.length).take b).countP fun n => decide (i < n)]? = block[i]? := by
  obtain ⟨hlt, rfl⟩ := List.getElem?_eq_some_iff.mp hb
  have hget := List.getElem?_eq_getElem hi
  have hsplit : interleaveRound blocks i =
      interleaveRound (blocks.take b) i ++ blocks[b][i] :: interleaveRound (blocks.drop (b + 1)) i := by
    conv_lhs => rw [interleaveRound, ← List.take_append_drop b blocks, List.drop_eq_getElem_cons hlt]
    rw [List.filterMap_append, List.filterMap_cons_some (f := fun d => d[i]?) hget]
    rfl
  rw [← List.map_take, ← length_interleaveRound, hsplit, List.getElem?_append_right le_rfl, Nat.sub_self,
    List.getElem?_cons_zero, hget]

theorem sum_map_min_succ (lens : List ℕ) (n : ℕ) :
    (lens.map (min (n + 1))).sum = (lens.map (min n)).sum + lens.countP fun k => decide (n < k) := by
  induction lens with
  | nil => rfl
  | cons k lens ih =>
    rw [List.map_cons, List.sum_cons, ih, List.map_cons, List.sum_cons, List.countP_cons]
    by_cases h : n < k <;> simp [h] <;> omega

/-- After `n` rounds every block has given its first `n` bytes. -/
theorem length_interleave (n : ℕ) (blocks : List (List Byte)) :
    (interleave n blocks).length = ((blocks.map List.length).map (min n)).sum := by
  induction n with
  | zero => simp [interleave, Function.comp_def]
  | succ n ih => rw [interleave_succ, List.length_append, ih, length_interleaveRound, sum_map_min_succ]

theorem interleave_prefix {m n : ℕ} (h : m ≤ n) (blocks : List (List Byte)) :
    interleave m blocks <+: interleave n blocks := by
  induction n, h using Nat.le_induction with
  | base => exact List.prefix_rfl
  | succ n _ ih => exact ih.trans (interleave_succ n blocks ▸ List.prefix_append _ _)

/-- Byte `i` of block `b` comes after the first `i` rounds and the earlier blocks of its own round. -/
theorem getElem?_interleave {blocks : List (List Byte)} {block : List Byte} {n b i : ℕ} (hn : i < n)
    (hb : blocks[b]? = some block) (hi : i < block.length) :
    (interleave n blocks)[dataPosition (blocks.map List.length) b i]? = block[i]? := by
  have hround : (interleave (i + 1) blocks)[dataPosition (blocks.map List.length) b i]? = block[i]? := by
    rw [interleave_succ, dataPosition, ← length_interleave, List.getElem?_append_right (Nat.le_add_right _ _),
      Nat.add_sub_cancel_left, getElem?_interleaveRound hb hi]
  obtain ⟨hlt, -⟩ := List.getElem?_eq_some_iff.mp (hround.trans (List.getElem?_eq_getElem hi))
  obtain ⟨rest, hrest⟩ := interleave_prefix hn blocks
  rw [← hrest, List.getElem?_append_left hlt, hround]

/-- Enough rounds take every byte. -/
theorem length_interleave_of_le {n : ℕ} {blocks : List (List Byte)} (h : ∀ l ∈ blocks.map List.length, l ≤ n) :
    (interleave n blocks).length = (blocks.map List.length).sum := by
  rw [length_interleave, List.map_congr_left fun l hl => Nat.min_eq_right (h l hl), List.map_id']

/-- Blocks of one length are interleaved as a matrix read by columns. -/
theorem dataPosition_replicate {m l b i : ℕ} (hb : b ≤ m) (hi : i < l) :
    dataPosition (List.replicate m l) b i = i * m + b := by
  simp [dataPosition, List.countP_replicate, hi, hi.le, hb, Nat.mul_comm]

/-! ### The block table -/

/-- The data of the blocks fill the data capacity, and with the parities the whole stream (42_reed_solomon R301). -/
theorem blockTable_sums : ∀ v ∈ versions, ∀ e ≤ 3, (blockLengths v e).sum = dcap v e ∧
    dcap v e + ecPerBlock v e * (blockLengths v e).length = tcw v := by decide

/-- The rounds of the data reach the longest block (42_reed_solomon R310). -/
theorem le_rounds_of_mem_blockLengths : ∀ v ∈ versions, ∀ e ≤ 3, ∀ l ∈ blockLengths v e,
    l ≤ (blockLengths v e).foldl max 0 := by decide

theorem tcw_le : ∀ v ∈ versions, tcw v ≤ 256 := by decide

/-! ### The codeword stream -/

/-- The parity of every block of `data` (42_reed_solomon R310). -/
def blockParities (v e : ℕ) (data : List Byte) : List (List Byte) :=
  (splitBlocks (blockLengths v e) data).map fun b => rsParity b (ecPerBlock v e)

theorem codewordStream_eq (v e : ℕ) (data : List Byte) : codewordStream v e data =
    interleave ((blockLengths v e).foldl max 0) (splitBlocks (blockLengths v e) data) ++
      interleave (ecPerBlock v e) (blockParities v e data) := rfl

theorem map_length_blockParities (v e : ℕ) (data : List Byte) :
    (blockParities v e data).map List.length = List.replicate (blockLengths v e).length (ecPerBlock v e) := by
  simp [blockParities, Function.comp_def]

section Stream
variable {v e : ℕ} (hv : v ∈ versions) (he : e ≤ 3) {data : List Byte} (hdata : data.length = dcap v e)
include hv he hdata

theorem sum_blockLengths_le : (blockLengths v e).sum ≤ data.length := by rw [(blockTable_sums v hv e he).1, hdata]

theorem length_interleave_dataBlocks :
    (interleave ((blockLengths v e).foldl max 0) (splitBlocks (blockLengths v e) data)).length = dcap v e := by
  have hlens := map_length_splitBlocks (sum_blockLengths_le hv he hdata)
  rw [length_interleave_of_le (by rw [hlens]; exact le_rounds_of_mem_blockLengths v hv e he), hlens,
    (blockTable_sums v hv e he).1]

theorem length_codewordStream : (codewordStream v e data).length = tcw v := by
  have hparity : (interleave (ecPerBlock v e) (blockParities v e data)).length =
      ecPerBlock v e * (blockLengths v e).length := by
    rw [length_interleave_of_le (by simp [map_length_blockParities]), map_length_blockParities, List.sum_replicate,
      smul_eq_mul, Nat.mul_comm]
  rw [codewordStream_eq, List.length_append, length_interleave_dataBlocks hv he hdata, hparity,
    (blockTable_sums v hv e he).2]

/-- Byte `i` of block `b` at its place among the data codewords. -/
theorem getElem?_codewordStream_data {b i : ℕ} (hb : b < (blockLengths v e).length)
    (hi : i < (blockLengths v e).getD b 0) :
    (codewordStream v e data)[dataPosition (blockLengths v e) b i]? = data[blockOffset (blockLengths v e) b + i]? := by
  have hsum := sum_blockLengths_le hv he hdata
  have hrounds : i < (blockLengths v e).foldl max 0 := by
    refine hi.trans_le (le_rounds_of_mem_blockLengths v hv e he _ ?_)
    rw [List.getD_eq_getElem _ _ hb]
    exact List.getElem_mem hb
  have hi' : i < (dataBlock (blockLengths v e) data b).length := by rwa [length_dataBlock hsum]
  have hget := getElem?_interleave hrounds (getElem?_splitBlocks data hb) hi'
  rw [map_length_splitBlocks hsum] at hget
  obtain ⟨hpos, -⟩ := List.getElem?_eq_some_iff.mp (hget.trans (List.getElem?_eq_getElem hi'))
  rw [codewordStream_eq, List.getElem?_append_left hpos, hget, getElem?_dataBlock data hi]

/-- Byte `i` of the parity of block `b` at its place after the data codewords. -/
theorem getElem?_codewordStream_parity {b i : ℕ} (hb : b < (blockLengths v e).length) (hi : i < ecPerBlock v e) :
    (codewordStream v e data)[dcap v e + (i * (blockLengths v e).length + b)]? =
      (rsParity (dataBlock (blockLengths v e) data b) (ecPerBlock v e))[i]? := by
  have hblock : (blockParities v e data)[b]? =
      some (rsParity (dataBlock (blockLengths v e) data b) (ecPerBlock v e)) := by
    rw [blockParities, List.getElem?_map, getElem?_splitBlocks data hb]
    rfl
  have hget := getElem?_interleave hi hblock (by rwa [length_rsParity])
  rw [map_length_blockParities, dataPosition_replicate hb.le hi] at hget
  rw [codewordStream_eq, ← length_interleave_dataBlocks hv he hdata,
    List.getElem?_append_right (Nat.le_add_right _ _), Nat.add_sub_cancel_left, hget]

end Stream

/-! ### ECCIL -/

theorem exec_eccil (s : State) : exec .eccil s = complete (cmdEccil s) s := rfl

/-- The data codewords in DBUF (42_reed_solomon R310). -/
def State.dataCodewords (s : State) : List Byte := s.readBytes dbufBase (dcap s.ver s.ecl)

/-- The stream ECCIL writes, from the state (42_reed_solomon R310). -/
def State.finalCodewords (s : State) : List Byte := codewordStream s.ver s.ecl s.dataCodewords

theorem State.length_dataCodewords (s : State) : s.dataCodewords.length = dcap s.ver s.ecl := s.length_readBytes _ _

theorem cmdEccil_eq (s : State) : cmdEccil s =
    .ok { s.writeBytes cbufBase s.finalCodewords with result0 := word s.finalCodewords.length } := rfl

section Legal
variable {s : State} (hsym : SymLegal s)
include hsym

theorem State.ver_mem_versions : s.ver ∈ versions := by
  obtain ⟨hver, -, -⟩ := hsym
  simp only [versions, List.mem_cons, List.not_mem_nil, or_false]
  omega

theorem State.ecl_le_three : s.ecl ≤ 3 := by
  obtain ⟨-, hecl, -⟩ := hsym
  exact hecl

theorem State.length_finalCodewords : s.finalCodewords.length = tcw s.ver :=
  length_codewordStream (State.ver_mem_versions hsym) (State.ecl_le_three hsym) s.length_dataCodewords

/-- CBUF holds the stream, byte by byte. -/
theorem State.readByte_of_finalCodewords {k : ℕ} {b : Byte} (h : s.finalCodewords[k]? = some b) :
    (s.writeBytes cbufBase s.finalCodewords).readByte (cbufBase + k) = b := by
  obtain ⟨hk, rfl⟩ := List.getElem?_eq_some_iff.mp h
  refine s.readByte_writeBytes_buffer ?_ hk
  have hle := tcw_le s.ver (State.ver_mem_versions hsym)
  rw [State.length_finalCodewords hsym]
  unfold InBuffers cbufBase
  omega

theorem State.getElem?_finalCodewords_data {b i : ℕ} (hb : b < (blockLengths s.ver s.ecl).length)
    (hi : i < (blockLengths s.ver s.ecl).getD b 0) :
    s.finalCodewords[dataPosition (blockLengths s.ver s.ecl) b i]? =
      some (s.readByte (dbufBase + (blockOffset (blockLengths s.ver s.ecl) b + i))) := by
  have hv := State.ver_mem_versions hsym
  have he := State.ecl_le_three hsym
  have hle := blockOffset_add_le (blockLengths s.ver s.ecl) b
  rw [(blockTable_sums _ hv _ he).1] at hle
  rw [State.finalCodewords, getElem?_codewordStream_data hv he s.length_dataCodewords hb hi]
  exact s.getElem?_readBytes _ (by omega)

theorem State.dataBlock_dataCodewords (b : ℕ) : dataBlock (blockLengths s.ver s.ecl) s.dataCodewords b =
    s.readBytes (dbufBase + blockOffset (blockLengths s.ver s.ecl) b) ((blockLengths s.ver s.ecl).getD b 0) :=
  dataBlock_readBytes s dbufBase (blockTable_sums _ (State.ver_mem_versions hsym) _ (State.ecl_le_three hsym)).1.le b

/-- The bytes at the places of block `b`'s parity are its parity. -/
theorem State.map_readByte_parity {b : ℕ} (hb : b < (blockLengths s.ver s.ecl).length) :
    ((List.range (ecPerBlock s.ver s.ecl)).map fun i => (s.writeBytes cbufBase s.finalCodewords).readByte
        (cbufBase + dcap s.ver s.ecl + i * (blockLengths s.ver s.ecl).length + b)) =
      rsParity (dataBlock (blockLengths s.ver s.ecl) s.dataCodewords b) (ecPerBlock s.ver s.ecl) := by
  have hv := State.ver_mem_versions hsym
  have he := State.ecl_le_three hsym
  refine List.ext_getElem (by simp) fun i hi hi' => ?_
  rw [List.getElem_map, List.getElem_range, Nat.add_assoc, Nat.add_assoc]
  rw [length_rsParity] at hi'
  refine State.readByte_of_finalCodewords hsym ?_
  rw [State.finalCodewords, getElem?_codewordStream_parity hv he s.length_dataCodewords hb hi']
  exact List.getElem?_eq_getElem _

end Legal

/-- Settles O23: every byte of a block has its place by the rounds before it and the earlier blocks of its own, among
the data and among the parities alike, and a block with its parity is a codeword. -/
theorem interleavedStream : Obligations.InterleavedStream := by
  unfold Obligations.InterleavedStream
  intro s hsym
  have hlen := State.length_finalCodewords hsym
  refine ⟨_, by rw [exec_eccil, cmdEccil_eq, complete_ok], ?regs, ?kept, ?data, ?codeword⟩
  case regs =>
    rw [hlen]
    rfl
  case kept => exact hlen ▸ s.bytesKept_writeBytes cbufBase s.finalCodewords
  case data =>
    intro b i hb hi
    rw [Nat.add_assoc 0x200]
    exact State.readByte_of_finalCodewords hsym (State.getElem?_finalCodewords_data hsym hb hi)
  case codeword =>
    intro b j hb hj
    have hparity := State.map_readByte_parity hsym hb
    have hblock := (State.dataBlock_dataCodewords hsym b).symm
    exact (congrArg (evalPoly · _) (congrArg₂ (· ++ ·) hblock hparity)).trans (evalPoly_append_rsParity _ hj)

end Sys2Proof.Machine
end

