-- ==== Sys2Proof/Proofs/Patterns.lean ====
section
/-! MCLEAR and the pattern stampers: each stamper draws one picture into an area of the symbol, reserves its cells and
moves the matrix builder on (43_matrix R350 to R370). -/

namespace Sys2Proof.Machine
open Sys2Proof.Claims

/-! ### Stamping -/

theorem State.bytesKept_stamp (s : State) (f : Nat → Nat → Option Byte) : BytesKept s (s.stamp f) InMat := fun a ha =>
  s.readByte_stamp_of_not_mat f a (Bool.eq_false_iff.mpr (mt (isMatAddr_iff a).mp ha))

/-- The byte of a reserved cell (10_state R46). -/
theorem cellByte_decide_reserved (p : Prop) [Decidable p] : cellByte (decide p) true = if p then 3#8 else 2#8 := by
  by_cases h : p <;> simp only [h, decide_true, decide_false, if_true, if_false] <;> rfl

/-- The supported sizes, 21 to 41: the symbol lies in MAT (10_state R40). -/
theorem State.size_bounds {s : State} (h : SymLegal s) : 21 ≤ s.size ∧ s.size ≤ 41 := by
  obtain ⟨hver, -, hsize⟩ := h
  omega

/-! ### Stampers -/

section Stamper
variable (s : State) (f : Nat → Nat → Option Byte) (area dark : Nat → Nat → Prop) [∀ r c, Decidable (dark r c)]

/-- `f` writes the cells of `area`, all of them symbol cells, reserved and dark where `dark` holds, and no other symbol
cell. -/
structure Draws : Prop where
  inSymbol : ∀ {r c}, area r c → InSymbol s r c
  written : ∀ {r c}, area r c → f r c = some (cellByte (decide (dark r c)) true)
  kept : ∀ {r c}, InSymbol s r c → ¬ area r c → f r c = none

/-- `t` is `s` after the completion of a stamper that leaves MSTATE at `m`. -/
def Drawn (t : State) (m : MState) : Prop :=
  t = { s with mem := t.mem, pend := none, status := okStatus s.status m } ∧
  CellsKept s t area ∧
  ∀ r c, area r c → t.readByte (0x1000 + 64 * r + c) = if dark r c then 3#8 else 2#8

/-- The effect common to the stampers: the check of MSTATE, the cells, the new MSTATE (43_matrix R355 to R370). -/
def stampEffect (accepted : Bool) (m : MState) : Except CmdError State := do
  checkSequence accepted
  return (s.stampSymbol f).setMState m

variable {s f area dark} (hdraws : Draws s f area dark)
include hdraws

theorem Draws.cell_stampSymbol_of_not {r c : Nat} (hr : r < 41) (hc : c < 64) (h : ¬ area r c) :
    (s.stampSymbol f).cell r c = s.cell r c := by
  rw [s.cell_stampSymbol f r c hr hc]
  split
  next hin => rw [hdraws.kept hin h, Option.map_none, Option.getD_none]
  next => rfl

variable (hsym : SymLegal s)
include hsym

theorem Draws.cell_stampSymbol {r c : Nat} (h : area r c) :
    (s.stampSymbol f).cell r c = if dark r c then 3#8 else 2#8 := by
  obtain ⟨-, h41⟩ := State.size_bounds hsym
  have hin : r < s.size ∧ c < s.size := hdraws.inSymbol h
  rw [s.cell_stampSymbol f r c (by omega) (by omega), if_pos hin, hdraws.written h, Option.map_some, Option.getD_some,
    cellByte_and_three, cellByte_decide_reserved]

theorem Draws.drawn (m : MState) : Drawn s area dark ((s.stampSymbol f).setMState m).finish m :=
  ⟨rfl, ⟨s.bytesKept_stamp _, fun _ _ hr hc h => hdraws.cell_stampSymbol_of_not hr hc h⟩,
    fun _ _ h => hdraws.cell_stampSymbol hsym h⟩

/-- In an accepted MSTATE a stamper draws its picture; in any other it raises SequenceError (60_exceptions R550). -/
theorem Draws.drawn_or_fails {i : Instr} {accepted : Bool} {p : Prop} {m : MState}
    (hexec : exec i s = complete (stampEffect s f accepted m) s) (haccepted : accepted = true ↔ p) :
    (p → ∃ t, exec i s = .next t ∧ Drawn s area dark t m) ∧ (¬ p → Fails i s .sequenceError) := by
  rw [← haccepted]
  refine ⟨fun h => ⟨_, ?accepted, hdraws.drawn hsym m⟩, fun h => fails_of_effect_error hexec ?refused⟩
  case accepted => rw [hexec, h]; rfl
  case refused => rw [Bool.eq_false_iff.mpr h]; rfl

end Stamper

/-! ### MCLEAR -/

theorem exec_mclear (s : State) : exec .mclear s = complete (cmdMclear s) s := rfl

/-- Settles O28: every MAT cell is written with 0, and no byte outside MAT. -/
theorem matrixClears : Obligations.MatrixClears := by
  unfold Obligations.MatrixClears
  intro s
  exact ⟨_, exec_mclear s, rfl, fun r c hr hc => s.cell_clearMat r c hr hc, s.bytesKept_stamp _⟩

/-! ### Rings around a centre -/

/-- The cells within distance `k` of a centre are a square. -/
theorem ringOf_le_iff {p : Nat × Nat} {r c k : Nat} :
    ringOf p r c ≤ k ↔ (p.1 ≤ r + k ∧ r ≤ p.1 + k) ∧ (p.2 ≤ c + k ∧ c ≤ p.2 + k) := by
  unfold ringOf absDiff
  omega

/-! ### STFIND -/

theorem exec_stfind (s : State) : exec .stfind s =
    complete (stampEffect s (finderCell s.size) (s.status.mstate == .empty) .finder) s := rfl

/-- Row or column `i` counted from the nearer border of the symbol. -/
def fromBorder (size i : Nat) : Nat := min i (size - 1 - i)

/-- The picture is light at distances 2 and 4 from its centre (43_matrix R355). -/
theorem decide_finderPicture_eq_one : ∀ r < 8, ∀ c < 8,
    decide ((finderPicture.getD r []).getD c 0 = 1) = !(ringOf (3, 3) r c == 2 || ringOf (3, 3) r c == 4) := by
  decide

section Finder
variable {size r c : Nat} (hsize : 21 ≤ size)
include hsize

/-- The three corners are the cells within distance 4 of a centre. -/
theorem inCorner_iff_exists_ringOf_le (hr : r < size) (hc : c < size) :
    InCorner size r c ↔ ∃ p ∈ finderCentres size, ringOf p r c ≤ 4 := by
  simp only [InCorner, finderCentres, List.mem_cons, List.not_mem_nil, or_false, exists_eq_or_imp, exists_eq_left,
    ringOf_le_iff]
  omega

/-- A pattern is as far from its border as its mirror image is. -/
theorem absDiff_eq_fromBorder {i centre : Nat} (hi : i < size) (hcentre : centre = 3 ∨ centre = size - 4)
    (h : absDiff i centre ≤ 4) : absDiff i centre = absDiff (fromBorder size i) 3 := by
  unfold absDiff fromBorder at *
  obtain rfl | rfl := hcentre <;> omega

/-- The three patterns are mirror images: each looks as the first one does from the nearer borders. -/
theorem ringOf_eq_fromBorder (hr : r < size) (hc : c < size) {p : Nat × Nat} (hp : p ∈ finderCentres size)
    (hring : ringOf p r c ≤ 4) : ringOf p r c = ringOf (3, 3) (fromBorder size r) (fromBorder size c) := by
  have hcentre : (p.1 = 3 ∨ p.1 = size - 4) ∧ (p.2 = 3 ∨ p.2 = size - 4) := by
    simp only [finderCentres, List.mem_cons, List.not_mem_nil, or_false] at hp
    obtain rfl | rfl | rfl := hp <;> simp
  obtain ⟨hrow, hcol⟩ := max_le_iff.mp hring
  exact congrArg₂ max (absDiff_eq_fromBorder hsize hr hcentre.1 hrow) (absDiff_eq_fromBorder hsize hc hcentre.2 hcol)

theorem fromBorder_lt_eight_of_inCorner (h : InCorner size r c) : fromBorder size r < 8 ∧ fromBorder size c < 8 := by
  unfold InCorner at h
  unfold fromBorder
  omega

theorem lt_size_of_inCorner (h : InCorner size r c) : r < size ∧ c < size := by
  unfold InCorner at h
  omega

theorem finderCell_of_inCorner (h : InCorner size r c) :
    finderCell size r c = some (cellByte (decide (cornerValue size r c = 1)) true) := by
  obtain ⟨hr, hc⟩ := lt_size_of_inCorner hsize h
  obtain ⟨hr8, hc8⟩ := fromBorder_lt_eight_of_inCorner hsize h
  obtain ⟨p, hp, hring⟩ := (inCorner_iff_exists_ringOf_le hsize hr hc).mp h
  have hsome : ((finderCentres size).find? fun p => decide (ringOf p r c ≤ 4)).isSome :=
    List.find?_isSome.mpr ⟨p, hp, decide_eq_true hring⟩
  obtain ⟨q, hq⟩ := Option.isSome_iff_exists.mp hsome
  have hqring := ringOf_eq_fromBorder hsize hr hc (List.mem_of_find?_eq_some hq) (by simpa using List.find?_some hq)
  have hdark : decide (cornerValue size r c = 1) = !(ringOf q r c == 2 || ringOf q r c == 4) := by
    rw [hqring]
    exact decide_finderPicture_eq_one _ hr8 _ hc8
  rw [finderCell, hq, Option.map_some, hdark]

theorem finderCell_of_not_inCorner (hr : r < size) (hc : c < size) (h : ¬ InCorner size r c) :
    finderCell size r c = none := by
  rw [inCorner_iff_exists_ringOf_le hsize hr hc] at h
  rw [finderCell, Option.map_eq_none_iff, List.find?_eq_none]
  exact fun p hp hring => h ⟨p, hp, of_decide_eq_true hring⟩

end Finder

theorem draws_finderCell {s : State} (hsym : SymLegal s) : Draws s (finderCell s.size) (InCorner s.size)
    (cornerValue s.size · · = 1) := by
  obtain ⟨h21, -⟩ := State.size_bounds hsym
  exact ⟨lt_size_of_inCorner h21, finderCell_of_inCorner h21,
    fun ⟨hr, hc⟩ h => finderCell_of_not_inCorner h21 hr hc h⟩

/-- Settles O29: the corners are the cells within distance 4 of a centre, and the distance fixes the module. -/
theorem finderPatternsStamped : Obligations.FinderPatternsStamped := by
  unfold Obligations.FinderPatternsStamped
  intro s hsym
  exact (draws_finderCell hsym).drawn_or_fails hsym (exec_stfind s) beq_iff_eq

/-! ### STALIGN -/

theorem exec_stalign (s : State) : exec .stalign s =
    complete (stampEffect s (alignCell s.ver) (s.status.mstate == .finder) .align) s := rfl

/-- Of the pairs of alignment coordinates only `(S − 7, S − 7)` is no finder corner (43_matrix R360). -/
theorem alignCentres_eq : ∀ v ∈ versions,
    alignCentres v = if 2 ≤ v then [(sizeOf v - 7, sizeOf v - 7)] else [] := by decide

/-- The 25 cells around `(S − 7, S − 7)`, from version 2 on (43_matrix R360). -/
def InAlignment (s : State) (r c : Nat) : Prop :=
  2 ≤ s.ver ∧ (s.size - 9 ≤ r ∧ r ≤ s.size - 5) ∧ (s.size - 9 ≤ c ∧ c ≤ s.size - 5)

/-- The light ring: the 3 × 3 cells around `(S − 7, S − 7)` without the centre (43_matrix R360). -/
abbrev InLightRing (size r c : Nat) : Prop :=
  (size - 8 ≤ r ∧ r ≤ size - 6) ∧ (size - 8 ≤ c ∧ c ≤ size - 6) ∧ ¬ (r = size - 7 ∧ c = size - 7)

section Align
variable {size r c : Nat} (hsize : 21 ≤ size)
include hsize

theorem ringOf_alignment_le_two_iff : ringOf (size - 7, size - 7) r c ≤ 2 ↔
    (size - 9 ≤ r ∧ r ≤ size - 5) ∧ (size - 9 ≤ c ∧ c ≤ size - 5) := by
  rw [ringOf_le_iff]
  omega

theorem ringOf_alignment_eq_one_iff : ringOf (size - 7, size - 7) r c = 1 ↔ InLightRing size r c := by
  have hone := ringOf_le_iff (p := (size - 7, size - 7)) (r := r) (c := c) (k := 1)
  have hzero := ringOf_le_iff (p := (size - 7, size - 7)) (r := r) (c := c) (k := 0)
  unfold InLightRing
  omega

end Align

theorem alignCell_eq {s : State} (hsym : SymLegal s) (r c : Nat) : alignCell s.ver r c =
    if 2 ≤ s.ver ∧ ringOf (s.size - 7, s.size - 7) r c ≤ 2
    then some (cellByte (!(ringOf (s.size - 7, s.size - 7) r c == 1)) true) else none := by
  have hver := State.ver_mem_versions hsym
  obtain ⟨-, -, hsize⟩ := hsym
  rw [alignCell, alignCentres_eq s.ver hver, sizeOf, ← hsize]
  by_cases hv : 2 ≤ s.ver
  · by_cases hring : ringOf (s.size - 7, s.size - 7) r c ≤ 2 <;> simp [hv, hring]
  · simp [hv]

theorem draws_alignCell {s : State} (hsym : SymLegal s) : Draws s (alignCell s.ver) (InAlignment s)
    (¬ InLightRing s.size · ·) := by
  obtain ⟨h21, -⟩ := State.size_bounds hsym
  have harea : ∀ r c, InAlignment s r c ↔ 2 ≤ s.ver ∧ ringOf (s.size - 7, s.size - 7) r c ≤ 2 := fun r c =>
    and_congr_right fun _ => (ringOf_alignment_le_two_iff h21).symm
  refine ⟨fun {r c} h => ?inSymbol, fun {r c} h => ?written, fun {r c} _ h => ?kept⟩
  case inSymbol =>
    obtain ⟨-, hr, hc⟩ := h
    exact ⟨show r < s.size by omega, show c < s.size by omega⟩
  case written =>
    have hlight : (ringOf (s.size - 7, s.size - 7) r c == 1) = decide (InLightRing s.size r c) :=
      (beq_eq_decide _ _).trans (decide_eq_decide.mpr (ringOf_alignment_eq_one_iff h21))
    rw [alignCell_eq hsym, if_pos ((harea r c).mp h), hlight, decide_not]
  case kept => rw [alignCell_eq hsym, if_neg (mt (harea r c).mpr h)]

/-- Settles O30: one centre from version 2 on and none at version 1, and the distance from it fixes the module. -/
theorem alignmentPatternStamped : Obligations.AlignmentPatternStamped := by
  unfold Obligations.AlignmentPatternStamped
  intro s hsym
  obtain ⟨hdrawn, hfails⟩ := (draws_alignCell hsym).drawn_or_fails hsym (exec_stalign s) beq_iff_eq
  refine ⟨fun h => ?drawn, hfails⟩
  case drawn =>
    obtain ⟨t, ht, hframe, hkept, hcells⟩ := hdrawn h
    refine ⟨t, ht, hframe, hkept, fun hv r c hr hr' hc hc' => ?_⟩
    rw [hcells r c ⟨hv, ⟨hr, hr'⟩, hc, hc'⟩, ite_not]

/-! ### STTIME -/

theorem exec_sttime (s : State) : exec .sttime s =
    complete (stampEffect s (timingCell s) (timingAccepted s) .timing) s := rfl

theorem timingAccepted_iff (s : State) : timingAccepted s = true ↔
    s.status.mstate = .align ∨ (s.status.mstate = .finder ∧ s.ver = 1) := by
  simp [timingAccepted]

/-- The cells of row 6 and column 6 that are not reserved (43_matrix R365). -/
def InTiming (s : State) (r c : Nat) : Prop := InSymbol s r c ∧ (r = 6 ∨ c = 6) ∧ rAt s r c = false

/-- The index of a timing cell along its line (43_matrix R365). -/
def timingIndex (r c : Nat) : Nat := if r = 6 then c else r

theorem timingIndex_column (i : Nat) : timingIndex i 6 = i := by
  unfold timingIndex
  split <;> omega

theorem draws_timingCell (s : State) : Draws s (timingCell s) (InTiming s) (timingIndex · · % 2 = 0) where
  inSymbol h := h.1
  written {r c} h := by
    obtain ⟨-, hline, hfree⟩ := h
    have hfree : rBit (s.cell r c) = false := hfree
    rw [timingCell, if_pos hline, if_neg (by simp [hfree])]
    rfl
  kept {r c} hin h := by
    rw [timingCell]
    split
    next hline =>
      have hreserved : rBit (s.cell r c) = true := by
        by_contra hfree
        exact h ⟨hin, hline, Bool.eq_false_iff.mpr hfree⟩
      rw [if_pos hreserved]
    next => rfl

/-- Settles O31: the cells written are the free ones of the two lines, dark by the parity of their index. -/
theorem timingPatternsStamped : Obligations.TimingPatternsStamped := by
  unfold Obligations.TimingPatternsStamped
  intro s hsym
  obtain ⟨h21, -⟩ := State.size_bounds hsym
  have h6 : 6 < s.size := by omega
  obtain ⟨hdrawn, hfails⟩ := (draws_timingCell s).drawn_or_fails hsym (exec_sttime s) (timingAccepted_iff s)
  refine ⟨fun h => ?drawn, hfails⟩
  case drawn =>
    obtain ⟨t, ht, hframe, hkept, hcells⟩ := hdrawn h
    refine ⟨t, ht, hframe, hkept, fun i hi hfree => ?row, fun i hi hfree => ?column⟩
    case row => exact hcells 6 i ⟨⟨h6, hi⟩, .inl rfl, hfree⟩
    case column => simpa only [timingIndex_column] using hcells i 6 ⟨⟨hi, h6⟩, .inr rfl, hfree⟩

/-! ### RSVFMT -/

/-- What RSVFMT writes to symbol cell `(r, c)` (43_matrix R370). -/
def formatAreaCell (size r c : Nat) : Option Byte :=
  if (formatCells size).contains (r, c) then some (cellByte false true) else none

theorem exec_rsvfmt (s : State) : exec .rsvfmt s =
    complete (stampEffect s (formatAreaCell s.size) (s.status.mstate == .timing) .fmtrsv) s := rfl

/-- `FH`: row 8 without columns 6 and 8, and its last eight columns (43_matrix R370). -/
theorem mem_formatRow_iff {size r c : Nat} (h : 21 ≤ size) : (r, c) ∈ formatRow size ↔
    r = 8 ∧ ((c ≤ 7 ∧ c ≠ 6) ∨ (size - 8 ≤ c ∧ c < size)) := by
  obtain ⟨d, rfl⟩ := Nat.exists_eq_add_of_le' h
  simp only [formatRow, List.mem_cons, List.not_mem_nil, or_false, Prod.mk.injEq, ← and_or_left, Nat.reduceSubDiff,
    Nat.add_one_sub_one]
  exact and_congr_right fun _ => by omega

/-- `FV`: column 8 without row 6, and its last seven rows (43_matrix R370). -/
theorem mem_formatCol_iff {size r c : Nat} (h : 21 ≤ size) : (r, c) ∈ formatCol size ↔
    ((r ≤ 8 ∧ r ≠ 6) ∨ (size - 7 ≤ r ∧ r < size)) ∧ c = 8 := by
  obtain ⟨d, rfl⟩ := Nat.exists_eq_add_of_le' h
  simp only [formatCol, List.mem_cons, List.not_mem_nil, or_false, Prod.mk.injEq, ← or_and_right, Nat.reduceSubDiff,
    Nat.add_one_sub_one]
  exact and_congr_left fun _ => by omega

/-- `FH`, `FV` and the dark module together are the format area (43_matrix R370). -/
theorem mem_formatCells_iff {size r c : Nat} (h : 21 ≤ size) : (r, c) ∈ formatCells size ↔ InFormat size r c := by
  simp only [formatCells, darkModule, List.mem_append, List.mem_singleton, Prod.mk.injEq, mem_formatRow_iff h,
    mem_formatCol_iff h, InFormat]
  omega

theorem draws_formatAreaCell {s : State} (hsym : SymLegal s) : Draws s (formatAreaCell s.size) (InFormat s.size)
    (fun _ _ => False) := by
  obtain ⟨h21, -⟩ := State.size_bounds hsym
  refine ⟨fun {r c} h => ?inSymbol, fun h => ?written, fun _ h => ?kept⟩
  case inSymbol =>
    unfold InFormat at h
    exact ⟨show r < s.size by omega, show c < s.size by omega⟩
  case written => rw [formatAreaCell, if_pos (List.contains_iff_mem.mpr ((mem_formatCells_iff h21).mpr h))]; rfl
  case kept => rw [formatAreaCell, if_neg fun hc => h ((mem_formatCells_iff h21).mp (List.contains_iff_mem.mp hc))]

/-- Settles O32: the 31 cells written are the format area with the dark module, each light and reserved. -/
theorem formatAreaReserved : Obligations.FormatAreaReserved := by
  unfold Obligations.FormatAreaReserved
  intro s hsym
  exact (draws_formatAreaCell hsym).drawn_or_fails hsym (exec_rsvfmt s) beq_iff_eq

end Sys2Proof.Machine
end

