-- ==== Sys2Proof/Proofs/Masks.lean ====
section
/-! The mask conditions, the mask applied to the symbol, and MAPPLY (44_mask R400 to R402). -/

namespace Sys2Proof.Machine
open Sys2Proof.Claims

/-! ### The conditions -/

/-- Settles O36: each condition is the Boolean test of its formula, and the pictures are closed. -/
theorem maskConditionPictures : Obligations.MaskConditionPictures := by
  unfold Obligations.MaskConditionPictures
  refine ⟨fun r c => ?formulas, rfl⟩
  case formulas =>
    exact ⟨beq_iff_eq, beq_iff_eq, beq_iff_eq, beq_iff_eq, beq_iff_eq, beq_iff_eq, beq_iff_eq, beq_iff_eq⟩

/-! ### One cell -/

@[simp] theorem vBit_and_three (b : Byte) : vBit (b &&& 3#8) = vBit b := by simp [vBit]
@[simp] theorem rBit_and_three (b : Byte) : rBit (b &&& 3#8) = rBit b := by simp [rBit]

/-- A mask flips V of a cell that is not reserved, where its condition holds (44_mask R401). -/
@[simp] theorem vBit_maskedCell (k r c : Nat) (b : Byte) :
    vBit (maskedCell k r c b) = (vBit b ^^ (!rBit b && maskCond k r c)) := by
  unfold maskedCell
  cases !rBit b && maskCond k r c <;> simp [vBit]

@[simp] theorem rBit_maskedCell (k r c : Nat) (b : Byte) : rBit (maskedCell k r c b) = rBit b := by
  unfold maskedCell
  split <;> simp [rBit]

/-- What is written where the mask flips a cell, and the old cell elsewhere, are together the masked cell. -/
theorem getD_maskWrite (k : Nat) (g : Grid) (r c : Nat) :
    (maskWrite k g r c).getD (g.at r c) = maskedCell k r c (g.at r c) := by
  unfold maskWrite maskedCell
  split <;> rfl

/-! ### The symbol -/

/-- The effect common to MAPPLY and MASKSEL: mask `k` over the symbol (44_mask R401). -/
def State.applyMask (s : State) (k : Nat) : State := s.stampSymbol (maskWrite k s.symCells)

/-- A bit that MAT holds reads after mask `k` as in the masked byte, in every symbol cell. -/
theorem State.bit_cell_applyMask {s : State} (hsym : SymLegal s) (k : Nat) {r c : Nat} (hin : InSymbol s r c)
    {bit : Byte → Bool} (hbit : ∀ b, bit (b &&& 3#8) = bit b) :
    bit ((s.applyMask k).cell r c) = bit (maskedCell k r c (s.cell r c)) := by
  obtain ⟨-, h41⟩ := State.size_bounds hsym
  have hin' : r < s.size ∧ c < s.size := hin
  have hget := getD_maskWrite k s.symCells r c
  rw [s.symCells_at r c hin'.1 hin'.2] at hget
  rw [State.applyMask, s.cell_stampSymbol _ r c (by omega) (by omega), if_pos hin', ← hget]
  cases maskWrite k s.symCells r c with
  | none => rfl
  | some b => exact hbit b

theorem maskApplied_applyMask {s : State} (hsym : SymLegal s) (k : Nat) : MaskApplied s (s.applyMask k) k := by
  refine ⟨⟨s.bytesKept_stamp _, fun r c hr hc hout => ?outside⟩, fun r c hin => ⟨?value, ?reserved⟩⟩
  case outside => exact (s.cell_stampSymbol _ r c hr hc).trans (if_neg hout)
  case value => exact (State.bit_cell_applyMask hsym k hin vBit_and_three).trans (vBit_maskedCell k r c _)
  case reserved => exact (State.bit_cell_applyMask hsym k hin rBit_and_three).trans (rBit_maskedCell k r c _)

/-! ### MAPPLY -/

theorem exec_mapply (k : BitVec 3) (s : State) : exec (.mapply k) s = complete (cmdMapply k s) s := rfl

theorem word_toNat (k : BitVec 3) : word k.toNat = k.setWidth 32 := BitVec.ofNat_toNat 32 k

/-- In DATA the mask is applied (44_mask R402). -/
theorem exec_mapply_of_data (k : BitVec 3) {s : State} (h : s.status.mstate = .data) :
    exec (.mapply k) s = .next (State.finish { (s.applyMask k.toNat).setMState .masked with
      sym := { s.sym with mask := k }, result0 := k.setWidth 32 }) := by
  rw [exec_mapply, cmdMapply, if_pos h, complete_ok, word_toNat]
  rfl

/-- In MASKED the mask of SYM is removed (44_mask R402). -/
theorem exec_mapply_of_masked {k : BitVec 3} {s : State} (h : s.status.mstate = .masked) (hk : k = s.sym.mask) :
    exec (.mapply k) s = .next (State.finish { (s.applyMask k.toNat).setMState .data with
      result0 := k.setWidth 32 }) := by
  rw [exec_mapply, cmdMapply, if_neg (by simp [h]), if_pos ⟨h, hk⟩, complete_ok, word_toNat]
  rfl

theorem cmdMapply_of_refused {k : BitVec 3} {s : State}
    (h : ¬ (s.status.mstate = .data ∨ (s.status.mstate = .masked ∧ k = s.sym.mask))) :
    cmdMapply k s = .error .sequenceError := by
  obtain ⟨hdata, hmasked⟩ := not_or.mp h
  rw [cmdMapply, if_neg hdata, if_neg hmasked]

/-- Settles O34, by MSTATE and the mask in SYM: both accepted cases flip the same cells. -/
theorem maskAppliesAndRemoves : Obligations.MaskAppliesAndRemoves := by
  unfold Obligations.MaskAppliesAndRemoves
  intro k s hsym
  have hmask := maskApplied_applyMask hsym k.toNat
  refine ⟨fun hdata => ?applied, fun hmasked hk => ?removed,
    fun h => fails_of_effect_error (exec_mapply k s) (cmdMapply_of_refused h)⟩
  case applied => exact ⟨_, exec_mapply_of_data k hdata, rfl, hmask⟩
  case removed => exact ⟨_, exec_mapply_of_masked hmasked hk, rfl, hmask⟩

end Sys2Proof.Machine
end

