-- ==== Sys2Proof/Proofs/Scores.lean ====
section
/-! The score of a matrix: the model's walk along a line finds the maximal runs, rule 4, the bound, and MSCORE (44_mask
R403 to R406). -/

namespace Sys2Proof.Machine
open Sys2Proof.Claims

/-! ### Maximal runs -/

/-- The lengths of the maximal runs that start at cell `a` of a line: at most one. -/
def runsAt (n : Nat) (line : Nat → Bool) (a : Nat) : List Nat :=
  ((List.range n).filter fun b => isMaximalRun n line a b).map fun b => b - a + 1

/-- Cells `p` to `p + k` have value `v`, and the cell before `p`, if there is one, has not. -/
structure StartsRun (line : Nat → Bool) (v : Bool) (p k : Nat) : Prop where
  value : ∀ i, p ≤ i → i ≤ p + k → line i = v
  start : p = 0 ∨ line (p - 1) ≠ v

section Line
variable {n : Nat} {line : Nat → Bool}

/-- The cells of a run are cells of the line, so its values need no bound of their own. -/
theorem isMaximalRun_iff {a b : Nat} : isMaximalRun n line a b = true ↔
    (a ≤ b ∧ b < n) ∧ (∀ i, a ≤ i → i ≤ b → line i = line a) ∧
      (a = 0 ∨ line (a - 1) ≠ line a) ∧ (b + 1 = n ∨ line (b + 1) ≠ line b) := by
  simp only [isMaximalRun, Bool.and_eq_true, Bool.or_eq_true, Bool.not_eq_true', Bool.and_eq_false_iff,
    decide_eq_true_eq, decide_eq_false_iff_not, beq_iff_eq, bne_iff_ne, List.all_eq_true, List.mem_range]
  grind

/-- A run goes on from its start until the value changes, so no second one starts there. -/
theorem end_eq_of_isMaximalRun {a b b' : Nat} (h : isMaximalRun n line a b = true)
    (h' : isMaximalRun n line a b' = true) : b' = b := by
  wlog hlt : b < b' generalizing b b'
  · obtain heq | hgt := Nat.eq_or_lt_of_not_lt hlt
    · exact heq.symm
    · exact (this h' h hgt).symm
  obtain ⟨⟨hab, -⟩, hvalue, -, hend⟩ := isMaximalRun_iff.mp h
  obtain ⟨⟨-, hb'⟩, hvalue', -, -⟩ := isMaximalRun_iff.mp h'
  have hnext : line (b + 1) = line b := (hvalue' (b + 1) (by omega) hlt).trans (hvalue b hab le_rfl).symm
  exact absurd hnext (hend.resolve_left (by omega))

/-- No run starts inside another one. -/
theorem not_isMaximalRun_of_inside {p q a b : Nat} (h : isMaximalRun n line p q = true) (hpa : p < a) (haq : a ≤ q) :
    ¬ isMaximalRun n line a b = true := by
  obtain ⟨-, hvalue, -, -⟩ := isMaximalRun_iff.mp h
  intro hab
  obtain ⟨-, -, hstart, -⟩ := isMaximalRun_iff.mp hab
  have hprev : line (a - 1) = line a :=
    (hvalue (a - 1) (by omega) (by omega)).trans (hvalue a (by omega) haq).symm
  exact absurd hprev (hstart.resolve_left (by omega))

theorem runsAt_of_isMaximalRun {p q : Nat} (h : isMaximalRun n line p q = true) : runsAt n line p = [q - p + 1] := by
  obtain ⟨⟨-, hq⟩, -⟩ := isMaximalRun_iff.mp h
  have honly : (fun b => isMaximalRun n line p b) = fun b => b == q := by
    funext b
    rw [Bool.eq_iff_iff, beq_iff_eq]
    exact ⟨end_eq_of_isMaximalRun h, fun hb => hb ▸ h⟩
  rw [runsAt, honly, List.filter_beq, List.count_eq_one_of_mem List.nodup_range (List.mem_range.mpr hq)]
  rfl

theorem runsAt_of_inside {p q a : Nat} (h : isMaximalRun n line p q = true) (hpa : p < a) (haq : a ≤ q) :
    runsAt n line a = [] := by
  rw [runsAt, List.map_eq_nil_iff, List.filter_eq_nil_iff]
  exact fun b _ => not_isMaximalRun_of_inside h hpa haq

/-- Over the cells of one maximal run, one run starts. -/
theorem flatMap_runsAt_of_isMaximalRun {p k : Nat} (h : isMaximalRun n line p (p + k) = true) :
    (List.range' p (k + 1)).flatMap (runsAt n line) = [k + 1] := by
  have hinside : (List.range' (p + 1) k).flatMap (runsAt n line) = [] := by
    refine List.flatMap_eq_nil_iff.mpr fun a ha => ?_
    have hrange := List.mem_range'_1.mp ha
    exact runsAt_of_inside h (by omega) (by omega)
  rw [List.range'_succ, List.flatMap_cons, hinside, runsAt_of_isMaximalRun h, Nat.add_sub_cancel_left]
  rfl

theorem StartsRun.extend {v : Bool} {p k : Nat} (h : StartsRun line v p k) (hnext : line (p + k + 1) = v) :
    StartsRun line v p (k + 1) where
  value i hlo hhi := by
    obtain hlt | rfl := Nat.lt_or_eq_of_le hhi
    · exact h.value i hlo (by omega)
    · exact hnext
  start := h.start

theorem StartsRun.next {v : Bool} {p k : Nat} (h : StartsRun line v p k) (hnext : line (p + k + 1) ≠ v) :
    StartsRun line (line (p + k + 1)) (p + k + 1) 0 where
  value i hlo hhi := congrArg line (by omega)
  start := .inr (h.value (p + k) (by omega) le_rfl ▸ hnext.symm)

theorem StartsRun.isMaximalRun {v : Bool} {p k : Nat} (h : StartsRun line v p k) (hn : p + k < n)
    (hend : p + k + 1 = n ∨ line (p + k + 1) ≠ v) : isMaximalRun n line p (p + k) = true := by
  have hfirst : line p = v := h.value p le_rfl (by omega)
  have hlast : line (p + k) = v := h.value (p + k) (by omega) le_rfl
  rw [isMaximalRun_iff, hfirst, hlast]
  exact ⟨⟨by omega, hn⟩, h.value, h.start, hend⟩

/-- The walk on from cell `p + k` of a run that started at `p` gives the runs that start at `p` or later. -/
theorem runLengths_eq_flatMap_runsAt (rest : Nat) {v : Bool} {p k : Nat} (h : StartsRun line v p k)
    (hn : p + k + 1 + rest = n) : runLengths v (k + 1) ((List.range' (p + k + 1) rest).map line) =
      (List.range' p (k + 1 + rest)).flatMap (runsAt n line) := by
  induction rest generalizing v p k with
  | zero => exact (flatMap_runsAt_of_isMaximalRun (h.isMaximalRun (by omega) (.inl hn))).symm
  | succ rest ih =>
    rw [List.range'_succ, List.map_cons, runLengths]
    split
    next hsame =>
      have hcells : k + 1 + (rest + 1) = k + 1 + 1 + rest := by omega
      rw [hcells]
      exact ih (h.extend hsame) (by omega)
    next hother =>
      have hmax : isMaximalRun n line p (p + k) = true := h.isMaximalRun (by omega) (.inr hother)
      have hwalk := ih (h.next hother) (by omega)
      rw [Nat.add_comm 1 rest] at hwalk
      rw [← List.range'_append_1, List.flatMap_append, flatMap_runsAt_of_isMaximalRun hmax]
      exact congrArg ((k + 1) :: ·) hwalk

/-- The walk along a whole line finds its maximal runs, in order (44_mask R403). -/
theorem lineRuns_eq_flatMap_runsAt : lineRuns ((List.range n).map line) = (List.range n).flatMap (runsAt n line) := by
  cases n with
  | zero => rfl
  | succ k =>
    have hfirst : StartsRun line (line 0) 0 0 := ⟨fun i _ hhi => congrArg line (by omega), .inl rfl⟩
    have hwalk := runLengths_eq_flatMap_runsAt k hfirst (n := k + 1) (by omega)
    rw [Nat.zero_add, Nat.add_comm 1] at hwalk
    rw [List.range_eq_range', ← hwalk]
    rfl

/-! ### Rule 1 -/

theorem flatMap_runsAt_eq_map_filter : (List.range n).flatMap (runsAt n line) =
    ((square n).filter fun p => isMaximalRun n line p.1 p.2).map fun p => p.2 - p.1 + 1 := by
  simp only [square, List.filter_flatMap, List.map_flatMap, List.filter_map, List.map_map]
  rfl

/-- The pairs of cells summed in the statement are the runs the model's walk finds. -/
theorem lineScore_eq_linePenalty : lineScore n line = linePenalty ((List.range n).map line) := by
  have hsummand : ∀ p : Nat × Nat,
      (if isMaximalRun n line p.1 p.2 && decide (5 ≤ p.2 - p.1 + 1) then 3 + (p.2 - p.1 + 1 - 5) else 0) =
        if isMaximalRun n line p.1 p.2 = true then runPenalty (p.2 - p.1 + 1) else 0 := fun p => by
    simp only [runPenalty, Bool.and_eq_true, decide_eq_true_eq, ite_and]
  rw [linePenalty, lineRuns_eq_flatMap_runsAt, flatMap_runsAt_eq_map_filter, List.map_map]
  simp only [lineScore, hsummand, List.sum_map_ite]
  simp [Function.comp_def]

end Line

/-- Runs of `m` cells together add at most `m - 2` (44_mask R406). -/
theorem sum_runPenalty_runLengths_le (v : Bool) (n : Nat) (line : List Bool) :
    ((runLengths v n line).map runPenalty).sum ≤ n + line.length - 2 := by
  have hone : ∀ m, runPenalty m ≤ m - 2 := fun m => by
    unfold runPenalty
    split <;> omega
  induction line generalizing v n with
  | nil => simpa [runLengths] using hone n
  | cons b rest ih =>
    rw [runLengths, List.length_cons]
    split
    next => exact (ih v (n + 1)).trans (by omega)
    next =>
      have hrest := ih b 1
      have hn := hone n
      rw [List.map_cons, List.sum_cons]
      omega

theorem linePenalty_le (line : List Bool) : linePenalty line ≤ line.length - 2 := by
  cases line with
  | nil => exact Nat.le_refl 0
  | cons b rest =>
    have hruns := sum_runPenalty_runLengths_le b 1 rest
    rwa [Nat.add_comm 1] at hruns

/-! ### Square matrices -/

/-- The `n × n` matrix of the values `f`, row by row. -/
def matrixOf {α : Type} (n : Nat) (f : Nat → Nat → α) : List (List α) :=
  (List.range n).map fun r => (List.range n).map (f r)

section Matrix
variable {n : Nat} (m : Nat → Nat → Bool)

theorem column_matrixOf {c : Nat} (hc : c < n) : column (matrixOf n m) c = (List.range n).map fun r => m r c := by
  rw [column, matrixOf, List.map_map]
  exact List.map_congr_left fun r _ => by simp [hc]

theorem penalty1_matrixOf : penalty1 n (matrixOf n m) = rule1 n m := by
  have hrows : (matrixOf n m).map linePenalty = (List.range n).map fun r => lineScore n fun c => m r c := by
    rw [matrixOf, List.map_map]
    exact List.map_congr_left fun r _ => lineScore_eq_linePenalty.symm
  have hcols : ((List.range n).map fun c => linePenalty (column (matrixOf n m) c)) =
      (List.range n).map fun c => lineScore n fun r => m r c :=
    List.map_congr_left fun c hc => by rw [column_matrixOf m (List.mem_range.mp hc), lineScore_eq_linePenalty]
  rw [penalty1, rule1, hrows, hcols]

/-- The cells of a square counted row by row. -/
theorem darkCount_matrixOf : darkCount (matrixOf n m) = (square n).countP fun p => m p.1 p.2 := by
  rw [darkCount, matrixOf, List.map_map, square, List.countP_flatMap]
  refine congrArg List.sum (List.map_congr_left fun r _ => ?_)
  simp [List.count_eq_countP, List.countP_map, Function.comp_def]

/-- Of the multiples `5·k` and `5·(k + 1)`, the second is the nearer to 50 up to `k = 9`, and the first from there on
(44_mask R403, R406). -/
theorem penalty4_matrixOf : penalty4 n (matrixOf n m) = rule4 n m := by
  rw [penalty4, darkCount_matrixOf, penalty4Of, rule4]
  generalize 20 * (square n).countP (fun p => m p.1 p.2) / (n * n) = k
  split <;> omega

/-- The score of a matrix by the rules (44_mask R403). -/
theorem penalty_matrixOf : penalty n (matrixOf n m) = rule1 n m + rule4 n m := by
  rw [penalty, penalty1_matrixOf, penalty4_matrixOf]

/-! ### The bound -/

theorem lineScore_le (line : Nat → Bool) : lineScore n line ≤ n - 2 := by
  have hle := linePenalty_le ((List.range n).map line)
  rwa [← lineScore_eq_linePenalty, List.length_map, List.length_range] at hle

theorem sum_lineScore_le (lines : Nat → Nat → Bool) :
    ((List.range n).map fun i => lineScore n (lines i)).sum ≤ n * (n - 2) := by
  have hle := List.sum_le_card_nsmul ((List.range n).map fun i => lineScore n (lines i)) (n - 2) fun x hx => by
    obtain ⟨i, -, rfl⟩ := List.mem_map.mp hx
    exact lineScore_le (lines i)
  simpa using hle

theorem rule1_le : rule1 n m ≤ 2 * (n * (n - 2)) := by
  have hrows := sum_lineScore_le (n := n) fun r c => m r c
  have hcols := sum_lineScore_le (n := n) fun c r => m r c
  rw [rule1]
  omega

theorem length_square : (square n).length = n * n := by simp [square, List.length_flatMap]

theorem rule4_le : rule4 n m ≤ 100 := by
  have hdark : (square n).countP (fun p => m p.1 p.2) ≤ n * n := length_square (n := n) ▸ List.countP_le_length
  have hk : 20 * (square n).countP (fun p => m p.1 p.2) / (n * n) ≤ 20 :=
    Nat.div_le_of_le_mul (by rw [Nat.mul_comm]; exact Nat.mul_le_mul_right 20 hdark)
  rw [rule4]
  generalize 20 * (square n).countP (fun p => m p.1 p.2) / (n * n) = k at hk ⊢
  split <;> omega

/-- No matrix of a supported size scores above 3298 (44_mask R406). -/
theorem rule1_add_rule4_le (hn : n ≤ 41) : rule1 n m + rule4 n m ≤ 3298 := by
  have hlines : n * (n - 2) ≤ 41 * 39 := Nat.mul_le_mul hn (by omega)
  have h1 := rule1_le (n := n) m
  have h4 := rule4_le (n := n) m
  omega

end Matrix

/-! ### The symbol's matrix -/

theorem State.symCells_eq_matrixOf (s : State) : s.symCells = matrixOf s.size s.cell := by
  simp only [State.symCells, State.readBytes_eq, matrixOf]
  rfl

theorem vGrid_matrixOf (n : Nat) (g : Nat → Nat → Byte) :
    vGrid (matrixOf n g) = matrixOf n fun r c => vBit (g r c) := by
  simp only [vGrid, matrixOf, List.map_map, Function.comp_def]

/-- The values of the symbol cells. -/
theorem State.vGrid_symCells (s : State) : vGrid s.symCells = matrixOf s.size (vAt s) := by
  rw [s.symCells_eq_matrixOf, vGrid_matrixOf]
  rfl

/-! ### MSCORE -/

/-- A word put together from two halves. -/
theorem or_shiftLeft_sixteen {a b : Nat} (ha : a < 65536) (hb : b < 65536) :
    (BitVec.ofNat 16 a).setWidth 32 ||| ((BitVec.ofNat 16 b).setWidth 32 <<< 16) = BitVec.ofNat 32 (a + 65536 * b) := by
  have hsum : a ||| b <<< 16 = a + 65536 * b := by
    rw [Nat.or_comm, ← Nat.shiftLeft_add_eq_or_of_lt (i := 16) ha, Nat.shiftLeft_eq, Nat.add_comm, Nat.mul_comm]
  have hmod : ∀ x < 2 ^ 32, x % 2 ^ 32 = x := fun x hx => Nat.mod_eq_of_lt hx
  have hshift : b <<< 16 < 2 ^ 32 := by
    rw [Nat.shiftLeft_eq]
    omega
  refine BitVec.eq_of_toNat_eq ?_
  simp only [BitVec.toNat_or, BitVec.toNat_shiftLeft, BitVec.toNat_setWidth, BitVec.toNat_ofNat,
    Nat.mod_eq_of_lt ha, Nat.mod_eq_of_lt hb, hmod a (by omega), hmod b (by omega), hmod _ hshift,
    hmod (a + 65536 * b) (by omega), hsum]

theorem exec_mscore (s : State) : exec .mscore s = complete (cmdMscore s) s := rfl

/-- Settles O37: the walk along each line finds the maximal runs, and both parts fit their half of RESULT1. -/
theorem scoreOfMatrix : Obligations.ScoreOfMatrix := by
  unfold Obligations.ScoreOfMatrix
  intro s hsym
  obtain ⟨-, h41⟩ := State.size_bounds hsym
  have hbound := rule1_add_rule4_le (vAt s) h41
  have hhalves := or_shiftLeft_sixteen (a := rule1 s.size (vAt s)) (b := rule4 s.size (vAt s)) (by omega) (by omega)
  rw [exec_mscore, cmdMscore, s.vGrid_symCells, penalty1_matrixOf, penalty4_matrixOf, hhalves, complete_ok]
  rfl

end Sys2Proof.Machine
end

