-- ==== Sys2Proof/Proofs/MaskSelection.lean ====
section
/-! MASKSEL: the scores of the eight candidates and the choice among them (44_mask R410). -/

namespace Sys2Proof.Machine
open Sys2Proof.Claims

/-! ### The candidates -/

theorem zipIdx_map_range {α : Type} (n : Nat) (f : Nat → α) :
    ((List.range n).map f).zipIdx = (List.range n).map fun i => (f i, i) :=
  List.ext_getElem (by simp) fun i _ _ => by simp

/-- A mask acts on each cell of a matrix by itself (44_mask R401). -/
theorem maskGrid_matrixOf (k n : Nat) (g : Nat → Nat → Byte) :
    maskGrid k (matrixOf n g) = matrixOf n fun r c => maskedCell k r c (g r c) := by
  simp only [maskGrid, matrixOf, zipIdx_map_range, List.map_map, Function.comp_def]

/-- The values of the symbol cells under mask `k`. -/
theorem State.vGrid_maskGrid_symCells (s : State) (k : Nat) :
    vGrid (maskGrid k s.symCells) = matrixOf s.size (maskedAt s k) := by
  rw [s.symCells_eq_matrixOf, maskGrid_matrixOf, vGrid_matrixOf]
  simp only [vBit_maskedCell]
  rfl

theorem State.candidateScore_symCells (s : State) (k : Nat) : candidateScore s.size s.symCells k = candidate s k := by
  rw [candidateScore, s.vGrid_maskGrid_symCells, penalty_matrixOf]
  rfl

/-- The scores of the candidates as MASKSEL looks them up (44_mask R410). -/
def State.maskScore (s : State) (k : Nat) : Nat := (candidateScores s.size s.symCells).getD k 0

theorem State.maskScore_eq_candidate (s : State) {k : Nat} (hk : k < 8) : s.maskScore k = candidate s k := by
  simp [State.maskScore, candidateScores, hk, s.candidateScore_symCells]

theorem candidate_le {s : State} (hsym : SymLegal s) (k : Nat) : candidate s k ≤ 3298 :=
  rule1_add_rule4_le (maskedAt s k) (State.size_bounds hsym).2

/-! ### The choice -/

/-- `b` is the first of the candidates below `n` with the lowest score. -/
structure FirstLowest (score : Nat → Nat) (n b : Nat) : Prop where
  lt : b < n
  le : ∀ k, k < n → score b ≤ score k
  first : ∀ k, k < b → score b < score k

/-- The next candidate is taken when it is strictly lower, and only then is it the first lowest. -/
theorem FirstLowest.step {score : Nat → Nat} {n b : Nat} (h : FirstLowest score n b) :
    FirstLowest score (n + 1) (if score n < score b then n else b) := by
  obtain ⟨hlt, hle, hfirst⟩ := h
  split
  next hlower =>
    refine ⟨Nat.lt_succ_self n, fun k hk => ?_, fun k hk => hlower.trans_le (hle k hk)⟩
    obtain hlt' | rfl := Nat.lt_succ_iff_lt_or_eq.mp hk
    · exact hlower.le.trans (hle k hlt')
    · exact le_rfl
  next hnot =>
    refine ⟨by omega, fun k hk => ?_, hfirst⟩
    obtain hlt' | rfl := Nat.lt_succ_iff_lt_or_eq.mp hk
    · exact hle k hlt'
    · exact Nat.le_of_not_lt hnot

/-- The scan over further candidates keeps the first lowest and its score. -/
theorem FirstLowest.betterOf {score : Nat → Nat} (more : Nat) {n b : Nat} (h : FirstLowest score n b) :
    ∃ b', betterOf score (b, score b) (List.range' n more) = (b', score b') ∧ FirstLowest score (n + more) b' := by
  induction more generalizing n b with
  | zero => exact ⟨b, rfl, h⟩
  | succ more ih =>
    have hpair : (if score n < score b then (n, score n) else (b, score b)) =
        (if score n < score b then n else b, score (if score n < score b then n else b)) := by split <;> rfl
    obtain ⟨b', hscan, hlowest⟩ := ih h.step
    rw [Nat.add_right_comm] at hlowest
    exact ⟨b', by rw [List.range'_succ, Machine.betterOf, hpair, hscan], hlowest⟩

theorem FirstLowest.congr {score score' : Nat → Nat} {n b : Nat} (h : FirstLowest score n b)
    (heq : ∀ {k}, k < n → score k = score' k) : FirstLowest score' n b where
  lt := h.lt
  le k hk := heq h.lt ▸ heq hk ▸ h.le k hk
  first k hk := heq h.lt ▸ heq (hk.trans h.lt) ▸ h.first k hk

/-- MASKSEL chooses the first lowest of the eight (44_mask R410). -/
theorem exists_bestMask_eq (score : Nat → Nat) : ∃ b, bestMask score = (b, score b) ∧ FirstLowest score 8 b := by
  have hzero : FirstLowest score 1 0 := ⟨by omega, fun k hk => by rw [Nat.lt_one_iff.mp hk], fun k hk => by omega⟩
  exact hzero.betterOf 7

/-! ### MASKSEL -/

theorem getElem_scoreRegs (score : Nat → Nat) (k : Fin 8) : (scoreRegs score)[k] = BitVec.ofNat 16 (score k) := by
  fin_cases k <;> rfl

theorem exec_masksel (s : State) : exec .masksel s = complete (cmdMasksel s) s := rfl

theorem cmdMasksel_of_not_data {s : State} (h : s.status.mstate ≠ .data) : cmdMasksel s = .error .sequenceError := by
  rw [cmdMasksel, beq_eq_false_iff_ne.mpr h]
  rfl

/-- `s` with mask `b` chosen among the candidates, before the completion (44_mask R410). -/
def State.selectMask (s : State) (b : Nat) : State :=
  { (s.applyMask b).setMState .masked with
    scores := scoreRegs s.maskScore
    sym := { s.sym with mask := BitVec.ofNat 3 b }
    result0 := word b
    result1 := word (s.maskScore b) }

theorem exec_masksel_of_data {s : State} (h : s.status.mstate = .data) {b : Nat}
    (hbest : bestMask s.maskScore = (b, s.maskScore b)) : exec .masksel s = .next (s.selectMask b).finish := by
  have hpair : (bestMask fun k => (candidateScores s.size s.symCells).getD k 0) = (b, s.maskScore b) := hbest
  rw [exec_masksel, cmdMasksel, beq_iff_eq.mpr h]
  simp only [hpair]
  rfl

/-- Settles O38: the scores are the candidates' and fit their registers, and the scan finds the first lowest. -/
theorem bestMaskIsLowestOfLowest : Obligations.BestMaskIsLowestOfLowest := by
  unfold Obligations.BestMaskIsLowestOfLowest
  intro s hsym
  refine ⟨fun hdata => ?chosen, fun h => fails_of_effect_error (exec_masksel s) (cmdMasksel_of_not_data h)⟩
  case chosen =>
    obtain ⟨b, hbest, hlowest⟩ := exists_bestMask_eq s.maskScore
    obtain ⟨hlt, hle, hfirst⟩ := hlowest.congr s.maskScore_eq_candidate
    refine ⟨(s.selectMask b).finish, b, exec_masksel_of_data hdata hbest, hlt, ?state, fun k => ?registers, hle,
      hfirst, maskApplied_applyMask hsym b⟩
    case state => rw [← s.maskScore_eq_candidate hlt]; rfl
    case registers =>
      have hk := candidate_le hsym k
      have hreg : (s.selectMask b).finish.scores[k] = BitVec.ofNat 16 (candidate s k) := by
        rw [← s.maskScore_eq_candidate k.isLt]
        exact getElem_scoreRegs s.maskScore k
      rw [hreg, BitVec.toNat_ofNat]
      omega

end Sys2Proof.Machine
end

