-- ==== Sys2Proof/Proofs/Format.lean ====
section
/-! The format words and their derivation, values written to listed cells, FMTENC and FMTWR (45_format R450 to R455). -/

namespace Sys2Proof.Machine
open Sys2Proof.Claims

/-! ### The format words -/

/-- The table of R451 is the derivation of R452. -/
theorem toNat_formatWord : ∀ e ≤ 3, ∀ k < 8, (formatWord e k).toNat = bchWord e k := by decide

theorem setWidth_formatWord {e k : Nat} (he : e ≤ 3) (hk : k < 8) :
    (formatWord e k).setWidth 32 = BitVec.ofNat 32 (bchWord e k) := by
  rw [← toNat_formatWord e he k hk, BitVec.ofNat_toNat]

/-! ### FMTENC -/

theorem exec_fmtenc (ecl mask : BitVec 3) (s : State) :
    exec (.fmtenc ecl mask) s = complete (cmdFmtenc ecl mask s) s := rfl

theorem cmdFmtenc_of_level {ecl : BitVec 3} (mask : BitVec 3) (s : State) (h : ecl.toNat ≤ 3) :
    cmdFmtenc ecl mask s = .ok { s with result0 := BitVec.ofNat 32 (bchWord ecl.toNat mask.toNat) } := by
  rw [cmdFmtenc, checkLevel_ok h, setWidth_formatWord h mask.isLt]
  rfl

theorem cmdFmtenc_of_not_level {ecl : BitVec 3} (mask : BitVec 3) (s : State) (h : 3 < ecl.toNat) :
    cmdFmtenc ecl mask s = .error .unsupportedLevel := by
  rw [cmdFmtenc, checkLevel_error h]
  rfl

/-- Settles O39, by the outcome of the level check: the word read from the table is the derived one. -/
theorem formatWordIsBchWord : Obligations.FormatWordIsBchWord := by
  unfold Obligations.FormatWordIsBchWord
  intro ecl mask s
  have hexec := exec_fmtenc ecl mask s
  exact ⟨fun h => exec_of_effect_result0 hexec (cmdFmtenc_of_level mask s h),
    fun h => fails_of_effect_error hexec (cmdFmtenc_of_not_level mask s h)⟩

/-! ### Values for listed cells -/

section Values
variable {cells : List ((Nat × Nat) × Bool)} {r c : Nat} {v : Bool}

theorem valueIn_eq_none_iff : valueIn cells r c = none ↔ (r, c) ∉ cells.map Prod.fst := by
  simp only [valueIn, Option.map_eq_none_iff, List.find?_eq_none, List.mem_filter, List.mem_map, beq_iff_eq,
    Prod.ext_iff, not_exists, not_and, and_imp]

theorem mem_of_valueIn_eq_some (h : valueIn cells r c = some v) : ((r, c), v) ∈ cells := by
  obtain ⟨x, hfind, rfl⟩ := Option.map_eq_some_iff.mp h
  obtain ⟨hmem, hrow⟩ := List.mem_filter.mp (List.mem_of_find?_eq_some hfind)
  have hcol : x.1.2 = c := by simpa using List.find?_some hfind
  rwa [← beq_iff_eq.mp hrow, ← hcol]

/-- Where no cell is listed twice, a listed cell's value is the one in the list. -/
theorem valueIn_eq_some_of_mem (hnodup : (cells.map Prod.fst).Nodup) (h : ((r, c), v) ∈ cells) :
    valueIn cells r c = some v := by
  cases hv : valueIn cells r c with
  | none => exact absurd (List.mem_map_of_mem h) (valueIn_eq_none_iff.mp hv)
  | some u =>
    have heq := List.inj_on_of_nodup_map hnodup (mem_of_valueIn_eq_some hv) h rfl
    exact congrArg (some ·.2) heq

/-- Writes the listed values to bit V of their symbol cells (00_scope R13). -/
def State.writeValues (s : State) (cells : List ((Nat × Nat) × Bool)) : State :=
  s.stampSymbol fun r c => (valueIn cells r c).map (setV (s.cell r c))

theorem State.cell_writeValues_of_not_mem (s : State) (hr : r < 41) (hc : c < 64) (h : (r, c) ∉ cells.map Prod.fst) :
    (s.writeValues cells).cell r c = s.cell r c := by
  rw [State.writeValues, s.cell_stampSymbol _ r c hr hc, valueIn_eq_none_iff.mpr h]
  exact ite_self _

variable {s : State} (hsym : SymLegal s) (hin : InSymbol s r c)
include hsym hin

theorem State.cell_writeValues_of_valueIn (h : valueIn cells r c = some v) :
    (s.writeValues cells).cell r c = setV (s.cell r c) v := by
  obtain ⟨-, h41⟩ := State.size_bounds hsym
  have hin' : r < s.size ∧ c < s.size := hin
  rw [State.writeValues, s.cell_stampSymbol _ r c (by omega) (by omega), if_pos hin', h, Option.map_some,
    Option.map_some, Option.getD_some, setV_and_three]

/-- R bits are not written. -/
theorem State.rAt_writeValues : rAt (s.writeValues cells) r c = rAt s r c := by
  obtain ⟨-, h41⟩ := State.size_bounds hsym
  have hin' : r < s.size ∧ c < s.size := hin
  cases hv : valueIn cells r c with
  | none => exact congrArg rBit (s.cell_writeValues_of_not_mem (by omega) (by omega) (valueIn_eq_none_iff.mp hv))
  | some v => exact (congrArg rBit (State.cell_writeValues_of_valueIn hsym hin hv)).trans (rBit_setV _ v)

theorem State.vAt_writeValues (hnodup : (cells.map Prod.fst).Nodup) (h : ((r, c), v) ∈ cells) :
    vAt (s.writeValues cells) r c = v :=
  (congrArg vBit (State.cell_writeValues_of_valueIn hsym hin (valueIn_eq_some_of_mem hnodup h))).trans (vBit_setV _ v)

end Values

/-! ### The cells of the format word -/

theorem formatRow_eq_map {size : Nat} (h : 21 ≤ size) :
    formatRow size = (List.range 15).map fun j => (8, formatRowColumn size j) := by
  obtain ⟨d, rfl⟩ := Nat.exists_eq_add_of_le' h
  rfl

theorem formatCol_eq_map (size : Nat) : formatCol size = (List.range 15).map fun j => (formatColumnRow size j, 8) := rfl

/-- FMTWR writes each cell of the format area once. -/
theorem map_fst_formatWrites (size : Nat) (w : BitVec 15) :
    (formatWrites size w).map Prod.fst = formatCells size := rfl

theorem nodup_formatCells : ∀ v ∈ versions, (formatCells (17 + 4 * v)).Nodup := by decide

section Cells
variable {s : State} (hsym : SymLegal s) (w : BitVec 15)
include hsym

theorem nodup_map_fst_formatWrites : ((formatWrites s.size w).map Prod.fst).Nodup := by
  have hnodup := nodup_formatCells s.ver (State.ver_mem_versions hsym)
  obtain ⟨-, -, hsize⟩ := hsym
  rwa [← hsize] at hnodup

theorem mem_map_fst_formatWrites_iff {r c : Nat} :
    (r, c) ∈ (formatWrites s.size w).map Prod.fst ↔ InFormat s.size r c := by
  obtain ⟨h21, -⟩ := State.size_bounds hsym
  rw [map_fst_formatWrites, mem_formatCells_iff h21]

theorem vAt_writeValues_formatWrites {r c : Nat} {v : Bool} (h : ((r, c), v) ∈ formatWrites s.size w) :
    vAt (s.writeValues (formatWrites s.size w)) r c = v := by
  have harea := (mem_map_fst_formatWrites_iff hsym w).mp (List.mem_map_of_mem h)
  exact State.vAt_writeValues hsym ((draws_formatAreaCell hsym).inSymbol harea) (nodup_map_fst_formatWrites hsym w) h

theorem vAt_row_formatWrites {j : Nat} (hj : j < 15) :
    vAt (s.writeValues (formatWrites s.size w)) 8 (formatRowColumn s.size j) = w.toNat.testBit (14 - j) := by
  obtain ⟨h21, -⟩ := State.size_bounds hsym
  refine vAt_writeValues_formatWrites hsym w (List.mem_append_left _ (List.mem_append_left _ ?_))
  rw [formatRow_eq_map h21, bitsMSB, List.zip_map']
  exact List.mem_map_of_mem (f := fun j => ((8, formatRowColumn s.size j), _)) (List.mem_range.mpr hj)

theorem vAt_column_formatWrites {j : Nat} (hj : j < 15) :
    vAt (s.writeValues (formatWrites s.size w)) (formatColumnRow s.size j) 8 = w.toNat.testBit (14 - j) := by
  refine vAt_writeValues_formatWrites hsym w (List.mem_append_left _ (List.mem_append_right _ ?_))
  rw [formatCol_eq_map, bitsMSB, List.zip_map']
  exact List.mem_map_of_mem (f := fun j => ((formatColumnRow s.size j, 8), _)) (List.mem_range.mpr hj)

theorem vAt_darkModule_formatWrites : vAt (s.writeValues (formatWrites s.size w)) (s.size - 8) 8 = true :=
  vAt_writeValues_formatWrites hsym w (List.mem_append_right _ (List.mem_singleton.mpr rfl))

theorem cellsKept_formatWrites : CellsKept s (s.writeValues (formatWrites s.size w)) (InFormat s.size) :=
  ⟨s.bytesKept_stamp _, fun _ _ hr hc h =>
    s.cell_writeValues_of_not_mem hr hc (mt (mem_map_fst_formatWrites_iff hsym w).mp h)⟩

end Cells

/-! ### FMTWR -/

theorem exec_fmtwr (s : State) : exec .fmtwr s = complete (cmdFmtwr s) s := rfl

theorem cmdFmtwr_of_not_masked {s : State} (h : s.status.mstate ≠ .masked) : cmdFmtwr s = .error .sequenceError := by
  rw [cmdFmtwr, beq_eq_false_iff_ne.mpr h]
  rfl

/-- The word FMTWR writes, `FMT[8·SYM.ECL + SYM.MASK]` (45_format R455). -/
def State.formatWord (s : State) : BitVec 15 := Machine.formatWord s.ecl s.sym.mask.toNat

theorem State.toNat_formatWord {s : State} (hsym : SymLegal s) : s.formatWord.toNat = bchWord s.ecl s.sym.mask.toNat :=
  Machine.toNat_formatWord s.ecl (State.ecl_le_three hsym) s.sym.mask.toNat s.sym.mask.isLt

theorem exec_fmtwr_of_masked {s : State} (h : s.status.mstate = .masked) :
    exec .fmtwr s = .next (State.finish { (s.writeValues (formatWrites s.size s.formatWord)).setMState .final with
      result0 := s.formatWord.setWidth 32 }) := by
  rw [exec_fmtwr, cmdFmtwr, beq_iff_eq.mpr h]
  rfl

/-- Settles O41, by MSTATE: the 31 cells are distinct, so each holds the bit or the dark module listed for it. -/
theorem formatWrittenTwice : Obligations.FormatWrittenTwice := by
  unfold Obligations.FormatWrittenTwice
  intro s hsym
  refine ⟨fun hmasked => ?written, fun h => fails_of_effect_error (exec_fmtwr s) (cmdFmtwr_of_not_masked h)⟩
  case written =>
    rw [← State.toNat_formatWord hsym]
    refine ⟨_, exec_fmtwr_of_masked hmasked, ?state, cellsKept_formatWrites hsym _, fun r c h => ?reserved,
      fun j hj => vAt_row_formatWrites hsym _ hj, fun j hj => vAt_column_formatWrites hsym _ hj,
      vAt_darkModule_formatWrites hsym _⟩
    case state => rw [BitVec.ofNat_toNat]; rfl
    case reserved => exact State.rAt_writeValues hsym ((draws_formatAreaCell hsym).inSymbol h)

end Sys2Proof.Machine
end

