-- ==== Sys2Proof/Proofs/Control.lean ====
section
/-! NOP and SRST: a completion whose effect is nothing, or the registers' reset values (46_control R500, R505). -/

namespace Sys2Proof.Machine
open Sys2Proof.Claims

/-! ### NOP -/

theorem exec_nop (s : State) : exec .nop s = complete (.ok s) s := rfl

/-- What every successful completion adds to its command's effect (10_state R35). -/
theorem State.finish_eq_okStatus (s : State) :
    s.finish = { s with pend := none, status := okStatus s.status s.status.mstate } := rfl

/-- Settles O14: the effect of NOP is the state it starts from, so only its completion shows. -/
theorem nopOnlyCompletes : Obligations.NopOnlyCompletes := by
  unfold Obligations.NopOnlyCompletes
  intro s
  rw [exec_nop, complete_ok, State.finish_eq_okStatus]

/-! ### SRST -/

theorem exec_srst (s : State) : exec .srst s = complete (.ok s.resetRegisters) s := rfl

/-- The completion of SRST sets DONE over the reset value of STATUS (46_control R505). -/
theorem Status.reset_onSuccess : Status.reset.onSuccess = ⟨true, false, false, .uninit, none⟩ := rfl

/-- The STATUS that SRST leaves reads 0x000000F2, with the command no longer pending (10_state R34). -/
theorem State.finish_resetRegisters_statusWord (s : State) : s.resetRegisters.finish.statusWord = 0xF2#32 := by
  have hstatus : s.resetRegisters.finish.status = Status.reset.onSuccess := rfl
  have hbusy : s.resetRegisters.finish.busy = false := rfl
  rw [State.statusWord, hstatus, hbusy, Status.reset_onSuccess]
  decide

/-- Settles O15: the effect of SRST is the reset of the registers, and its completion sets DONE over the reset STATUS. -/
theorem softResetLoadsResetValues : Obligations.SoftResetLoadsResetValues := by
  unfold Obligations.SoftResetLoadsResetValues
  intro s
  rw [exec_srst, complete_ok, ← Status.reset_onSuccess]
  rfl

end Sys2Proof.Machine
end

