-- ==== Sys2Proof/Proofs/Exceptions.lean ====
section
/-! The error each command raises is its first failing check, and a completion with an error changes STATUS alone
(60_exceptions R550, R555, R560). -/

namespace Sys2Proof.Machine
open Sys2Proof.Claims

/-! ### The error of an effect -/

/-- The error in which an effect ends, or none. -/
def raised {α : Type} : Except CmdError α → Option CmdError
  | .ok _ => none
  | .error e => some e

/-- A completion records exactly the error of the effect in STATUS (10_state R35). -/
theorem exists_complete_eq_next (effect : Except CmdError State) (s : State) :
    ∃ t, complete effect s = .next t ∧ t.status.errCode = raised effect ∧ t.status.err = (raised effect).isSome := by
  cases effect with
  | ok t => exact ⟨t.finish, rfl, rfl, rfl⟩
  | error e => exact ⟨s.raise e, rfl, rfl, rfl⟩

/-- ERRCODE shows an error only where the completion raised it. -/
theorem eq_raise_of_complete {effect : Except CmdError State} {s t : State} {e : CmdError}
    (h : complete effect s = .next t) (he : t.status.errCode = some e) : t = s.raise e := by
  cases effect with
  | ok u =>
    cases h
    cases he
  | error e' =>
    cases h
    cases he
    rfl

theorem State.raise_eq_errStatus (e : CmdError) (s : State) :
    s.raise e = { s with pend := none, status := errStatus s.status e } := rfl

/-! ### One rule for each check (60_exceptions R555) -/

section Checks
variable {α : Type} (f : Unit → Except CmdError α)

theorem raised_checkLevel_bind (ecl : BitVec 3) :
    raised (checkLevel ecl >>= f) =
      if decide (3 < ecl.toNat) = true then some .unsupportedLevel else raised (f ()) := by
  simp only [decide_eq_true_eq]
  split
  next h => rw [checkLevel_error h]; rfl
  next h => rw [checkLevel_ok (by omega)]; rfl

theorem versionOk_eq : ∀ ver : BitVec 3, versionOk ver = !(ver == 0#3 || ver == 7#3) := by decide

theorem raised_checkVersion_bind (ver : BitVec 3) :
    raised (checkVersion ver >>= f) =
      if (ver == 0#3 || ver == 7#3) = true then some .unsupportedVersion else raised (f ()) := by
  rw [checkVersion, versionOk_eq]
  cases ver == 0#3 || ver == 7#3 <;> rfl

theorem raised_checkSequence_bind (accepted : Bool) :
    raised (checkSequence accepted >>= f) = if accepted = false then some .sequenceError else raised (f ()) := by
  cases accepted <;> rfl

theorem raised_checkPayload_bind (fit : Bool) :
    raised (checkPayload fit >>= f) = if fit = true then raised (f ()) else some .payloadTooLarge := by
  cases fit <;> rfl

end Checks

/-! ### The operand checks -/

/-- The search for the smallest version succeeds exactly when some version fits (40_bitstream R205). -/
theorem isSome_smallestFit (n e : Nat) : (smallestFit n e).isSome = someVersionFits n e := by
  rw [smallestFit, List.isSome_find?, Bool.eq_iff_iff, List.any_eq_true, someVersionFits, List.any_eq_true]
  refine exists_congr fun v => and_congr_right fun hv => ?_
  rw [fits_eq_decide n e (le_nine_of_mem_versions v hv)]

theorem raised_selectVersion_bind {α : Type} (n e : Nat) (fallback : Bool) (g : Nat → α) :
    raised (selectVersion n e fallback >>= fun v => pure (g v)) =
      if (someVersionFits n e || fallback) = true then none else some .payloadTooLarge := by
  rw [← isSome_smallestFit, selectVersion]
  cases smallestFit n e with
  | some v => rfl
  | none => cases fallback <;> rfl

theorem raised_cmdSetsym (ecl ver : BitVec 3) (s : State) :
    raised (cmdSetsym ecl ver s) = firstError (.setsym ecl ver) s := by
  rw [cmdSetsym, raised_checkLevel_bind, raised_checkVersion_bind]
  rfl

theorem raised_cmdSelver (ecl : BitVec 3) (s : State) :
    raised (cmdSelver ecl s) = firstError (.selver ecl) s := by
  rw [cmdSelver, raised_checkLevel_bind, raised_selectVersion_bind]
  rfl

theorem raised_cmdPack (s : State) :
    raised (cmdPack s) = if dcap s.ver s.ecl < s.plen.toNat + 2 then some .payloadTooLarge else none := by
  split
  next h => rw [cmdPack_of_too_large h]; rfl
  next h => rw [cmdPack_of_fits (by omega)]; rfl

theorem raised_cmdRsenc (len nsym : Byte) (s : State) :
    raised (cmdRsenc len nsym s) = if 256 < len.toNat + nsym.toNat then some .badOperand else none := by
  rw [cmdRsenc]
  split <;> rfl

theorem raised_cmdGflog (a : Byte) (s : State) :
    raised (cmdGflog a s) = if a = 0#8 then some .logOfZero else none := by
  split
  next h => rw [h, cmdGflog_of_none gfLogTable_zero]; rfl
  next h =>
    obtain ⟨i, hlog⟩ := exists_gfLogTable h
    rw [cmdGflog_of_some hlog]
    rfl

/-! ### The MSTATE checks -/

theorem raised_stampEffect (s : State) (f : Nat → Nat → Option Byte) (accepted : Bool) (m : MState) :
    raised (stampEffect s f accepted m) = if accepted = false then some .sequenceError else none :=
  raised_checkSequence_bind _ accepted

theorem exec_place (s : State) : exec .place s = complete (cmdPlace s) s := rfl

theorem timingAccepted_eq_accepts (s : State) : timingAccepted s = accepts .sttime s := by
  have hver : (s.ver == 1) = (s.sym.ver == 1#3) := by
    rw [Bool.eq_iff_iff, beq_iff_eq, beq_iff_eq, ← BitVec.toNat_inj]
    rfl
  rw [timingAccepted, hver]
  rfl

theorem raised_cmdMapply (k : BitVec 3) (s : State) :
    raised (cmdMapply k s) = if accepts (.mapply k) s = false then some .sequenceError else none := by
  have haccepts : accepts (.mapply k) s = true ↔
      s.status.mstate = .data ∨ (s.status.mstate = .masked ∧ k = s.sym.mask) := by simp [accepts]
  by_cases hdata : s.status.mstate = .data
  · rw [haccepts.mpr (.inl hdata), cmdMapply, if_pos hdata]; rfl
  by_cases hmasked : s.status.mstate = .masked ∧ k = s.sym.mask
  · rw [haccepts.mpr (.inr hmasked), cmdMapply, if_neg hdata, if_pos hmasked]; rfl
  · have hrefused := not_or.mpr ⟨hdata, hmasked⟩
    rw [Bool.eq_false_iff.mpr (mt haccepts.mp hrefused), cmdMapply_of_refused hrefused]; rfl

/-! ### GENERATE

After its own two checks GENERATE starts the smallest symbol that holds the payload, and each later step accepts the
MSTATE that the step before it left (46_control R510). -/

theorem exec_generate (ecl : BitVec 3) (s : State) : exec (.generate ecl) s = complete (cmdGenerate ecl s) s := rfl

/-- The effect succeeds and leaves MSTATE at `m`. -/
def Reaches (effect : Except CmdError State) (m : MState) : Prop := ∃ t, effect = .ok t ∧ t.status.mstate = m

theorem Reaches.bind {effect : Except CmdError State} {m n : MState} {f : State → Except CmdError State}
    (h : Reaches effect m) (hf : ∀ t, t.status.mstate = m → Reaches (f t) n) : Reaches (effect >>= f) n := by
  obtain ⟨t, rfl, ht⟩ := h
  exact hf t ht

/-- A command that checks only MSTATE succeeds in a state it accepts. -/
theorem reaches_checkSequence_bind {accepted : Bool} {m : MState} {t : State} (h : accepted = true)
    (ht : t.status.mstate = m) : Reaches (checkSequence accepted >>= fun _ => .ok t) m :=
  ⟨t, by rw [h]; rfl, ht⟩

section Steps
variable {s : State}

theorem reaches_cmdEccil {m : MState} (h : s.status.mstate = m) : Reaches (cmdEccil s) m := ⟨_, rfl, h⟩
theorem reaches_cmdStfind (h : s.status.mstate = .empty) : Reaches (cmdStfind s) .finder :=
  reaches_checkSequence_bind (beq_iff_eq.mpr h) rfl
theorem reaches_cmdStalign (h : s.status.mstate = .finder) : Reaches (cmdStalign s) .align :=
  reaches_checkSequence_bind (beq_iff_eq.mpr h) rfl
theorem reaches_cmdSttime (h : s.status.mstate = .align) : Reaches (cmdSttime s) .timing :=
  reaches_checkSequence_bind ((timingAccepted_iff s).mpr (.inl h)) rfl
theorem reaches_cmdRsvfmt (h : s.status.mstate = .timing) : Reaches (cmdRsvfmt s) .fmtrsv :=
  reaches_checkSequence_bind (beq_iff_eq.mpr h) rfl
theorem reaches_cmdPlace (h : s.status.mstate = .fmtrsv) : Reaches (cmdPlace s) .data :=
  reaches_checkSequence_bind (beq_iff_eq.mpr h) rfl
theorem reaches_cmdMasksel (h : s.status.mstate = .data) : Reaches (cmdMasksel s) .masked :=
  reaches_checkSequence_bind (beq_iff_eq.mpr h) rfl
theorem reaches_cmdFmtwr (h : s.status.mstate = .masked) : Reaches (cmdFmtwr s) .final :=
  reaches_checkSequence_bind (beq_iff_eq.mpr h) rfl

/-- The steps of GENERATE from STFIND on, each from the MSTATE the one before leaves. -/
theorem reaches_patterns_to_format (h : s.status.mstate = .empty) :
    Reaches (do
      let s ← cmdStfind s
      let s ← cmdStalign s
      let s ← cmdSttime s
      let s ← cmdRsvfmt s
      let s ← cmdPlace s
      let s ← cmdMasksel s
      cmdFmtwr s) .final :=
  (reaches_cmdStfind h).bind fun _ h => (reaches_cmdStalign h).bind fun _ h => (reaches_cmdSttime h).bind fun _ h =>
    (reaches_cmdRsvfmt h).bind fun _ h => (reaches_cmdPlace h).bind fun _ h => (reaches_cmdMasksel h).bind fun _ h =>
    reaches_cmdFmtwr h

end Steps

/-- A new symbol context at a version that fits has room for the payload. -/
theorem reaches_cmdPack_startSymbol {s : State} {ecl : BitVec 3} {v : Nat}
    (h : SmallestVersion s.plen.toNat ecl.toNat v) : Reaches (cmdPack (s.startSymbol v ecl.toNat)) .empty := by
  obtain ⟨⟨-, h6⟩, hfit, -⟩ := h
  have hver : (s.startSymbol v ecl.toNat).ver = v := Nat.mod_eq_of_lt (by omega)
  have hecl : (s.startSymbol v ecl.toNat).ecl = ecl.toNat := Nat.mod_eq_of_lt ecl.isLt
  exact ⟨_, cmdPack_of_fits (by rw [hver, hecl]; exact hfit), rfl⟩

theorem reaches_generateSteps {s : State} {ecl : BitVec 3} (hl : ecl.toNat ≤ 3) {v : Nat}
    (h : SmallestVersion s.plen.toNat ecl.toNat v) : Reaches (generateSteps ecl s) .final := by
  rw [generateSteps, cmdSelver_of_level s hl, selectVersion_of_smallest h]
  exact (reaches_cmdPack_startSymbol h).bind fun _ h => (reaches_cmdEccil h).bind fun _ h =>
    reaches_patterns_to_format h

theorem firstError_generate (ecl : BitVec 3) (s : State) : firstError (.generate ecl) s =
    if decide (3 < ecl.toNat) = true then some .unsupportedLevel
    else if someVersionFits s.plen.toNat ecl.toNat = true then none else some .payloadTooLarge := rfl

theorem raised_cmdGenerate (ecl : BitVec 3) (s : State) :
    raised (cmdGenerate ecl s) = firstError (.generate ecl) s := by
  rw [cmdGenerate, raised_checkLevel_bind, raised_checkPayload_bind, isSome_smallestFit, firstError_generate]
  refine ite_congr rfl (fun _ => rfl) fun hlevel => ite_congr rfl (fun hfits => ?_) fun _ => rfl
  rw [← isSome_smallestFit, Option.isSome_iff_exists] at hfits
  obtain ⟨v, hv⟩ := hfits
  have hl : ecl.toNat ≤ 3 := by simpa using hlevel
  obtain ⟨t, ht, -⟩ := reaches_generateSteps hl (smallestFit_eq_some_iff.mp hv)
  rw [ht]
  rfl

/-! ### The first error of every command -/

/-- Every command is the completion of an effect that ends in its first failing check, or in none. -/
theorem exists_effect_of_exec (i : Instr) (s : State) :
    ∃ effect, exec i s = complete effect s ∧ raised effect = firstError i s := by
  cases i with
  | nop => exact ⟨_, exec_nop s, rfl⟩
  | srst => exact ⟨_, exec_srst s, rfl⟩
  | gfclmul a b => exact ⟨_, exec_gfclmul a b s, rfl⟩
  | gfred p => exact ⟨_, exec_gfred p s, rfl⟩
  | gfmul a b => exact ⟨_, exec_gfmul a b s, rfl⟩
  | gfexp n => exact ⟨_, exec_gfexp n s, rfl⟩
  | gflog a => exact ⟨_, exec_gflog a s, raised_cmdGflog a s⟩
  | rsgen nsym => exact ⟨_, exec_rsgen nsym s, rfl⟩
  | rsenc len nsym => exact ⟨_, exec_rsenc len nsym s, raised_cmdRsenc len nsym s⟩
  | eccil => exact ⟨_, exec_eccil s, rfl⟩
  | setsym ecl ver => exact ⟨_, exec_setsym ecl ver s, raised_cmdSetsym ecl ver s⟩
  | selver ecl => exact ⟨_, exec_selver ecl s, raised_cmdSelver ecl s⟩
  | pack => exact ⟨_, exec_pack s, raised_cmdPack s⟩
  | mclear => exact ⟨_, exec_mclear s, rfl⟩
  | stfind => exact ⟨_, exec_stfind s, raised_stampEffect s _ _ _⟩
  | stalign => exact ⟨_, exec_stalign s, raised_stampEffect s _ _ _⟩
  | sttime => exact ⟨_, exec_sttime s, timingAccepted_eq_accepts s ▸ raised_stampEffect s _ _ _⟩
  | rsvfmt => exact ⟨_, exec_rsvfmt s, raised_stampEffect s _ _ _⟩
  | place => exact ⟨_, exec_place s, raised_checkSequence_bind _ _⟩
  | mapply k => exact ⟨_, exec_mapply k s, raised_cmdMapply k s⟩
  | mscore => exact ⟨_, exec_mscore s, rfl⟩
  | masksel => exact ⟨_, exec_masksel s, raised_checkSequence_bind _ _⟩
  | fmtenc ecl mask => exact ⟨_, exec_fmtenc ecl mask s, raised_checkLevel_bind _ ecl⟩
  | fmtwr => exact ⟨_, exec_fmtwr s, raised_checkSequence_bind _ _⟩
  | generate ecl => exact ⟨_, exec_generate ecl s, raised_cmdGenerate ecl s⟩

/-! ### The completion of a due word -/

/-- The error the completion of word `w` raises, or none (30_encoding R170, 60_exceptions R555). -/
def wordError (w : Word) (s : State) : Option CmdError :=
  match decode w with
  | .ok i => firstError i s
  | .error _ => some .illegalCommand

theorem step_of_due {s : State} {w : Word} (hdue : s.due = some w) : step s = completeWord w s := by rw [step, hdue]

/-- The step that completes a due word is the completion of an effect with that word's error. -/
theorem exists_effect_of_due {s : State} {w : Word} (hdue : s.due = some w) :
    ∃ effect, step s = complete effect s ∧ raised effect = wordError w s := by
  rw [step_of_due hdue, completeWord, wordError]
  cases decode w with
  | ok i => exact exists_effect_of_exec i s
  | error e => exact ⟨.error .illegalCommand, rfl, rfl⟩

/-- Settles O11: the step completes an effect that ends in the word's first failing check, and STATUS records it. -/
theorem commandRaisesFirstError : Obligations.CommandRaisesFirstError := by
  unfold Obligations.CommandRaisesFirstError
  intro s w hdue
  obtain ⟨effect, hstep, herror⟩ := exists_effect_of_due hdue
  obtain ⟨t, hnext, hcode, herr⟩ := exists_complete_eq_next effect s
  exact ⟨t, hstep.trans hnext, hcode.trans herror, herr.trans (congrArg Option.isSome hcode).symm⟩

/-- Settles O12: of the two ways to complete an effect only the error sets ERRCODE, and it writes STATUS alone. -/
theorem failedCommandChangesOnlyStatus : Obligations.FailedCommandChangesOnlyStatus := by
  unfold Obligations.FailedCommandChangesOnlyStatus
  intro s t w e hdue hnext hcode
  obtain ⟨effect, hstep, -⟩ := exists_effect_of_due hdue
  rw [← State.raise_eq_errStatus]
  exact eq_raise_of_complete (hstep.symm.trans hnext) hcode

end Sys2Proof.Machine
end

