-- ==== Sys2Proof/Proofs/RoundTrip.lean ====
section
/-! The round trips of decoder and encoder: every command has a row of the opcode map that reads it back, and a word
that a row matches is put together again from its opcode and its operand fields (30_encoding R151 to R171). -/

namespace Sys2Proof
open Sys2Proof.Claims

/-! ### Decoding an encoding -/

/-- Every command has its row of the opcode map (30_encoding R160). -/
theorem exists_hasRow : ∀ i : Instr, Laws.OpcodeRow.Statement i
  | .nop => Laws.OpcodeRow.nop
  | .srst => Laws.OpcodeRow.srst
  | .gfclmul a b => Laws.OpcodeRow.gfclmul a b
  | .gfred p => Laws.OpcodeRow.gfred p
  | .gfmul a b => Laws.OpcodeRow.gfmul a b
  | .gfexp n => Laws.OpcodeRow.gfexp n
  | .gflog a => Laws.OpcodeRow.gflog a
  | .rsgen nsym => Laws.OpcodeRow.rsgen nsym
  | .rsenc len nsym => Laws.OpcodeRow.rsenc len nsym
  | .eccil => Laws.OpcodeRow.eccil
  | .setsym ecl ver => Laws.OpcodeRow.setsym ecl ver
  | .selver ecl => Laws.OpcodeRow.selver ecl
  | .pack => Laws.OpcodeRow.pack
  | .mclear => Laws.OpcodeRow.mclear
  | .stfind => Laws.OpcodeRow.stfind
  | .stalign => Laws.OpcodeRow.stalign
  | .sttime => Laws.OpcodeRow.sttime
  | .rsvfmt => Laws.OpcodeRow.rsvfmt
  | .place => Laws.OpcodeRow.place
  | .mapply mask => Laws.OpcodeRow.mapply mask
  | .mscore => Laws.OpcodeRow.mscore
  | .masksel => Laws.OpcodeRow.masksel
  | .fmtenc ecl mask => Laws.OpcodeRow.fmtenc ecl mask
  | .fmtwr => Laws.OpcodeRow.fmtwr
  | .generate ecl => Laws.OpcodeRow.generate ecl

/-- Settles O1: the command's row matches its encoding and assembles the command again, so decoding takes that row. -/
theorem decodeOfEncode : Obligations.DecodeOfEncode := by
  unfold Obligations.DecodeOfEncode
  intro i
  obtain ⟨k, row, hrow, -, hmatch, hoperands⟩ := exists_hasRow i
  exact decode_eq_ok_iff.mpr ⟨row, List.mem_of_getElem? hrow, hmatch, hoperands⟩

/-! ### Encoding what was decoded -/

/-- A word of format F made of the masked operands of `w` has the opcode and the masked bits of `w`. -/
theorem formatF_and (w : Word) (mb ma o : BitVec 8) :
    formatF (bField w &&& mb) (aField w &&& ma) o = formatN o ||| (w &&& formatF mb ma 0) := by
  refine BitVec.eq_of_getLsbD_eq fun i hi => ?_
  simp only [BitVec.getLsbD_or, BitVec.getLsbD_and, formatF_getLsbD, aField, bField, BitVec.getLsbD_extractLsb',
    formatN, BitVec.getLsbD_append]
  interval_cases i <;> simp

/-- As `formatF_and`, for format P. -/
theorem formatP_and (w : Word) (mp : BitVec 15) (o : BitVec 8) :
    formatP (pField w &&& mp) o = formatN o ||| (w &&& formatP mp 0) := by
  refine BitVec.eq_of_getLsbD_eq fun i hi => ?_
  simp only [BitVec.getLsbD_or, BitVec.getLsbD_and, formatP_getLsbD, pField, BitVec.getLsbD_extractLsb', formatN,
    BitVec.getLsbD_append]
  interval_cases i <;> simp

/-- As `formatF_and`, for format S. -/
theorem formatS_and (w : Word) (mv me : BitVec 3) (o : BitVec 8) :
    formatS (vmField w &&& mv) (eclField w &&& me) o = formatN o ||| (w &&& formatS mv me 0) := by
  refine BitVec.eq_of_getLsbD_eq fun i hi => ?_
  simp only [BitVec.getLsbD_or, BitVec.getLsbD_and, formatS_getLsbD, vmField, eclField, BitVec.getLsbD_extractLsb',
    formatN, BitVec.getLsbD_append]
  interval_cases i <;> simp

theorem formatN_eq_or (w : Word) (o : BitVec 8) : formatN o = formatN o ||| (w &&& 0#32) := by
  rw [BitVec.and_zero, BitVec.or_zero]

/-- Encoding the operands a row reads from a word keeps the word's free bits and sets the row's fixed ones. -/
theorem OpcodeRow.encode_operands (w : Word) :
    ∀ row ∈ opcodeMap, encode (row.operands w) = row.pattern ||| (w &&& ~~~row.mask) := by
  have hF := formatF_and w (BitVec.allOnes 8) (BitVec.allOnes 8)
  have hFa := formatF_and w 0 (BitVec.allOnes 8)
  have hFb := formatF_and w (BitVec.allOnes 8) 0
  have hP := formatP_and w (BitVec.allOnes 15)
  have hS := formatS_and w (BitVec.allOnes 3) (BitVec.allOnes 3)
  have hSe := formatS_and w 0 (BitVec.allOnes 3)
  have hSv := formatS_and w (BitVec.allOnes 3) 0
  simp only [BitVec.and_allOnes, BitVec.ofNat_eq_ofNat, BitVec.and_zero] at hF hFa hFb hP hS hSe hSv
  simp only [opcodeMap, List.forall_mem_cons]
  exact ⟨formatN_eq_or w _, formatN_eq_or w _, hF _, hP _, hF _, hFa _, hFa _, hFb _, hF _, formatN_eq_or w _, hS _,
    hSe _, formatN_eq_or w _, formatN_eq_or w _, formatN_eq_or w _, formatN_eq_or w _, formatN_eq_or w _,
    formatN_eq_or w _, formatN_eq_or w _, hSv _, formatN_eq_or w _, formatN_eq_or w _, hS _, formatN_eq_or w _, hSe _,
    List.forall_mem_nil _⟩

/-- Settles O2: the row that matched fixes the word's other bits, so encoding the operands gives back the whole word. -/
theorem encodeOfDecode : Obligations.EncodeOfDecode := by
  unfold Obligations.EncodeOfDecode
  intro w i hdecode
  obtain ⟨row, hrow, hmatch, rfl⟩ := decode_eq_ok_iff.mp hdecode
  have hmatch : w &&& row.mask = row.pattern := hmatch
  rw [OpcodeRow.encode_operands w row hrow, ← hmatch, ← BitVec.and_or_distrib_left, BitVec.or_not_self,
    BitVec.and_allOnes]

/-! ### Words of the spec -/

/-- Settles O4: ten closed words. -/
theorem specWordsDecode : Obligations.SpecWordsDecode := by
  unfold Obligations.SpecWordsDecode
  decide

end Sys2Proof
end

