-- ==== Sys2Proof/Proofs/Invariants.lean ====
section
/-! What every step keeps: each command is the completion of one effect, each access of the host has one of seven
effects, and the invariant, the bound of the scores and the flags of a completion follow case by case (10_state R35,
R40, R49). -/

namespace Sys2Proof.Machine
open Sys2Proof.Claims

/-! ### The effect of a command -/

/-- The effect whose completion a command is (30_encoding R160). -/
def commandEffect : Instr → State → Except CmdError State
  | .nop => cmdNop
  | .srst => cmdSrst
  | .gfclmul a b => cmdGfclmul a b
  | .gfred p => cmdGfred p
  | .gfmul a b => cmdGfmul a b
  | .gfexp n => cmdGfexp n
  | .gflog a => cmdGflog a
  | .rsgen nsym => cmdRsgen nsym
  | .rsenc len nsym => cmdRsenc len nsym
  | .eccil => cmdEccil
  | .setsym ecl ver => cmdSetsym ecl ver
  | .selver ecl => cmdSelver ecl
  | .pack => cmdPack
  | .mclear => cmdMclear
  | .stfind => cmdStfind
  | .stalign => cmdStalign
  | .sttime => cmdSttime
  | .rsvfmt => cmdRsvfmt
  | .place => cmdPlace
  | .mapply mask => cmdMapply mask
  | .mscore => cmdMscore
  | .masksel => cmdMasksel
  | .fmtenc ecl mask => cmdFmtenc ecl mask
  | .fmtwr => cmdFmtwr
  | .generate ecl => cmdGenerate ecl

theorem exec_eq_complete (i : Instr) (s : State) : exec i s = complete (commandEffect i s) s := by
  cases i <;> rfl

theorem commandEffect_keeps {i : Instr} {s t : State} (h : commandEffect i s = .ok t) : Keeps s t := by
  cases i with
  | nop => cases h; exact Keeps.refl s
  | srst => exact cmdSrst_keeps h
  | gfclmul a b => cases h; exact result_keeps s _
  | gfred p => cases h; exact result_keeps s _
  | gfmul a b => cases h; exact result_keeps s _
  | gfexp n => cases h; exact result_keeps s _
  | gflog a => exact cmdGflog_keeps h
  | rsgen nsym => exact cmdRsgen_keeps h
  | rsenc len nsym => exact cmdRsenc_keeps h
  | eccil => exact cmdEccil_keeps h
  | setsym ecl ver => exact cmdSetsym_keeps h
  | selver ecl => exact cmdSelver_keeps h
  | pack => exact cmdPack_keeps h
  | mclear => exact cmdMclear_keeps h
  | stfind => exact cmdStfind_keeps h
  | stalign => exact cmdStalign_keeps h
  | sttime => exact cmdSttime_keeps h
  | rsvfmt => exact cmdRsvfmt_keeps h
  | place => exact cmdPlace_keeps h
  | mapply mask => exact cmdMapply_keeps h
  | mscore => cases h; exact ⟨⟨rfl, rfl, rfl, rfl, rfl, rfl, rfl, rfl⟩, id, id⟩
  | masksel => exact cmdMasksel_keeps h
  | fmtenc ecl mask => exact cmdFmtenc_keeps h
  | fmtwr => exact cmdFmtwr_keeps h
  | generate ecl => exact cmdGenerate_keeps h

/-! ### The two kinds of step -/

theorem due_of_pend {s : State} {w : Word} (hr : s.rstN = true) (hp : s.pend = some w) (hw : s.wait = 0) :
    s.due = some w := by rw [State.due, if_pos ⟨hr, hw⟩, hp]

/-- The effect of the completion of word `w` (10_state R60, 30_encoding R170). -/
def wordEffect (w : Word) (s : State) : Except CmdError State :=
  match decode w with
  | .ok i => commandEffect i s
  | .error _ => .error .illegalCommand

theorem completeWord_eq_complete (w : Word) (s : State) : completeWord w s = complete (wordEffect w s) s := by
  rw [completeWord, wordEffect]
  cases decode w with
  | ok i => exact exec_eq_complete i s
  | error e => rfl

theorem wordEffect_keeps {w : Word} {s t : State} (h : wordEffect w s = .ok t) : Keeps s t := by
  rw [wordEffect] at h
  cases hd : decode w with
  | ok i => rw [hd] at h; exact commandEffect_keeps h
  | error e => rw [hd] at h; cases h

/-- The three ways a step can go: a completion that succeeds, one that raises an error, or the host's turn. -/
inductive StepTo (s : State) : State → Prop
  | success (w : Word) (t : State) (hdue : s.due = some w) (heffect : wordEffect w s = .ok t) : StepTo s t.finish
  | failure (w : Word) (e : CmdError) (hdue : s.due = some w) : StepTo s (s.raise e)
  | turn (hdue : s.due = none) : StepTo s s.hostTurn

theorem exists_step (s : State) : ∃ t, step s = .next t ∧ StepTo s t := by
  cases hdue : s.due with
  | none => exact ⟨s.hostTurn, by rw [step, hdue], .turn hdue⟩
  | some w =>
    rw [step_of_due hdue, completeWord_eq_complete]
    obtain ⟨t, heffect, hnext⟩ | ⟨e, -, hnext⟩ := complete_cases (wordEffect w s) s
    · exact ⟨_, hnext, .success w t hdue heffect⟩
    · exact ⟨_, hnext, .failure w e hdue⟩

theorem stepTo_of_step {s t : State} (h : step s = .next t) : StepTo s t := by
  obtain ⟨u, hnext, hto⟩ := exists_step s
  cases hnext.symm.trans h
  exact hto

/-- Settles O5: the completion of a due word decodes it and runs the command. -/
theorem stepRunsDecodedCommand : Obligations.StepRunsDecodedCommand := by
  unfold Obligations.StepRunsDecodedCommand
  intro s w i hr hp hw hdecode
  rw [step_of_due (due_of_pend hr hp hw), completeWord, hdecode]

/-- Settles O6: a word that does not decode completes with IllegalCommand. -/
theorem stepRaisesIllegalCommand : Obligations.StepRaisesIllegalCommand := by
  unfold Obligations.StepRaisesIllegalCommand
  intro s w e hr hp hw hdecode
  rw [step_of_due (due_of_pend hr hp hw), completeWord, hdecode, complete_error, State.raise_eq_errStatus]

/-- Settles O7: each of the three ways of a step is a next state. -/
theorem everyStepGoesOn : Obligations.EveryStepGoesOn := by
  unfold Obligations.EveryStepGoesOn Runs
  intro s
  obtain ⟨t, hnext, -⟩ := exists_step s
  exact ⟨t, hnext⟩

/-- Settles O13: both kinds of completion clear PEND and set DONE, and a word is due only with reset released. -/
theorem completionSetsDoneAndIrq : Obligations.CompletionSetsDoneAndIrq := by
  unfold Obligations.CompletionSetsDoneAndIrq
  intro s w hdue
  obtain ⟨hr, -, -⟩ := State.due_some hdue
  obtain ⟨t, hnext, hto⟩ := exists_step s
  refine ⟨t, hnext, ?_⟩
  cases hto with
  | success w' u _ heffect =>
    have hr' : u.rstN = true := (wordEffect_keeps heffect).untouched.rstN.trans hr
    exact ⟨rfl, rfl, by simp [State.irq, Status.onSuccess, hr']⟩
  | failure w' e _ => exact ⟨rfl, rfl, by simp [State.irq, Status.onError, hr]⟩
  | turn hnone => rw [hnone] at hdue; cases hdue

/-! ### The host's turn -/

/-- What an access can do to the block, apart from its answer (20_memory R104 to R110). -/
inductive AccessTo (s : State) : State → Prop
  | unchanged : AccessTo s s
  | issue (w : Word) (hfree : s.pend = none) : AccessTo s (s.issue w)
  | overrun : AccessTo s { s with status := s.status.onOverrun }
  | statusWrite (w : Word) : AccessTo s { s with status := s.status.onHostWrite w }
  | cfgWrite (w : Word) (hfree : s.pend = none) : AccessTo s { s with cfg := Cfg.ofWord w }
  | plenWrite (w : Word) (hfree : s.pend = none) : AccessTo s { s with plen := w.setWidth 8 }
  | storageWrite (o : Nat) (w : Word) (hfree : s.pend = none) : AccessTo s (s.writeWord o w)

theorem State.pend_of_not_busy {s : State} (h : s.busy = false) : s.pend = none := by
  simpa [State.busy] using h

theorem accessTo_writeReg (s : State) (off : Nat) (w : Word) : AccessTo s (s.writeReg off w).1 := by
  unfold State.writeReg
  split
  · split
    next => exact .overrun
    next h => exact .issue w (State.pend_of_not_busy (by simpa using h))
  · exact .statusWrite w
  · split
    next => exact .unchanged
    next h => exact .cfgWrite w (State.pend_of_not_busy (by simpa using h))
  · split
    next => exact .unchanged
    next h => exact .plenWrite w (State.pend_of_not_busy (by simpa using h))
  · exact .unchanged

theorem accessTo_busAccess (s : State) (q : BusReq) : AccessTo s (s.busAccess q).1 := by
  unfold State.busAccess
  split
  · exact .unchanged
  split
  · unfold State.busWrite
    split
    · exact accessTo_writeReg s _ _
    split
    next h =>
      have hfree : s.busy = false := by simpa using (Bool.and_eq_true_iff.mp h).2
      exact .storageWrite _ _ (State.pend_of_not_busy hfree)
    next => exact .unchanged
  · exact .unchanged

/-- What serving an event can do to the block (20_memory R125, 70_reset R600; log 5, log 13). -/
inductive ServeTo (s : State) : HostEvent → State → Prop
  | kept (e : HostEvent) (r : Option BusResp) : ServeTo s e { s with rsp := r }
  | access (q : BusReq) (t : State) (r : Option BusResp) (hr : s.rstN = true) (haccess : AccessTo s t) :
      ServeTo s (.access q) { t with rsp := r }
  | reset (hr : s.rstN = true) : ServeTo s .resetAssert s.hardwareReset
  | release : ServeTo s .resetRelease { s with rstN := true }

theorem serveTo_serve (s : State) (e : HostEvent) : ServeTo s e (s.serve e) := by
  cases e with
  | idle => exact .kept .idle s.rsp
  | access q =>
    rw [State.serve, State.serveAccess]
    split
    next hr => exact .access q _ _ hr (accessTo_busAccess s q)
    next => exact .kept _ _
  | resetAssert =>
    rw [State.serve]
    split
    next hr => exact .reset hr
    next => exact .kept _ s.rsp
  | resetRelease => exact .release

theorem State.hostTurn_of_nil {s : State} (h : s.host = []) : s.hostTurn = turn s [] := by
  have htick : s.hostTurn = s.tick := by rw [State.hostTurn, h]
  rw [htick, turn, ← h]
  rfl

theorem State.hostTurn_of_cons {s : State} {e : HostEvent} {es : List HostEvent} (h : s.host = e :: es) :
    s.hostTurn = (turn s es).serve e := by
  rw [State.hostTurn, h]
  rfl

/-- The host's turn serves some event after the turn itself, if only an idle one. -/
theorem exists_serveTo_hostTurn (s : State) : ∃ e es, ServeTo (turn s es) e s.hostTurn := by
  cases hhost : s.host with
  | nil =>
    rw [State.hostTurn_of_nil hhost]
    exact ⟨.idle, [], .kept .idle s.rsp⟩
  | cons e es =>
    rw [State.hostTurn_of_cons hhost]
    exact ⟨e, es, serveTo_serve _ e⟩

/-! ### The invariant -/

/-- Settles O9: the fields of the reset state are closed. -/
theorem resetHasInvariant : Obligations.ResetHasInvariant := by
  unfold Obligations.ResetHasInvariant
  exact ⟨State.reset_wf, by decide, ⟨fun w hw => absurd hw (Option.not_mem_none w), fun _ => rfl⟩, rfl⟩

/-- A completion leaves no pending command and no latency, and sets ERR and ERRCODE together. -/
theorem inv_of_completed {t : State} (hwf : t.mem.wf = true) (hsym : SymLegal t) (hpend : t.pend = none)
    (hwait : t.wait = 0) (herr : ErrConsistent t) : Inv t :=
  ⟨hwf, hsym, ⟨fun w hw => absurd (hpend ▸ hw) (Option.not_mem_none w), fun _ => hwait⟩, herr⟩

/-- Serving an access keeps the invariant: only an issue makes a command pending, and it clears DONE and the error. -/
theorem AccessTo.inv {s t : State} (h : AccessTo s t) (hr : s.rstN = true) (hinv : Inv s) : Inv t := by
  obtain ⟨hwf, hsym, ⟨hpend, hwait⟩, herr⟩ := hinv
  cases h with
  | unchanged => exact ⟨hwf, hsym, ⟨hpend, hwait⟩, herr⟩
  | issue w _ =>
    exact ⟨hwf, hsym, ⟨fun v hv => ⟨Option.some.inj hv, hr, rfl, rfl, rfl⟩, nofun⟩, rfl⟩
  | overrun => exact ⟨hwf, hsym, ⟨hpend, hwait⟩, herr⟩
  | statusWrite w =>
    refine ⟨hwf, hsym, ⟨fun v hv => ?_, hwait⟩, herr⟩
    obtain ⟨hcmd, hrst, hdone, herr0, hcode⟩ := hpend v hv
    exact ⟨hcmd, hrst, by simp [Status.onHostWrite, hdone], herr0, hcode⟩
  | cfgWrite w _ => exact ⟨hwf, hsym, ⟨hpend, hwait⟩, herr⟩
  | plenWrite w _ => exact ⟨hwf, hsym, ⟨hpend, hwait⟩, herr⟩
  | storageWrite o w _ => exact ⟨State.writeBytes_wf s _ _ hwf, hsym, ⟨hpend, hwait⟩, herr⟩

theorem inv_hardwareReset (s : State) : Inv s.hardwareReset :=
  ⟨Memory.wf_nil, (by decide : SymLegal State.reset),
    ⟨fun w hw => absurd hw (Option.not_mem_none w), fun _ => rfl⟩, rfl⟩

theorem ServeTo.inv {s t : State} {e : HostEvent} (h : ServeTo s e t) (hinv : Inv s) : Inv t := by
  cases h with
  | kept => exact hinv
  | access q u r hr haccess => exact haccess.inv hr hinv
  | reset => exact inv_hardwareReset s
  | release =>
    obtain ⟨hwf, hsym, ⟨hpend, hwait⟩, herr⟩ := hinv
    refine ⟨hwf, hsym, ⟨fun w hw => ?_, hwait⟩, herr⟩
    obtain ⟨hcmd, -, hflags⟩ := hpend w hw
    exact ⟨hcmd, rfl, hflags⟩

/-- The turn itself: a latency counts down, and without a pending command there is none. -/
theorem inv_turn {s : State} (es : List HostEvent) (hinv : Inv s) : Inv (turn s es) := by
  obtain ⟨hwf, hsym, ⟨hpend, hwait⟩, herr⟩ := hinv
  refine ⟨hwf, hsym, ⟨hpend, fun hnone => ?_⟩, herr⟩
  have hzero : s.wait = 0 := hwait hnone
  exact (congrArg (· - 1) hzero : s.wait - 1 = 0)

theorem inv_hostTurn {s : State} (hinv : Inv s) : Inv s.hostTurn := by
  obtain ⟨e, es, hserve⟩ := exists_serveTo_hostTurn s
  exact hserve.inv (inv_turn es hinv)

/-- Settles O8: by the three ways of a step; the effects keep the memory's form and SYM, and the completion or the
access sets the engine's fields. -/
theorem stepKeepsInvariant : Obligations.StepKeepsInvariant := by
  unfold Obligations.StepKeepsInvariant
  intro s t hinv hnext
  cases stepTo_of_step hnext with
  | success w u hdue heffect =>
    obtain ⟨hwf, hsym, -, -⟩ := hinv
    obtain ⟨-, hwait, -⟩ := State.due_some hdue
    obtain ⟨huntouched, hkeepwf, hkeepsym⟩ := wordEffect_keeps heffect
    exact inv_of_completed (hkeepwf hwf) (hkeepsym hsym) rfl (huntouched.wait.trans hwait) rfl
  | failure w e hdue =>
    obtain ⟨hwf, hsym, -, -⟩ := hinv
    obtain ⟨-, hwait, -⟩ := State.due_some hdue
    exact inv_of_completed hwf hsym rfl hwait rfl
  | turn => exact inv_hostTurn hinv

/-! ### Sequences of effects -/

/-- The effects of commands one after another, up to the first error. -/
def effectAll : List Instr → State → Except CmdError State
  | [], s => .ok s
  | i :: is, s => commandEffect i s >>= effectAll is

/-- The steps of GENERATE are the commands of ENCODE (46_control R510, R511). -/
theorem generateSteps_eq_effectAll (ecl : BitVec 3) (s : State) :
    generateSteps ecl s = effectAll (encodeSequence ecl) s := by
  have hlast : cmdFmtwr = fun s => cmdFmtwr s >>= Except.ok := by
    funext s
    cases cmdFmtwr s <;> rfl
  rw [generateSteps, hlast]
  rfl

/-- What every command of a sequence keeps, a sequence that succeeds keeps. -/
theorem effectAll_induction {R : State → State → Prop} (hrefl : ∀ s, R s s)
    (htrans : ∀ {s t u : State}, R s t → R t u → R s u) {is : List Instr}
    (hstep : ∀ i ∈ is, ∀ s t, commandEffect i s = .ok t → R s t) {s t : State} (h : effectAll is s = .ok t) :
    R s t := by
  induction is generalizing s with
  | nil => cases h; exact hrefl _
  | cons i is ih =>
    obtain ⟨hi, his⟩ := List.forall_mem_cons.mp hstep
    obtain ⟨u, hu, h⟩ := bind_ok h
    exact htrans (hi _ _ hu) (ih his h)

theorem generate_not_mem_encodeSequence {i : Instr} {ecl ecl' : BitVec 3} (h : i ∈ encodeSequence ecl) :
    i ≠ .generate ecl' := by
  rintro rfl
  simp [encodeSequence] at h

theorem exists_effectAll_of_generate {ecl : BitVec 3} {s t : State} (h : commandEffect (.generate ecl) s = .ok t) :
    ∃ u, effectAll (encodeSequence ecl) s = .ok u ∧
      t = { u with result0 := word u.size, result1 := u.sym.toWord } := by
  obtain ⟨_, -, h⟩ := bind_ok h
  obtain ⟨_, -, h⟩ := bind_ok h
  obtain ⟨u, hu, h⟩ := bind_ok h
  cases h
  exact ⟨u, generateSteps_eq_effectAll ecl s ▸ hu, rfl⟩

/-! ### The scores -/

/-- From a legal SYM and bounded scores come a legal SYM and bounded scores. -/
def BoundsScores (s t : State) : Prop := SymLegal s ∧ ScoresBounded s → SymLegal t ∧ ScoresBounded t

theorem scoresBounded_cmdMasksel {s t : State} (hsym : SymLegal s) (h : cmdMasksel s = .ok t) : ScoresBounded t := by
  obtain ⟨_, -, h⟩ := bind_ok h
  cases h
  intro k
  have hle := candidate_le hsym k
  have hreg : (scoreRegs s.maskScore)[k] = BitVec.ofNat 16 (candidate s k) :=
    s.maskScore_eq_candidate k.isLt ▸ getElem_scoreRegs s.maskScore k
  refine (congrArg BitVec.toNat hreg).le.trans ?_
  rw [BitVec.toNat_ofNat]
  omega

/-- Apart from GENERATE only MASKSEL and SRST write the scores (10_state R43). -/
theorem commandEffect_scoresBounded {i : Instr} (hi : ∀ ecl, i ≠ .generate ecl) {s t : State} (hsym : SymLegal s)
    (hbound : ScoresBounded s) (h : commandEffect i s = .ok t) : ScoresBounded t := by
  cases i with
  | nop | gfclmul | gfred | gfmul | gfexp | rsgen | eccil | mclear | mscore => cases h; exact hbound
  | srst => cases h; exact (by decide : ScoresBounded State.reset)
  | gflog a =>
    have h : cmdGflog a s = .ok t := h
    cases hlog : gfLogTable a with
    | none => rw [cmdGflog_of_none hlog] at h; cases h
    | some n => rw [cmdGflog_of_some hlog] at h; cases h; exact hbound
  | rsenc len nsym =>
    have h : cmdRsenc len nsym s = .ok t := h
    rw [cmdRsenc] at h
    split at h
    · cases h
    · cases h; exact hbound
  | pack | stfind | stalign | sttime | rsvfmt | place | fmtenc | fmtwr => 
    obtain ⟨_, -, h⟩ := bind_ok h
    cases h
    exact hbound
  | setsym | selver =>
    obtain ⟨_, -, h⟩ := bind_ok h
    obtain ⟨_, -, h⟩ := bind_ok h
    cases h
    exact hbound
  | mapply k =>
    have h : cmdMapply k s = .ok t := h
    rw [cmdMapply] at h
    split at h
    · cases h; exact hbound
    split at h
    · cases h; exact hbound
    · cases h
  | masksel => exact scoresBounded_cmdMasksel hsym h
  | generate ecl => exact absurd rfl (hi ecl)

theorem commandEffect_boundsScores {i : Instr} {s t : State} (h : commandEffect i s = .ok t) : BoundsScores s t := by
  by_cases hi : ∀ ecl, i ≠ .generate ecl
  · exact fun ⟨hsym, hbound⟩ => ⟨(commandEffect_keeps h).sym hsym, commandEffect_scoresBounded hi hsym hbound h⟩
  · obtain ⟨ecl, rfl⟩ : ∃ ecl, i = .generate ecl := by simpa using hi
    obtain ⟨u, hu, rfl⟩ := exists_effectAll_of_generate h
    have hsteps : BoundsScores s u := effectAll_induction (R := BoundsScores) (fun _ => id) (fun h k => k ∘ h)
      (fun j hj a b hab ⟨hsym, hbound⟩ => ⟨(commandEffect_keeps hab).sym hsym,
        commandEffect_scoresBounded (fun _ => generate_not_mem_encodeSequence hj) hsym hbound hab⟩) hu
    exact hsteps

theorem wordEffect_boundsScores {w : Word} {s t : State} (h : wordEffect w s = .ok t) : BoundsScores s t := by
  rw [wordEffect] at h
  cases hdecode : decode w with
  | ok i => rw [hdecode] at h; exact commandEffect_boundsScores h
  | error e => rw [hdecode] at h; cases h

theorem AccessTo.scores_eq {s t : State} (h : AccessTo s t) : t.scores = s.scores := by cases h <;> rfl

/-- A hardware reset clears the scores, and no other event of the host changes them. -/
theorem ServeTo.scoresBounded {s t : State} {e : HostEvent} (h : ServeTo s e t) (hbound : ScoresBounded s) :
    ScoresBounded t := by
  cases h with
  | kept => exact hbound
  | access q u r _ haccess =>
    have hscores : ({ u with rsp := r } : State).scores = s.scores := haccess.scores_eq
    intro k
    rw [hscores]
    exact hbound k
  | reset => exact (by decide : ScoresBounded State.reset)
  | release => exact hbound

/-- Settles O10: the scores are written by MASKSEL, with the candidates' scores, and by the resets, with 0. -/
theorem stepKeepsScoreBound : Obligations.StepKeepsScoreBound := by
  unfold Obligations.StepKeepsScoreBound
  intro s t hsym hbound hnext
  cases stepTo_of_step hnext with
  | success w u _ heffect => exact (wordEffect_boundsScores heffect ⟨hsym, hbound⟩).2
  | failure => exact hbound
  | turn =>
    obtain ⟨e, es, hserve⟩ := exists_serveTo_hostTurn s
    exact hserve.scoresBounded hbound

end Sys2Proof.Machine
end

