-- ==== Sys2Proof/Proofs/HostAccess.lean ====
section
/-! The host's turn seen from the bus: which access is rejected, what each register reads as and what a write to it
does, the reset pin, and the turns of a latency (20_memory R101 to R110, 60_exceptions R551, 70_reset R600, R620). -/

namespace Sys2Proof.Machine
open Sys2Proof.Claims

/-! ### Numbers of concatenated fields -/

theorem toNat_append_eq_add {m n : Nat} (x : BitVec m) (y : BitVec n) :
    (x ++ y).toNat = x.toNat * 2 ^ n + y.toNat := by
  rw [BitVec.toNat_append, ← Nat.shiftLeft_add_eq_or_of_lt y.isLt, Nat.shiftLeft_eq]

theorem toNat_ofBool_eq_ite (b : Bool) : (BitVec.ofBool b).toNat = if b = true then 1 else 0 := by cases b <;> rfl

theorem toNat_mstateCode (m : MState) : m.code.toNat = mstateValue m := by cases m <;> rfl

theorem toNat_errCodeField (o : Option CmdError) : (errCodeField o).toNat = errCodeValue o := by
  cases o with
  | none => rfl
  | some e => cases e <;> rfl

/-! ### Register reads -/

theorem State.toNat_statusWord (s : State) : s.statusWord.toNat =
    (if s.pend.isSome then 1 else 0) + (if s.status.done then 2 else 0) + (if s.status.err then 4 else 0)
      + (if s.status.ovr then 8 else 0) + 16 * mstateValue s.status.mstate + 256 * errCodeValue s.status.errCode := by
  simp only [State.statusWord, Status.toWord, toNat_append_eq_add, toNat_ofBool_eq_ite, toNat_mstateCode,
    toNat_errCodeField, BitVec.toNat_ofNat, State.busy]
  split_ifs <;> omega

theorem Cfg.toNat_toWord (c : Cfg) :
    c.toWord.toNat = (if c.fallback then 1 else 0) + (if c.ie then 2 else 0) := by
  simp only [Cfg.toWord, toNat_append_eq_add, toNat_ofBool_eq_ite, BitVec.toNat_ofNat]
  split_ifs <;> omega

theorem Sym.toNat_toWord (y : Sym) :
    y.toWord.toNat = y.ver.toNat + 16 * y.ecl.toNat + 256 * y.mask.toNat + 65536 * y.size.toNat := by
  simp only [Sym.toWord, toNat_append_eq_add, BitVec.toNat_ofNat]
  omega

theorem State.toNat_score (s : State) (k : Fin 8) :
    (s.scores[k].setWidth 32).toNat = (s.scores.toList.map BitVec.toNat).getD k 0 := by
  rw [BitVec.toNat_setWidth_of_le (by omega)]
  simp

/-- Every register reads as the number its layout gives (20_memory R102, 10_state R32 to R43). -/
theorem State.toNat_readReg (s : State) {off : Nat} (hlt : off < 0x40) (hmod : off % 4 = 0) :
    (s.readReg off).toNat = registerValue s off := by
  obtain ⟨k, rfl⟩ := Nat.dvd_of_mod_eq_zero hmod
  have hk : k < 16 := by omega
  match k, hk with
  | 0, _ | 1, _ | 6, _ | 7, _ => rfl
  | 2, _ => exact s.toNat_statusWord
  | 3, _ => exact s.cfg.toNat_toWord
  | 4, _ => exact s.sym.toNat_toWord
  | 5, _ => exact BitVec.toNat_setWidth_of_le (show 8 ≤ 32 by omega)
  | 8, _ => exact s.toNat_score 0
  | 9, _ => exact s.toNat_score 1
  | 10, _ => exact s.toNat_score 2
  | 11, _ => exact s.toNat_score 3
  | 12, _ => exact s.toNat_score 4
  | 13, _ => exact s.toNat_score 5
  | 14, _ => exact s.toNat_score 6
  | 15, _ => exact s.toNat_score 7
  | k + 16, hge => exact absurd hge (by omega)

/-- With no completion due, the next event is served after the turn. -/
theorem step_turn_serve {s : State} {e : HostEvent} {rest : List HostEvent} (hdue : s.due = none)
    (hhost : s.host = e :: rest) : step s = .next ((turn s rest).serve e) := step_serve hdue hhost

/-- Settles O47: every register is served, and its word has the number of its layout. -/
theorem registerReadsAnswerTheRegister : Obligations.RegisterReadsAnswerTheRegister := by
  unfold Obligations.RegisterReadsAnswerTheRegister
  intro s addr w rest hr hdue hhost hlt hmod
  refine ⟨s.readReg addr.toNat, s.toNat_readReg hlt hmod, ?_⟩
  have hserve := State.serve_wordAccess_read (s := turn s rest) w hr hmod
  rw [State.busRead_register _ hlt] at hserve
  exact (step_turn_serve hdue hhost).trans (congrArg _ hserve)

/-! ### Register writes -/

theorem State.busWrite_register (s : State) {off : Nat} (w : Word) (h : off < 0x40) :
    s.busWrite off w = s.writeReg off w := by
  simp [State.busWrite, isRegAddr, h]

/-- With reset released and no completion due, a word write to a register is the register's. -/
theorem step_register_write {s u : State} {addr : BitVec 13} {w : Word} {rest : List HostEvent} (hr : s.rstN = true)
    (hdue : s.due = none) (hhost : s.host = wordAccess addr true w :: rest) (hlt : addr.toNat < 0x40)
    (hmod : addr.toNat % 4 = 0) (hwrite : (turn s rest).writeReg addr.toNat w = (u, .ack)) :
    step s = .next { u with rsp := some .ack } := by
  have hserve := State.serve_wordAccess_write (s := turn s rest) w hr hmod
  rw [State.busWrite_register _ w hlt, hwrite] at hserve
  exact (step_turn_serve hdue hhost).trans (congrArg _ hserve)

section WriteReg
variable (s : State) (w : Word)

theorem State.busy_of_pend_none {s : State} (h : s.pend = none) : s.busy = false := by rw [State.busy, h]; rfl
theorem State.busy_of_pend {s : State} {p : Word} (h : s.pend = some p) : s.busy = true := by rw [State.busy, h]; rfl

theorem State.writeReg_cmd {s : State} (h : s.pend = none) : s.writeReg 0x04 w = (s.issue w, .ack) := by
  rw [State.writeReg, State.busy_of_pend_none h]
  rfl

theorem State.writeReg_cmd_busy {s : State} {p : Word} (h : s.pend = some p) :
    s.writeReg 0x04 w = ({ s with status := s.status.onOverrun }, .ack) := by
  rw [State.writeReg, State.busy_of_pend h]
  rfl

theorem State.writeReg_status : s.writeReg 0x08 w = ({ s with status := s.status.onHostWrite w }, .ack) := rfl

theorem State.writeReg_cfg {s : State} (h : s.pend = none) :
    s.writeReg 0x0C w = ({ s with cfg := Cfg.ofWord w }, .ack) := by
  rw [State.writeReg, State.busy_of_pend_none h]
  rfl

theorem State.writeReg_plen {s : State} (h : s.pend = none) :
    s.writeReg 0x14 w = ({ s with plen := w.setWidth 8 }, .ack) := by
  rw [State.writeReg, State.busy_of_pend_none h]
  rfl

theorem State.writeReg_cfg_plen_busy {s : State} {off : Nat} (h : s.busy = true) (hoff : off = 0x0C ∨ off = 0x14) :
    s.writeReg off w = (s, .busErr) := by
  obtain rfl | rfl := hoff
  · exact if_pos h
  · exact if_pos h

/-- Every other register is read-only (20_memory R108). -/
theorem State.writeReg_readOnly {off : Nat} (hcmd : off ≠ 0x04) (hstatus : off ≠ 0x08) (hcfg : off ≠ 0x0C)
    (hplen : off ≠ 0x14) : s.writeReg off w = (s, .ack) := by
  unfold State.writeReg
  split
  · exact absurd rfl hcmd
  · exact absurd rfl hstatus
  · exact absurd rfl hcfg
  · exact absurd rfl hplen
  · rfl

end WriteReg

/-- Settles O48: the write issues the word; the issue clears DONE, so `irq` falls. -/
theorem commandWriteIssues : Obligations.CommandWriteIssues := by
  unfold Obligations.CommandWriteIssues
  intro s w rest hr hfree hhost
  have hwrite : (turn s rest).writeReg 0x04 w = ((turn s rest).issue w, .ack) := State.writeReg_cmd w hfree
  refine ⟨_, step_register_write hr (State.due_of_pend_none hfree) hhost (by decide) (by decide) hwrite, rfl, ?irq,
    fun n ns hlat => ?latency⟩
  case irq => simp [State.irq, State.issue, Status.onIssue]
  case latency =>
    have hlat' : (turn s rest).latencies = n :: ns := hlat
    show (turn s rest).nextLatency w = n
    rw [State.nextLatency, hlat']

/-- Settles O49: while a command is pending, the write sets OVR alone. -/
theorem commandWriteWhileBusyIsDropped : Obligations.CommandWriteWhileBusyIsDropped := by
  unfold Obligations.CommandWriteWhileBusyIsDropped
  intro s w p rest hr hpend hwait hhost
  exact step_register_write hr (State.due_of_wait hwait) hhost (by decide) (by decide)
    (State.writeReg_cmd_busy (s := turn s rest) w hpend)

/-- Settles O50: the write goes to the two flags alone, busy or not. -/
theorem statusWriteClearsFlags : Obligations.StatusWriteClearsFlags := by
  unfold Obligations.StatusWriteClearsFlags
  intro s w rest hr hdue hhost
  refine ⟨_, step_register_write hr hdue hhost (by decide) (by decide) (State.writeReg_status _ w), rfl, ?irq⟩
  case irq => exact congrArg (· && (s.status.done && !w.getLsbD 1) && s.cfg.ie) hr

/-- Settles O51, by the register written. -/
theorem registerWritesStoreWritableBits : Obligations.RegisterWritesStoreWritableBits := by
  unfold Obligations.RegisterWritesStoreWritableBits
  intro s addr w rest hr hdue hhost hlt hmod
  refine ⟨fun hfree haddr => ?cfg, fun hfree haddr => ?plen, fun hcmd hstatus hcfg hplen => ?readOnly⟩
  case cfg =>
    subst haddr
    refine ⟨_, step_register_write hr hdue hhost hlt hmod (State.writeReg_cfg w hfree), rfl, ?irq⟩
    case irq => exact congrArg (· && s.status.done && w.getLsbD 1) hr
  case plen =>
    subst haddr
    exact step_register_write hr hdue hhost hlt hmod (State.writeReg_plen w hfree)
  case readOnly =>
    have hne : ∀ {a : BitVec 13}, addr ≠ a → addr.toNat ≠ a.toNat := mt BitVec.eq_of_toNat_eq
    exact step_register_write hr hdue hhost hlt hmod
      (State.writeReg_readOnly _ w (hne hcmd) (hne hstatus) (hne hcfg) (hne hplen))

/-! ### Rejected accesses -/

theorem mapped_iff (a : Nat) : Mapped a ↔ isRegAddr a = true ∨ isStorageAddr a = true := by
  rw [isStorageAddr_iff, isRegAddr, decide_eq_true_iff]
  rfl

/-- The access is a whole word at a multiple of four (20_memory R105, R106). -/
def WellFormedAccess (q : BusReq) : Prop := q.strb = 0xF#4 ∧ q.addr.toNat % 4 = 0

section Access
variable (s : State) {q : BusReq}

theorem State.busAccess_of_not_wellFormed (h : ¬ WellFormedAccess q) : s.busAccess q = (s, .busErr) := by
  rw [WellFormedAccess, not_and_or] at h
  exact if_pos h

theorem State.busAccess_of_wellFormed (h : WellFormedAccess q) : s.busAccess q =
    if q.write then s.busWrite q.addr.toNat q.wdata else (s, s.busRead q.addr.toNat) := by
  rw [WellFormedAccess] at h
  exact if_neg (by tauto)

/-- An offset that is no register's, and not of storage the host can use now, is shut (20_memory R104, R110). -/
def State.Shut (off : Nat) : Prop := isRegAddr off = false ∧ (isStorageAddr off && !s.busy) = false

variable {s} {off : Nat}

theorem State.busRead_of_shut (h : s.Shut off) : s.busRead off = .busErr := by
  obtain ⟨hreg, hstorage⟩ := h
  simp [State.busRead, hreg, hstorage]

theorem State.busWrite_of_shut (w : Word) (h : s.Shut off) : s.busWrite off w = (s, .busErr) := by
  obtain ⟨hreg, hstorage⟩ := h
  simp [State.busWrite, hreg, hstorage]

theorem State.exists_busRead_data (h : ¬ s.Shut off) : ∃ d, s.busRead off = .data d := by
  rw [State.busRead]
  split_ifs with hreg hstorage
  · exact ⟨_, rfl⟩
  · exact ⟨_, rfl⟩
  · exact absurd ⟨Bool.eq_false_iff.mpr hreg, Bool.eq_false_iff.mpr hstorage⟩ h

theorem State.writeReg_ack (w : Word) (h : ¬ (s.busy = true ∧ (off = 0x0C ∨ off = 0x14))) :
    (s.writeReg off w).2 = .ack := by
  unfold State.writeReg
  split
  · split <;> rfl
  · rfl
  · rw [if_neg fun hbusy => h ⟨hbusy, .inl rfl⟩]
  · rw [if_neg fun hbusy => h ⟨hbusy, .inr rfl⟩]
  · rfl

theorem State.busWrite_ack (w : Word) (hopen : ¬ s.Shut off) (h : ¬ (s.busy = true ∧ (off = 0x0C ∨ off = 0x14))) :
    (s.busWrite off w).2 = .ack := by
  rw [State.busWrite]
  split_ifs with hreg hstorage
  · exact State.writeReg_ack w h
  · rfl
  · exact absurd ⟨Bool.eq_false_iff.mpr hreg, Bool.eq_false_iff.mpr hstorage⟩ hopen

/-- The causes of a bus error, as the block checks them (60_exceptions R551). -/
theorem rejected_iff : Rejected q s.busy ↔ ¬ WellFormedAccess q ∨ s.Shut q.addr.toNat ∨
    (q.write = true ∧ s.busy = true ∧ (q.addr.toNat = 0x0C ∨ q.addr.toNat = 0x14)) := by
  have hreg : 0x40 ≤ q.addr.toNat ↔ ¬ isRegAddr q.addr.toNat = true := by
    rw [isRegAddr, decide_eq_true_iff, Nat.not_lt]
  simp only [Rejected, mapped_iff, hreg, WellFormedAccess, State.Shut, Bool.eq_false_iff, ne_eq, Bool.and_eq_true,
    Bool.not_eq_true']
  tauto

end Access

/-- With reset released and no completion due, a step with an access waiting serves and answers it. -/
theorem step_access {s : State} {q : BusReq} {rest : List HostEvent} (hr : s.rstN = true) (hdue : s.due = none)
    (hhost : s.host = .access q :: rest) : step s = .next { ((turn s rest).busAccess q).1 with
      rsp := some ((turn s rest).busAccess q).2 } :=
  (step_turn_serve hdue hhost).trans (congrArg _ (if_pos hr))

/-- Settles O46: the checks of an access are the causes of a bus error, and what passes them is served. -/
theorem rejectedAccessesHaveNoEffect : Obligations.RejectedAccessesHaveNoEffect := by
  unfold Obligations.RejectedAccessesHaveNoEffect
  intro s q rest hr hdue hhost
  have hstep := step_access hr hdue hhost
  have hcauses : Rejected q s.busy ↔ _ := rejected_iff (s := turn s rest) (q := q)
  rw [hcauses]
  refine ⟨fun hrejected => ?rejected, fun hserved hwrite => ?write, fun hserved hread => ?read⟩
  case rejected =>
    have herr : (turn s rest).busAccess q = (turn s rest, .busErr) := by
      by_cases hform : WellFormedAccess q
      · rw [State.busAccess_of_wellFormed _ hform]
        obtain hnot | hshut | ⟨hwrite, hbusy, hreg⟩ := hrejected
        · exact absurd hform hnot
        · rw [State.busWrite_of_shut _ hshut, State.busRead_of_shut hshut, ite_self]
        · rw [if_pos hwrite, State.busWrite_register _ _ (by omega), State.writeReg_cfg_plen_busy _ hbusy hreg]
      · exact State.busAccess_of_not_wellFormed _ hform
    rw [hstep, herr]
  case write =>
    obtain ⟨hform, hopen, hfree⟩ := by simpa only [not_or, not_not] using hserved
    refine ⟨_, hstep, ?_⟩
    rw [State.busAccess_of_wellFormed _ hform, if_pos hwrite]
    exact congrArg some (State.busWrite_ack _ hopen fun hreg => hfree ⟨hwrite, hreg⟩)
  case read =>
    obtain ⟨hform, hopen, -⟩ := by simpa only [not_or, not_not] using hserved
    obtain ⟨d, hd⟩ := State.exists_busRead_data hopen
    refine ⟨d, hstep.trans ?_⟩
    rw [State.busAccess_of_wellFormed _ hform, hread, if_neg Bool.false_ne_true, hd]

/-! ### The reset pin and the idle turn -/

/-- Settles O53: the assertion is served by the hardware reset. -/
theorem hardwareResetLoadsResetValues : Obligations.HardwareResetLoadsResetValues := by
  unfold Obligations.HardwareResetLoadsResetValues
  intro s rest hr hdue hhost
  have hserve : (turn s rest).serve .resetAssert = (turn s rest).hardwareReset := if_pos hr
  exact ⟨_, (step_turn_serve hdue hhost).trans (congrArg _ hserve), rfl, rfl⟩

section Reset
variable {s : State} (hr : s.rstN = false)
include hr

theorem State.serve_access_of_reset (q : BusReq) : s.serve (.access q) = { s with rsp := some .noAnswer } :=
  if_neg (by simp [hr])

theorem State.serve_resetAssert_of_reset : s.serve .resetAssert = s := if_neg (by simp [hr])

/-- While `rst_n` is 0, an event other than the release changes the recorded answer at most (log 5, log 13). -/
theorem State.exists_serve_of_reset {e : HostEvent} (he : e ≠ .resetRelease) :
    ∃ r, s.serve e = { s with rsp := r } ∧ (r = s.rsp ∨ r = some .noAnswer) := by
  cases e with
  | idle => exact ⟨s.rsp, rfl, .inl rfl⟩
  | access q => exact ⟨some .noAnswer, State.serve_access_of_reset hr q, .inr rfl⟩
  | resetAssert => exact ⟨s.rsp, State.serve_resetAssert_of_reset hr, .inl rfl⟩
  | resetRelease => exact absurd rfl he

end Reset

/-- A release of a pin that is released changes nothing (log 13). -/
theorem State.serve_resetRelease {s : State} (hr : s.rstN = true) : s.serve .resetRelease = s := by
  rw [State.serve, ← hr]

/-- Settles O58, event by event. -/
theorem assertedResetAnswersNoAccess : Obligations.AssertedResetAnswersNoAccess := by
  unfold Obligations.AssertedResetAnswersNoAccess
  intro s rest
  refine ⟨fun hr => ⟨?irq, fun q hhost => ?access, fun hhost => ?idle, fun hhost => ?assert, fun hhost => ?release⟩,
    fun hr hdue hhost => ?released⟩
  case irq => rw [State.irq, hr, Bool.false_and, Bool.false_and]
  case access =>
    exact (step_turn_serve (State.due_of_reset hr) hhost).trans
      (congrArg _ (State.serve_access_of_reset (s := turn s rest) hr q))
  case idle => exact step_turn_serve (State.due_of_reset hr) hhost
  case assert =>
    exact (step_turn_serve (State.due_of_reset hr) hhost).trans
      (congrArg _ (State.serve_resetAssert_of_reset (s := turn s rest) hr))
  case release => exact step_turn_serve (State.due_of_reset hr) hhost
  case released =>
    exact (step_turn_serve hdue hhost).trans (congrArg _ (State.serve_resetRelease (s := turn s rest) hr))

/-- Settles O60: an idle event and an empty list serve nothing. -/
theorem idleTurnChangesNothing : Obligations.IdleTurnChangesNothing := by
  unfold Obligations.IdleTurnChangesNothing
  intro s rest hdue hhost
  refine ⟨?_, rfl⟩
  obtain hhost | ⟨hhost, rfl⟩ := hhost
  · exact step_turn_serve hdue hhost
  · rw [step, hdue, ← State.hostTurn_of_nil hhost]

/-! ### Runs -/

theorem core_run_one (s : State) : core.run 1 s = step s := by
  obtain ⟨t, hnext, -⟩ := exists_step s
  rw [core_run_succ 0 hnext, hnext]
  rfl

/-- A run of `m + n` steps is a run of `n` from where a run of `m` ends. -/
theorem core_run_add {m : Nat} {s t : State} (n : Nat) (h : core.run m s = .next t) :
    core.run (m + n) s = core.run n t := by
  induction m generalizing s with
  | zero =>
    cases h
    rw [Nat.zero_add]
  | succ m ih =>
    obtain ⟨u, hnext, -⟩ := exists_step s
    rw [core_run_succ m hnext] at h
    rw [Nat.add_right_comm, core_run_succ _ hnext, ih h]

/-- While `rst_n` is 0, a run of events without a release changes the recorded answer at most. -/
theorem core_run_during_reset {during : List HostEvent} (hrelease : ∀ e ∈ during, e ≠ .resetRelease)
    (rest : List HostEvent) {s : State} (hr : s.rstN = false) (hwait : s.wait = 0)
    (hhost : s.host = during ++ rest) : ∃ r, core.run during.length s = .next { s with host := rest, rsp := r } ∧
      (r = s.rsp ∨ r = some .noAnswer) := by
  induction during generalizing s with
  | nil =>
    obtain rfl : s.host = rest := hhost
    exact ⟨s.rsp, rfl, .inl rfl⟩
  | cons e during ih =>
    obtain ⟨he, hduring⟩ := List.forall_mem_cons.mp hrelease
    rw [List.cons_append] at hhost
    obtain ⟨r, hserve, hrsp⟩ := State.exists_serve_of_reset (s := turn s (during ++ rest)) hr he
    have hnext := step_turn_serve (State.due_of_reset hr) hhost
    rw [hserve] at hnext
    obtain ⟨r', hrun, hrsp'⟩ := ih hduring (s := { turn s (during ++ rest) with rsp := r }) hr
      (congrArg (· - 1) hwait) rfl
    refine ⟨r', ?run, ?rsp⟩
    case run =>
      have hwait' : s.wait - 1 = s.wait := by omega
      rw [List.length_cons, core_run_succ _ hnext, hrun]
      simp only [turn, hwait']
    case rsp =>
      obtain rfl | rfl := hrsp'
      · exact hrsp
      · exact .inr rfl

/-- Settles O59: the assertion loads the reset values, nothing until the release changes them, and the release sets the
pin. -/
theorem releasedBlockHoldsResetValues : Obligations.ReleasedBlockHoldsResetValues := by
  unfold Obligations.ReleasedBlockHoldsResetValues
  intro s during rest hr hdue hhost hrelease
  have hassert := step_turn_serve hdue hhost
  have hserve : (turn s (during ++ .resetRelease :: rest)).serve .resetAssert = _ := if_pos hr
  rw [hserve] at hassert
  obtain ⟨r, hrun, hrsp⟩ := core_run_during_reset hrelease (.resetRelease :: rest)
    (s := (turn s (during ++ .resetRelease :: rest)).hardwareReset) rfl rfl rfl
  have hlast := step_turn_serve (s := { (turn s (during ++ .resetRelease :: rest)).hardwareReset with
    host := .resetRelease :: rest, rsp := r }) (State.due_of_reset rfl) rfl
  have hall : core.run (during.length + 2) s = _ :=
    (core_run_succ _ hassert).trans ((core_run_add 1 hrun).trans ((core_run_one _).trans hlast))
  exact ⟨_, hall, rfl, hrsp, rfl⟩

/-! ### The turns of a latency -/

/-- `t` still has the pending command of `s`, and has all that a command reads or writes as in `s` (10_state R62). -/
structure Awaits (s t : State) : Prop where
  cmd : t.cmd = s.cmd
  cfg : t.cfg = s.cfg
  sym : t.sym = s.sym
  plen : t.plen = s.plen
  result0 : t.result0 = s.result0
  result1 : t.result1 = s.result1
  scores : t.scores = s.scores
  mem : t.mem = s.mem
  resets : t.resets = s.resets
  mstate : t.status.mstate = s.status.mstate
  err : t.status.err = s.status.err
  errCode : t.status.errCode = s.status.errCode
  pend : t.pend = s.pend
  rstN : t.rstN = s.rstN

theorem Awaits.refl (s : State) : Awaits s s := by constructor <;> rfl

theorem Awaits.trans {s t u : State} (h : Awaits s t) (k : Awaits t u) : Awaits s u :=
  ⟨k.1.trans h.1, k.2.trans h.2, k.3.trans h.3, k.4.trans h.4, k.5.trans h.5, k.6.trans h.6, k.7.trans h.7,
    k.8.trans h.8, k.9.trans h.9, k.10.trans h.10, k.11.trans h.11, k.12.trans h.12, k.13.trans h.13, k.14.trans h.14⟩

/-- While a command is pending, an access changes DONE and OVR at most (20_memory R110). -/
theorem AccessTo.awaits {s t : State} {w : Word} (h : AccessTo s t) (hpend : s.pend = some w) :
    Awaits s t ∧ t.wait = s.wait ∧ t.host = s.host := by
  have hbusy : s.pend ≠ none := by simp [hpend]
  cases h with
  | unchanged => exact ⟨.refl s, rfl, rfl⟩
  | overrun | statusWrite => exact ⟨by constructor <;> rfl, rfl, rfl⟩
  | issue _ hfree | cfgWrite _ hfree | plenWrite _ hfree | storageWrite _ _ hfree => exact absurd hfree hbusy

theorem ServeTo.awaits {s t : State} {e : HostEvent} {w : Word} (h : ServeTo s e t) (he : e ≠ .resetAssert)
    (hr : s.rstN = true) (hpend : s.pend = some w) : Awaits s t ∧ t.wait = s.wait ∧ t.host = s.host := by
  cases h with
  | kept => exact ⟨by constructor <;> rfl, rfl, rfl⟩
  | access q u r _ haccess =>
    obtain ⟨hawaits, hwait, hhost⟩ := haccess.awaits hpend
    exact ⟨hawaits.trans (by constructor <;> rfl), hwait, hhost⟩
  | reset => exact absurd rfl he
  | release => exact ⟨⟨rfl, rfl, rfl, rfl, rfl, rfl, rfl, rfl, rfl, rfl, rfl, rfl, rfl, hr.symm⟩, rfl, rfl⟩

/-- A turn of the latency counts it down and takes an event from the host's list; what the command needs stays. -/
theorem awaits_hostTurn {s : State} {w : Word} (hr : s.rstN = true) (hpend : s.pend = some w)
    (hassert : ∀ e ∈ s.host.head?.toList, e ≠ .resetAssert) :
    Awaits s s.hostTurn ∧ s.hostTurn.wait = s.wait - 1 ∧ s.hostTurn.host = s.host.tail := by
  cases hhost : s.host with
  | nil =>
    rw [State.hostTurn_of_nil hhost]
    exact ⟨by constructor <;> rfl, rfl, rfl⟩
  | cons e es =>
    have he : e ≠ .resetAssert := hassert e (by rw [hhost]; exact List.mem_singleton_self e)
    rw [State.hostTurn_of_cons hhost]
    obtain ⟨hawaits, hwait, hhost'⟩ := (serveTo_serve (turn s es) e).awaits he hr hpend
    exact ⟨.trans (by constructor <;> rfl) hawaits, hwait, hhost'⟩

/-- After the turns of its latency the pending command is due, and what it needs is as it was. -/
theorem exists_due_of_wait {n : Nat} {s : State} {w : Word} (hwait : s.wait = n) (hr : s.rstN = true)
    (hpend : s.pend = some w) (hassert : ∀ e ∈ s.host.take n, e ≠ .resetAssert) :
    ∃ t, core.run n s = .next t ∧ t.due = some w ∧ Awaits s t := by
  induction n generalizing s with
  | zero => exact ⟨s, rfl, due_of_pend hr hpend hwait, .refl s⟩
  | succ n ih =>
    have hsplit : s.host.take (n + 1) = s.host.head?.toList ++ s.host.tail.take n := by
      cases s.host <;> simp
    rw [hsplit, List.forall_mem_append] at hassert
    obtain ⟨hhead, htail⟩ := hassert
    obtain ⟨hawaits, hwait', hhost⟩ := awaits_hostTurn hr hpend hhead
    have hnext : step s = .next s.hostTurn := by rw [step, State.due_of_wait (by omega)]
    obtain ⟨t, hrun, hdue, hawaits'⟩ := ih (s := s.hostTurn) (by omega) (hawaits.rstN.trans hr)
      (hawaits.pend.trans hpend) (hhost ▸ htail)
    exact ⟨t, (core_run_succ n hnext).trans hrun, hdue, hawaits.trans hawaits'⟩

/-- Settles O55: every turn brings the completion nearer and leaves the command's inputs, and the due completion clears
BUSY. -/
theorem busyCommandCompletes : Obligations.BusyCommandCompletes := by
  unfold Obligations.BusyCommandCompletes
  intro s w hpend hr hassert
  obtain ⟨t, hrun, hdue, hawaits⟩ := exists_due_of_wait rfl hr hpend hassert
  obtain ⟨u, hnext, hto⟩ := exists_step t
  refine ⟨t, u, hrun, hdue, ?inputs, (core_run_add 1 hrun).trans ((core_run_one t).trans hnext), ?completed⟩
  case inputs =>
    obtain ⟨hcmd, hcfg, hsym, hplen, hresult0, hresult1, hscores, hmem, hresets, hmstate, herr, hcode, -, -⟩ := hawaits
    exact ⟨hcmd, hcfg, hsym, hplen, hresult0, hresult1, hscores, hmem, hresets, hmstate, herr, hcode⟩
  case completed =>
    cases hto with
    | success | failure => rfl
    | turn hnone => rw [hnone] at hdue; cases hdue

end Sys2Proof.Machine
end

