-- ==== Sys2Proof/Proofs/SymbolData.lean ====
section
/-! The data of the symbol: the tables that size and protect it, the codeword stream placed in zig-zag order, and a mask
applied and removed again (42_reed_solomon R301, 45_format R453, 43_matrix R375, 44_mask R401). -/

namespace Sys2Proof.Machine
open Sys2Proof.Claims

/-! ### Tables -/

/-- Settles O24: the 24 cells of the table are closed. -/
theorem blockTableAddsUp : Obligations.BlockTableAddsUp := by
  unfold Obligations.BlockTableAddsUp
  intro v hv e he
  exact blockTable_sums v hv e (by simp at he; omega)

/-- Settles O40: the pairs of the 32 words are finitely many. -/
theorem formatWordsFarApart : Obligations.FormatWordsFarApart := by
  unfold Obligations.FormatWordsFarApart
  have hpairs : ∀ i < 32, ∀ j < 32, i ≠ j → 7 ≤ (List.range 15).countP fun n =>
      (formatWord (i / 8) (i % 8)).getLsbD n != (formatWord (j / 8) (j % 8)).getLsbD n := by decide
  exact fun i j hi hj => hpairs i hi j hj

/-! ### A mask applied twice -/

/-- A byte of MAT is its two bits (10_state R46). -/
theorem eq_of_vBit_rBit {b b' : Byte} (hb : b &&& 3#8 = b) (hb' : b' &&& 3#8 = b') (hv : vBit b = vBit b')
    (hr : rBit b = rBit b') : b = b' := by
  have hbits : ∀ c : Byte, c &&& 3#8 = c → c = cellByte (vBit c) (rBit c) := by decide
  rw [hbits b hb, hbits b' hb', hv, hr]

/-- Where every cell outside the symbol is kept and every symbol cell has its bits again, so has every byte. -/
theorem readByte_eq_of_bits {s u : State} (hs : s.mem.wf = true) (hu : u.mem.wf = true)
    (hkept : CellsKept s u (InSymbol s))
    (hbits : ∀ r c, InSymbol s r c → vAt u r c = vAt s r c ∧ rAt u r c = rAt s r c) (a : Nat) :
    u.readByte a = s.readByte a := by
  obtain ⟨hbytes, hcells⟩ := hkept
  by_cases ha : InMat a
  · have hmat := (isMatAddr_iff a).mpr ha
    obtain ⟨r, c, hr, hc, rfl⟩ := exists_cell_of_isMatAddr a hmat
    by_cases hin : InSymbol s r c
    · obtain ⟨hv, hr⟩ := hbits r c hin
      exact eq_of_vBit_rBit (State.readByte_mat_and_three hu hmat) (State.readByte_mat_and_three hs hmat) hv hr
    · exact hcells r c hr hc hin
  · exact hbytes a ha

/-- Settles O35: the reserved bits stay, so the second application flips exactly the cells the first one flipped. -/
theorem maskTwiceRestores : Obligations.MaskTwiceRestores := by
  unfold Obligations.MaskTwiceRestores
  intro k s hsym hwf hdata
  have ht := exec_mapply_of_data k hdata
  set t := State.finish { (s.applyMask k.toNat).setMState .masked with
    sym := { s.sym with mask := k }, result0 := k.setWidth 32 }
  have hu := exec_mapply_of_masked (k := k) (s := t) rfl rfl
  refine ⟨t, _, ht, hu, rfl, fun a => ?_⟩
  obtain ⟨⟨hbytes, hcells⟩, hbits⟩ := maskApplied_applyMask hsym k.toNat
  obtain ⟨⟨hbytes', hcells'⟩, hbits'⟩ := maskApplied_applyMask (s := t) hsym k.toNat
  have hkept : CellsKept s (t.applyMask k.toNat) (InSymbol s) :=
    ⟨fun a ha => (hbytes' a ha).trans (hbytes a ha),
      fun r c hr hc hout => (hcells' r c hr hc hout).trans (hcells r c hr hc hout)⟩
  refine readByte_eq_of_bits (u := t.applyMask k.toNat) hwf
    (State.stampSymbol_wf t _ (State.stampSymbol_wf s _ hwf)) hkept (fun r c hin => ?_) a
  obtain ⟨hv, hr⟩ := hbits r c hin
  obtain ⟨hv', hr'⟩ := hbits' r c hin
  have hv : vAt t r c = maskedAt s k.toNat r c := hv
  have hr : rAt t r c = rAt s r c := hr
  refine ⟨?_, hr'.trans hr⟩
  rw [hv', maskedAt, hr, hv, maskedAt, Bool.xor_assoc, Bool.xor_self, Bool.xor_false]

/-! ### The zig-zag order -/

/-- The cell PLACE visits in pair `p` at turn `t`, on the right for `side` 0 and on the left for 1 (43_matrix R375). -/
def zigzagCell (size p t side : Nat) : Nat × Nat :=
  (if p % 2 = 0 then size - 1 - t else t, pairColumn size p - side)

theorem zigzag_eq (size : Nat) : zigzag size = (List.range ((size - 1) / 2)).flatMap fun p =>
    (List.range size).flatMap fun t => [zigzagCell size p t 0, zigzagCell size p t 1] := rfl

theorem mem_visit {size p t : Nat} {x : Nat × Nat} (h : x ∈ [zigzagCell size p t 0, zigzagCell size p t 1]) :
    ∃ side, side < 2 ∧ x = zigzagCell size p t side := by
  simp only [List.mem_cons, List.not_mem_nil, or_false] at h
  obtain rfl | rfl := h
  · exact ⟨0, by omega, rfl⟩
  · exact ⟨1, by omega, rfl⟩

/-- A column counted without column 6, which is in no pair (43_matrix R375). -/
def shiftedColumn (c : Nat) : Nat := if 6 < c then c else c + 1

theorem placeTime_eq (size r c : Nat) : placeTime size r c =
    (size - 1 - shiftedColumn c) / 2 * (2 * size)
      + 2 * (if (size - 1 - shiftedColumn c) / 2 % 2 = 0 then size - 1 - r else r)
      + (size - 1 - shiftedColumn c) % 2 := rfl

section Zigzag
variable {size : Nat} (hsize : 21 ≤ size) (hodd : size % 2 = 1)
include hsize hodd

/-- The pairs skip column 6 (43_matrix R375). -/
theorem pairColumn_of_lt {p : Nat} (hp : p < (size - 1) / 2) : pairColumn size p < size ∧
    (6 < pairColumn size p - 1 ∧ pairColumn size p = size - 1 - 2 * p ∨
      pairColumn size p < 6 ∧ 1 ≤ pairColumn size p ∧ pairColumn size p + 1 = size - 1 - 2 * p) := by
  unfold pairColumn
  split_ifs <;> omega

/-- In pair `p` on side `side` the column, counted without column 6 and from the right, is `2p + side`. -/
theorem shiftedColumn_pairColumn {p side : Nat} (hp : p < (size - 1) / 2) (hside : side < 2) :
    size - 1 - shiftedColumn (pairColumn size p - side) = 2 * p + side := by
  have hcol := pairColumn_of_lt hsize hodd hp
  unfold shiftedColumn
  split_ifs <;> omega

/-- The time of a visit counts the turns before it. -/
theorem placeTime_zigzagCell {p t side : Nat} (hp : p < (size - 1) / 2) (ht : t < size) (hside : side < 2) :
    placeTime size (zigzagCell size p t side).1 (zigzagCell size p t side).2 = p * (2 * size) + 2 * t + side := by
  have hpair : (2 * p + side) / 2 = p := by omega
  have hmod : (2 * p + side) % 2 = side := by omega
  have hturn : (if p % 2 = 0 then size - 1 - (zigzagCell size p t side).1 else (zigzagCell size p t side).1) = t := by
    unfold zigzagCell
    split_ifs <;> omega
  rw [placeTime_eq, zigzagCell, shiftedColumn_pairColumn hsize hodd hp hside, hpair, hmod]
  exact congrArg (p * (2 * size) + 2 * · + side) hturn

/-- PLACE visits the cells in the order of their times. -/
theorem pairwise_placeTime_zigzag :
    (zigzag size).Pairwise fun x y => placeTime size x.1 x.2 < placeTime size y.1 y.2 := by
  have htime := fun {p t side : Nat} => placeTime_zigzagCell hsize hodd (p := p) (t := t) (side := side)
  rw [zigzag_eq, List.pairwise_flatMap]
  refine ⟨fun p hp => List.pairwise_flatMap.mpr ⟨fun t ht => ?sides, ?turns⟩, ?pairs⟩
  case sides =>
    rw [List.mem_range] at hp ht
    rw [List.pairwise_pair, htime hp ht (by omega), htime hp ht (by omega)]
    omega
  case turns =>
    rw [List.mem_range] at hp
    refine List.pairwise_lt_range.imp_of_mem fun {t t'} ht ht' hlt x hx y hy => ?_
    rw [List.mem_range] at ht ht'
    obtain ⟨side, hside, rfl⟩ := mem_visit hx
    obtain ⟨side', hside', rfl⟩ := mem_visit hy
    rw [htime hp ht hside, htime hp ht' hside']
    omega
  case pairs =>
    refine List.pairwise_lt_range.imp_of_mem fun {p p'} hp hp' hlt x hx y hy => ?_
    rw [List.mem_range] at hp hp'
    obtain ⟨t, ht, hx⟩ := List.mem_flatMap.mp hx
    obtain ⟨t', ht', hy⟩ := List.mem_flatMap.mp hy
    rw [List.mem_range] at ht ht'
    obtain ⟨side, hside, rfl⟩ := mem_visit hx
    obtain ⟨side', hside', rfl⟩ := mem_visit hy
    rw [htime hp ht hside, htime hp' ht' hside']
    have hblock : (p + 1) * (2 * size) ≤ p' * (2 * size) := Nat.mul_le_mul_right _ hlt
    rw [Nat.add_one_mul] at hblock
    omega

/-- PLACE visits every cell of the symbol but those of column 6 (43_matrix R375; log 21). -/
theorem mem_zigzag_iff {r c : Nat} : (r, c) ∈ zigzag size ↔ (r < size ∧ c < size) ∧ c ≠ 6 := by
  simp only [zigzag_eq, List.mem_flatMap, List.mem_range]
  constructor
  · rintro ⟨p, hp, t, ht, hvisit⟩
    obtain ⟨side, hside, hcell⟩ := mem_visit hvisit
    obtain ⟨rfl, rfl⟩ := Prod.mk.inj hcell
    have hcol := pairColumn_of_lt hsize hodd hp
    refine ⟨⟨?_, by omega⟩, by omega⟩
    split_ifs <;> omega
  · rintro ⟨⟨hr, hc⟩, h6⟩
    have hshift : 1 ≤ shiftedColumn c := by
      unfold shiftedColumn
      split_ifs <;> omega
    obtain ⟨p, side, hside, hk⟩ : ∃ p side, side < 2 ∧ size - 1 - shiftedColumn c = 2 * p + side :=
      ⟨(size - 1 - shiftedColumn c) / 2, (size - 1 - shiftedColumn c) % 2, by omega, by omega⟩
    have hp : p < (size - 1) / 2 := by omega
    have hcol := pairColumn_of_lt hsize hodd hp
    have hcell : (r, c) = zigzagCell size p (if p % 2 = 0 then size - 1 - r else r) side := by
      unfold shiftedColumn at hk
      refine Prod.ext ?_ ?_
      · simp only [zigzagCell]
        split_ifs <;> omega
      · simp only [zigzagCell]
        split_ifs at hk <;> omega
    refine ⟨p, hp, if p % 2 = 0 then size - 1 - r else r, by split_ifs <;> omega, ?_⟩
    interval_cases side <;> simp [hcell]

end Zigzag

/-! ### PLACE -/

/-- In a list in the order of its keys the entry at place `n` has `n` smaller keys in the list. -/
theorem countP_lt_of_pairwise {α : Type} {key : α → Nat} {l : List α} {n : Nat} {a : α}
    (h : l.Pairwise fun x y => key x < key y) (hn : l[n]? = some a) :
    l.countP (fun x => decide (key x < key a)) = n := by
  induction l generalizing n with
  | nil => simp at hn
  | cons x l ih =>
    obtain ⟨hx, hl⟩ := List.pairwise_cons.mp h
    cases n with
    | zero =>
      obtain rfl : x = a := by simpa using hn
      rw [List.countP_eq_zero]
      simp only [List.mem_cons, forall_eq_or_imp, decide_eq_true_iff]
      exact ⟨lt_irrefl _, fun y hy => (hx y hy).asymm⟩
    | succ n =>
      rw [List.getElem?_cons_succ] at hn
      rw [List.countP_cons, ih hl hn, if_pos (decide_eq_true (hx a (List.mem_of_getElem? hn)))]

theorem square_eq_product (n : Nat) : square n = List.range n ×ˢ List.range n := rfl

theorem mem_square_iff {n r c : Nat} : (r, c) ∈ square n ↔ r < n ∧ c < n := by
  rw [square_eq_product, List.mem_product, List.mem_range, List.mem_range]

theorem nodup_square (n : Nat) : (square n).Nodup := List.nodup_range.product List.nodup_range

section Free
variable {s : State} (hsym : SymLegal s)
include hsym

theorem State.size_odd : s.size % 2 = 1 := by
  obtain ⟨-, -, hsize⟩ := hsym
  omega

/-- The cells PLACE fills are those the statement calls placeable. -/
theorem mem_freeCells_iff {r c : Nat} :
    (r, c) ∈ freeCells s.size s.symCells ↔ InSymbol s r c ∧ placeable s r c = true := by
  obtain ⟨h21, -⟩ := State.size_bounds hsym
  rw [freeCells, List.mem_filter, mem_zigzag_iff h21 (State.size_odd hsym), and_assoc]
  refine and_congr_right fun ⟨hr, hc⟩ => ?_
  rw [s.symCells_at r c hr hc, placeable, Bool.and_eq_true, bne_iff_ne]
  rfl

theorem pairwise_placeTime_freeCells : (freeCells s.size s.symCells).Pairwise fun x y =>
    placeTime s.size x.1 x.2 < placeTime s.size y.1 y.2 := by
  obtain ⟨h21, -⟩ := State.size_bounds hsym
  exact (pairwise_placeTime_zigzag h21 (State.size_odd hsym)).filter _

theorem nodup_freeCells : (freeCells s.size s.symCells).Nodup :=
  (pairwise_placeTime_freeCells hsym).imp fun hlt heq => by rw [heq] at hlt; exact lt_irrefl _ hlt

/-- The free cells are the placeable ones of the square, in another order. -/
theorem freeCells_perm :
    (freeCells s.size s.symCells).Perm ((square s.size).filter fun p => placeable s p.1 p.2) := by
  refine (List.perm_ext_iff_of_nodup (nodup_freeCells hsym) ((nodup_square s.size).filter _)).mpr
    fun ⟨r, c⟩ => ?_
  rw [mem_freeCells_iff hsym, List.mem_filter, mem_square_iff]
  rfl

theorem length_freeCells : (freeCells s.size s.symCells).length = freeCount s := by
  rw [(freeCells_perm hsym).length_eq, ← List.countP_eq_length_filter]
  rfl

/-- The place of a free cell in the zig-zag order is the number of cells filled before it. -/
theorem filledBefore_eq {n r c : Nat} (h : (freeCells s.size s.symCells)[n]? = some (r, c)) :
    filledBefore s r c = n := by
  rw [← countP_lt_of_pairwise (key := fun p : Nat × Nat => placeTime s.size p.1 p.2) (pairwise_placeTime_freeCells hsym)
    h, (freeCells_perm hsym).countP_eq, List.countP_filter, filledBefore]
  exact List.countP_congr fun p _ => by rw [Bool.and_comm]; rfl

end Free

/-! ### The codeword stream -/

theorem length_streamBits (s : State) : (streamBits s).length = 8 * tcw s.ver := by
  rw [streamBits, length_bitsOfBytes, State.length_readBytes]

/-- The bits of CBUF, most significant first in each byte, and nothing after the stream (20_memory R112). -/
theorem getD_streamBits (s : State) (n : Nat) :
    (streamBits s).getD n false = (decide (n < 8 * tcw s.ver) && streamBit s n) := by
  by_cases hn : n < 8 * tcw s.ver
  · have hrows : streamBits s = (List.range (tcw s.ver)).flatMap fun k => (List.range 8).map fun j =>
        (s.readByte (cbufBase + k)).getLsbD (7 - j) := by
      rw [streamBits, State.readBytes_eq, bitsOfBytes, List.flatMap_map]
      rfl
    have hget := getElem?_flatMap_rows (fun k j => (s.readByte (cbufBase + k)).getLsbD (7 - j)) 8 (tcw s.ver) (n / 8)
      (n % 8) (by omega) (by omega)
    rw [Nat.div_add_mod, ← hrows] at hget
    rw [List.getD_eq_getElem?_getD, hget, decide_eq_true hn, Bool.true_and]
    rfl
  · rw [List.getD_eq_default _ _ (by rw [length_streamBits]; omega), decide_eq_false hn, Bool.false_and]

/-! ### Placing -/

theorem map_fst_placement (free : List (Nat × Nat)) (bits : List Bool) :
    (placement free bits).map Prod.fst = free :=
  List.map_fst_zip (by simp; omega)

/-- The free cell at place `n` gets bit `n`, or light after the last bit (43_matrix R375). -/
theorem getElem?_placement {free : List (Nat × Nat)} {n : Nat} {p : Nat × Nat} (bits : List Bool)
    (h : free[n]? = some p) : (placement free bits)[n]? = some (p, bits.getD n false) := by
  obtain ⟨hn, -⟩ := List.getElem?_eq_some_iff.mp h
  have hbit : (bits ++ List.replicate (free.length - bits.length) false)[n]? = some (bits.getD n false) := by
    rw [List.getElem?_append, List.getD_eq_getElem?_getD]
    split
    next hlt => simp [hlt]
    next hge =>
      have hpad : n - bits.length < free.length - bits.length := by omega
      simp [hge, hpad]
  rw [placement, List.getElem?_zip_eq_some]
  exact ⟨h, hbit⟩

theorem State.stampSymbol_congr {s : State} {f f' : Nat → Nat → Option Byte}
    (h : ∀ r c, r < s.size → c < s.size → f r c = f' r c) : s.stampSymbol f = s.stampSymbol f' := by
  rw [State.stampSymbol_eq, State.stampSymbol_eq]
  congr 1
  funext r c
  split
  next hin => exact h r c hin.1 hin.2
  next => rfl

/-- The cells PLACE writes, with their values (43_matrix R375). -/
def State.placedCells (s : State) : List ((Nat × Nat) × Bool) :=
  placement (freeCells s.size s.symCells) (streamBits s)

theorem exec_place_of_fmtrsv {s : State} (h : s.status.mstate = .fmtrsv) :
    exec .place s = .next (State.finish { (s.writeValues s.placedCells).setMState .data with
      result0 := word (min (freeCells s.size s.symCells).length (streamBits s).length)
      result1 := word ((freeCells s.size s.symCells).length - (streamBits s).length) }) := by
  have hcells : s.writeValues s.placedCells = s.stampSymbol fun r c =>
      (valueIn s.placedCells r c).map (setV (s.symCells.at r c)) :=
    State.stampSymbol_congr fun r c hr hc => by rw [s.symCells_at r c hr hc]
  rw [exec_place, cmdPlace, beq_iff_eq.mpr h, hcells]
  rfl

theorem cmdPlace_of_not_fmtrsv {s : State} (h : s.status.mstate ≠ .fmtrsv) : cmdPlace s = .error .sequenceError := by
  rw [cmdPlace, beq_eq_false_iff_ne.mpr h]
  rfl

/-- Settles O33: the free cells are the placeable ones in the order of their times, so the place of each in the order is
the number filled before it, and it gets the bit of that number. -/
theorem dataPlacedInZigzagOrder : Obligations.DataPlacedInZigzagOrder := by
  unfold Obligations.DataPlacedInZigzagOrder
  intro s hsym
  refine ⟨fun hmstate => ⟨_, exec_place_of_fmtrsv hmstate, ?regs, ⟨?bytes, fun r c hr hc hout => ?kept⟩,
      fun r c hin hplace => ?placed⟩,
    fun h => fails_of_effect_error (exec_place s) (cmdPlace_of_not_fmtrsv h)⟩
  case regs =>
    rw [length_freeCells hsym, length_streamBits]
    rfl
  case bytes => exact s.bytesKept_stamp _
  case kept =>
    refine s.cell_writeValues_of_not_mem hr hc ?_
    rw [State.placedCells, map_fst_placement, mem_freeCells_iff hsym]
    exact hout
  case placed =>
    have hnodup : (s.placedCells.map Prod.fst).Nodup := by
      rw [State.placedCells, map_fst_placement]
      exact nodup_freeCells hsym
    obtain ⟨n, hn⟩ := List.mem_iff_getElem?.mp ((mem_freeCells_iff hsym).mpr ⟨hin, hplace⟩)
    have hvalue := List.mem_of_getElem? (getElem?_placement (streamBits s) hn)
    rw [getD_streamBits, ← filledBefore_eq hsym hn] at hvalue
    have hfree : rAt s r c = false := by simpa [placeable] using (Bool.and_eq_true_iff.mp hplace).2
    exact ⟨(State.rAt_writeValues hsym hin).trans hfree, State.vAt_writeValues hsym hin hnodup hvalue⟩

end Sys2Proof.Machine
end

