-- ==== Sys2Proof/Proofs/Determinism.lean ====
section
/-! What a command computes is a function of the block's data alone: its effect commutes with every change of the
engine's flags, the pins and the host's side, so a command does the same wherever in a sequence its turn comes (10_state
R62, 46_control R511). -/

namespace Sys2Proof.Machine
open Sys2Proof.Claims

/-! ### The engine's side of the state -/

/-- What no command but SRST reads or writes before its completion: PEND, the flags, the pins, the model's counters. -/
structure Engine where
  pend : Option Word
  done : Bool
  err : Bool
  ovr : Bool
  errCode : Option CmdError
  rstN : Bool
  host : List HostEvent
  rsp : Option BusResp
  wait : Nat
  latencies : List Nat
  issues : Nat

/-- The engine's side of a state. -/
def State.engine (s : State) : Engine :=
  ⟨s.pend, s.status.done, s.status.err, s.status.ovr, s.status.errCode, s.rstN, s.host, s.rsp, s.wait, s.latencies,
    s.issues⟩

/-- The state with its engine's side changed by `φ`. -/
def State.mapEngine (φ : Engine → Engine) (s : State) : State :=
  { s with
    pend := (φ s.engine).pend
    status := ⟨(φ s.engine).done, (φ s.engine).err, (φ s.engine).ovr, s.status.mstate, (φ s.engine).errCode⟩
    rstN := (φ s.engine).rstN
    host := (φ s.engine).host
    rsp := (φ s.engine).rsp
    wait := (φ s.engine).wait
    latencies := (φ s.engine).latencies
    issues := (φ s.engine).issues }

/-! ### Effects commute with changes of the engine's side -/

theorem bind_eq_map_bind {α : Type} {x : Except CmdError α} {f f' : α → Except CmdError State} {g : State → State}
    (h : ∀ a, f' a = (f a).map g) : (x >>= f') = (x >>= f).map g := by
  cases x with
  | ok a => exact h a
  | error e => rfl

theorem ite_eq_map_ite {p : Prop} [Decidable p] {x x' y y' : Except CmdError State} {g : State → State}
    (hx : x' = x.map g) (hy : y' = y.map g) : (if p then x' else y') = (if p then x else y).map g := by
  split
  · exact hx
  · exact hy

section Commute
variable (φ : Engine → Engine) (s : State)

theorem cmdGflog_mapEngine (a : Byte) : cmdGflog a (s.mapEngine φ) = (cmdGflog a s).map (State.mapEngine φ) := by
  cases hlog : gfLogTable a with
  | none => rw [cmdGflog_of_none hlog, cmdGflog_of_none hlog]; rfl
  | some n => rw [cmdGflog_of_some hlog, cmdGflog_of_some hlog]; rfl

theorem commandEffect_mapEngine_of_not_generate {i : Instr} (hsrst : i ≠ .srst) (hgen : ∀ ecl, i ≠ .generate ecl) :
    commandEffect i (s.mapEngine φ) = (commandEffect i s).map (State.mapEngine φ) := by
  cases i with
  | nop | gfclmul | gfred | gfmul | gfexp | rsgen | eccil | mclear | mscore => rfl
  | srst => exact absurd rfl hsrst
  | gflog a => exact cmdGflog_mapEngine φ s a
  | rsenc => exact ite_eq_map_ite rfl rfl
  | mapply => exact ite_eq_map_ite rfl (ite_eq_map_ite rfl rfl)
  | pack | stfind | stalign | sttime | rsvfmt | place | masksel | fmtenc | fmtwr => exact bind_eq_map_bind fun _ => rfl
  | setsym | selver => exact bind_eq_map_bind fun _ => bind_eq_map_bind fun _ => rfl
  | generate ecl => exact absurd rfl (hgen ecl)

theorem commandEffect_mapEngine_of_mem {i : Instr} {ecl : BitVec 3} (h : i ∈ encodeSequence ecl) :
    commandEffect i (s.mapEngine φ) = (commandEffect i s).map (State.mapEngine φ) := by
  refine commandEffect_mapEngine_of_not_generate φ s ?_ fun _ => generate_not_mem_encodeSequence h
  rintro rfl
  simp [encodeSequence] at h

theorem map_bind_of_commute {x : Except CmdError State} {f : State → Except CmdError State} {g : State → State}
    (h : ∀ t, f (g t) = (f t).map g) : (x.map g >>= f) = (x >>= f).map g := by
  cases x with
  | ok t => exact h t
  | error e => rfl

theorem effectAll_mapEngine {is : List Instr} {ecl : BitVec 3} (his : ∀ i ∈ is, i ∈ encodeSequence ecl) :
    effectAll is (s.mapEngine φ) = (effectAll is s).map (State.mapEngine φ) := by
  induction is generalizing s with
  | nil => rfl
  | cons i is ih =>
    obtain ⟨hi, his⟩ := List.forall_mem_cons.mp his
    rw [effectAll, commandEffect_mapEngine_of_mem φ s hi]
    exact map_bind_of_commute fun t => ih t his

/-- The effect of every command but SRST commutes with changes of the engine's side. -/
theorem commandEffect_mapEngine {i : Instr} (hsrst : i ≠ .srst) :
    commandEffect i (s.mapEngine φ) = (commandEffect i s).map (State.mapEngine φ) := by
  by_cases hi : ∀ ecl, i ≠ .generate ecl
  · exact commandEffect_mapEngine_of_not_generate φ s hsrst hi
  · obtain ⟨ecl, rfl⟩ : ∃ ecl, i = .generate ecl := by simpa using hi
    refine bind_eq_map_bind fun _ => bind_eq_map_bind fun _ => ?_
    rw [generateSteps_eq_effectAll, generateSteps_eq_effectAll, effectAll_mapEngine φ s fun _ => id]
    cases effectAll (encodeSequence ecl) s <;> rfl

end Commute

/-- Settles O56: the change is one of the engine's side, so the effect commutes with it; SRST loads constants. -/
theorem resultFixedAtIssue : Obligations.ResultFixedAtIssue := by
  unfold Obligations.ResultFixedAtIssue
  intro i s done ovr host rsp latencies
  have hcommute := commandEffect_mapEngine
    (fun E => { E with done := done, ovr := ovr, host := host, rsp := rsp, latencies := latencies }) s (i := i)
  rw [exec_eq_complete, exec_eq_complete]
  by_cases hsrst : i = .srst
  · subst hsrst
    exact ⟨_, _, rfl, rfl, rfl, rfl, rfl, rfl, rfl, rfl, rfl, rfl, rfl, rfl, rfl, rfl, rfl⟩
  · have hcommute : commandEffect i { s with
        status := { s.status with done := done, ovr := ovr }, host := host, rsp := rsp, latencies := latencies } = _ :=
      hcommute hsrst
    rw [hcommute]
    cases commandEffect i s with
    | ok t => exact ⟨_, _, rfl, rfl, rfl, rfl, rfl, rfl, rfl, rfl, rfl, rfl, rfl, rfl, rfl, rfl, rfl⟩
    | error e => exact ⟨_, _, rfl, rfl, rfl, rfl, rfl, rfl, rfl, rfl, rfl, rfl, rfl, rfl, rfl, rfl, rfl⟩

/-! ### Sequences of completions -/

/-- The completion of a command changes the engine's side. -/
def Engine.completed (E : Engine) : Engine := { E with pend := none, done := true, err := false, errCode := none }

theorem State.finish_eq_mapEngine : State.finish = State.mapEngine Engine.completed := rfl

/-- From a completed state commands run to their completions leave what their effects leave, completed. -/
theorem execAll_finish {is : List Instr} {ecl : BitVec 3} (his : ∀ i ∈ is, i ∈ encodeSequence ecl) {s t : State}
    (h : effectAll is s = .ok t) : execAll is s.finish = .next t.finish := by
  induction is generalizing s with
  | nil => cases h; rfl
  | cons i is ih =>
    obtain ⟨hi, his⟩ := List.forall_mem_cons.mp his
    obtain ⟨u, hu, h⟩ := bind_ok h
    have heffect : commandEffect i s.finish = .ok u.finish := by
      rw [State.finish_eq_mapEngine, commandEffect_mapEngine_of_mem _ s hi, hu]
      rfl
    have hexec : exec i s.finish = .next u.finish := by
      rw [exec_eq_complete, heffect]
      rfl
    rw [execAll, hexec]
    exact ih his h

/-- ENCODE leaves what the steps of GENERATE leave, completed (46_control R511). -/
theorem execAll_encodeSequence {ecl : BitVec 3} {s t : State} (h : generateSteps ecl s = .ok t) :
    execAll (encodeSequence ecl) s = .next t.finish := by
  rw [generateSteps_eq_effectAll] at h
  obtain ⟨u, hu, h⟩ := bind_ok h
  have hexec : exec (.selver ecl) s = .next u.finish := by
    rw [exec_eq_complete, hu]
    rfl
  rw [encodeSequence, execAll, hexec]
  exact execAll_finish (ecl := ecl) (fun i hi => List.mem_cons_of_mem _ hi) h

end Sys2Proof.Machine
end

