-- ==== Sys2Proof/Proofs/WholeSymbol.lean ====
section
/-! GENERATE: the states its steps go through, what they keep of the state before, and the payload they depend on
(46_control R510 to R512). -/

namespace Sys2Proof.Machine
open Sys2Proof.Claims

/-! ### States on the way to a symbol -/

/-- `s` with a symbol of version `v` and level `e` under way, the builder at `m`. -/
def State.underWay (s : State) (v e : Nat) (m : MState) (mem : Memory) (mask : BitVec 3)
    (scores : Vector (BitVec 16) 8) (result0 result1 : Word) : State :=
  { s with
    mem := mem
    sym := ⟨BitVec.ofNat 3 v, BitVec.ofNat 3 e, mask, BitVec.ofNat 8 (17 + 4 * v)⟩
    scores := scores
    result0 := result0
    result1 := result1
    pend := none
    status := okStatus s.status m }

/-- The bytes that the steps of GENERATE may write (46_control R510). -/
def Written (v e a : Nat) : Prop := Within 0x200 (dcap v e) a ∨ Within 0x300 (tcw v) a ∨ InMat a

/-- `t` is `s` after steps that build a symbol of version `v` and level `e` and leave the builder at `m`. -/
structure Builds (s : State) (v e : Nat) (m : MState) (t : State) : Prop where
  frame : ∃ mem mask scores result0 result1, t = s.underWay v e m mem mask scores result0 result1
  bytes : BytesKept s t (Written v e)
  outside : ∀ r c, r < 41 → c < 64 → 17 + 4 * v ≤ r ∨ 17 + 4 * v ≤ c →
    t.readByte (0x1000 + 64 * r + c) = 0#8

/-- `u` is `t` with other storage, mask, scores and results, completed with the builder at `m`. -/
def Continues (t u : State) (m : MState) : Prop :=
  u = { t with
    mem := u.mem
    sym := { t.sym with mask := u.sym.mask }
    scores := u.scores
    result0 := u.result0
    result1 := u.result1
    pend := none
    status := okStatus t.status m }

theorem Builds.of_continues {s t u : State} {v e : Nat} {m n : MState} (h : Builds s v e m t) (hframe : Continues t u n)
    (hbytes : BytesKept t u (Written v e))
    (hcells : ∀ r c, r < 41 → c < 64 → 17 + 4 * v ≤ r ∨ 17 + 4 * v ≤ c →
      u.readByte (0x1000 + 64 * r + c) = t.readByte (0x1000 + 64 * r + c)) : Builds s v e n u := by
  obtain ⟨⟨mem, mask, scores, result0, result1, rfl⟩, hkept, houtside⟩ := h
  exact ⟨⟨u.mem, u.sym.mask, u.scores, u.result0, u.result1, hframe⟩,
    fun a ha => (hbytes a ha).trans (hkept a ha),
    fun r c hr hc hout => (hcells r c hr hc hout).trans (houtside r c hr hc hout)⟩

section Step
variable {s t u : State} {v e : Nat} {m n : MState} (hv : 1 ≤ v ∧ v ≤ 6) (he : e ≤ 3) (h : Builds s v e m t)
include hv he h

theorem Builds.ver_ecl_size : t.ver = v ∧ t.ecl = e ∧ t.size = 17 + 4 * v := by
  obtain ⟨⟨mem, mask, scores, result0, result1, rfl⟩, -, -⟩ := h
  exact ⟨Nat.mod_eq_of_lt (by omega), Nat.mod_eq_of_lt (by omega), Nat.mod_eq_of_lt (by omega)⟩

theorem Builds.symLegal : SymLegal t := by
  obtain ⟨hver, hecl, hsize⟩ := h.ver_ecl_size hv he
  rw [SymLegal, hver, hecl, hsize]
  exact ⟨hv, he, rfl⟩

omit hv he in
theorem Builds.mstate : t.status.mstate = m := by
  obtain ⟨⟨mem, mask, scores, result0, result1, rfl⟩, -, -⟩ := h
  rfl

omit hv he in
theorem Builds.plen : t.plen = s.plen := by
  obtain ⟨⟨mem, mask, scores, result0, result1, rfl⟩, -, -⟩ := h
  rfl

/-- A step that writes cells of the symbol alone. -/
theorem Builds.of_cells {p : Nat → Nat → Prop} (hframe : Continues t u n) (hkept : CellsKept t u p)
    (hp : ∀ {r c}, p r c → r < t.size ∧ c < t.size) : Builds s v e n u := by
  obtain ⟨-, -, hsize⟩ := h.ver_ecl_size hv he
  obtain ⟨hbytes, hcells⟩ := hkept
  refine h.of_continues hframe (fun a ha => hbytes a fun hin => ha (.inr (.inr hin))) fun r c hr hc hout => ?_
  refine hcells r c hr hc fun hin => ?_
  obtain ⟨hr', hc'⟩ := hp hin
  omega

omit hv he in
/-- A step that writes a range of the buffers alone. -/
theorem Builds.of_buffer {base k : Nat} (hframe : Continues t u n) (hkept : BytesKept t u (Within base k))
    (hwritten : ∀ {a}, Within base k a → Written v e a) (hbuf : base + k ≤ 0x1000) : Builds s v e n u := by
  refine h.of_continues hframe (fun a ha => hkept a fun hin => ha (hwritten hin)) fun r c hr hc hout => ?_
  refine hkept _ fun ⟨_, hlt⟩ => ?_
  omega

end Step

/-! ### The finder patterns through the steps -/

/-- The three corners hold the finder picture, reserved (43_matrix R380). -/
def HasFinders (size : Nat) (t : State) : Prop :=
  ∀ r c, InCorner size r c → vAt t r c = (cornerValue size r c == 1) ∧ rAt t r c = true

theorem HasFinders.of_cellsKept {size : Nat} {t u : State} {p : Nat → Nat → Prop} (h21 : 21 ≤ size)
    (h41 : size ≤ 41)
    (h : HasFinders size t) (hkept : CellsKept t u p)
    (hp : ∀ {r c}, InCorner size r c → rAt t r c = true → ¬ p r c) : HasFinders size u := by
  intro r c hin
  obtain ⟨hv, hr⟩ := h r c hin
  obtain ⟨hrlt, hclt⟩ := lt_size_of_inCorner h21 hin
  have hbyte := hkept.2 r c (by omega) (by omega) (hp hin hr)
  exact ⟨(congrArg (·.getLsbD 0) hbyte).trans hv, (congrArg (·.getLsbD 1) hbyte).trans hr⟩

theorem hasFinders_of_drawn {size : Nat} {t : State} (h : ∀ r c, InCorner size r c →
    t.readByte (0x1000 + 64 * r + c) = if cornerValue size r c = 1 then 3#8 else 2#8) : HasFinders size t := by
  intro r c hin
  rw [vAt, rAt, h r c hin]
  split
  next hdark => simp [hdark]
  next hlight => simp [hlight]

/-- The format area lies along the corners (43_matrix R370). -/
theorem not_inFormat_of_inCorner {size r c : Nat} (h21 : 21 ≤ size) (h : InCorner size r c) :
    ¬ InFormat size r c := by
  unfold InCorner at h
  unfold InFormat
  omega

/-- A mask flips no reserved cell (44_mask R401). -/
theorem HasFinders.of_maskApplied {t u : State} {k : Nat} (hsym : SymLegal t) (h : HasFinders t.size t)
    (hmask : MaskApplied t u k) : HasFinders t.size u := by
  obtain ⟨h21, -⟩ := State.size_bounds hsym
  intro r c hin
  obtain ⟨hv, hr⟩ := h r c hin
  obtain ⟨hv', hr'⟩ := hmask.2 r c (lt_size_of_inCorner h21 hin)
  refine ⟨?_, hr'.trans hr⟩
  rw [hv', maskedAt, hr, Bool.not_true, Bool.false_and, Bool.xor_false, hv]

/-! ### The steps -/

/-- Some run of the commands ends in a state with `p`. -/
def Leads (is : List Instr) (p : State → Prop) (s : State) : Prop := ∃ u, execAll is s = .next u ∧ p u

theorem leads_cons {i : Instr} {is : List Instr} {p q : State → Prop} {s : State}
    (h : ∃ t, exec i s = .next t ∧ q t) (hrest : ∀ t, q t → Leads is p t) : Leads (i :: is) p s := by
  obtain ⟨t, ht, hq⟩ := h
  obtain ⟨u, hu, hp⟩ := hrest t hq
  exact ⟨u, by rw [execAll, ht]; exact hu, hp⟩

theorem builds_of_selected {s t : State} {v e : Nat} (hsel : Selected s t v e) : Builds s v e .empty t := by
  obtain ⟨hframe, hclear, hkept⟩ := hsel
  exact ⟨⟨t.mem, 0#3, s.scores, _, _, hframe⟩, fun a ha => hkept a fun hin => ha (.inr (.inr hin)),
    fun r c hr hc _ => hclear r c hr hc⟩

/-- As `Builds`, with the finder patterns drawn. -/
structure BuildsFinders (s : State) (v e : Nat) (m : MState) (t : State) : Prop where
  builds : Builds s v e m t
  finders : HasFinders (17 + 4 * v) t

/-- The symbol as FMTWR leaves it, with what ENCODE leaves in the results (46_control R511). -/
structure Finished (s : State) (v e : Nat) (t : State) : Prop extends BuildsFinders s v e .final t where
  dark : vAt t (17 + 4 * v - 8) 8 = true
  format : t.result0 = BitVec.ofNat 32 (bchWord e t.sym.mask.toNat)
  score : t.result1 = (t.scores[t.sym.mask.toNat]).setWidth 32

section Steps
variable {s t : State} {v e : Nat} (hv : 1 ≤ v ∧ v ≤ 6) (he : e ≤ 3)
include hv he

theorem Builds.pack (h : Builds s v e .empty t) (hfit : s.plen.toNat + 2 ≤ dcap v e) :
    ∃ u, exec .pack t = .next u ∧ Builds s v e .empty u := by
  obtain ⟨hver, hecl, -⟩ := h.ver_ecl_size hv he
  have hbuf := t.inBuffers_dbuf
  obtain ⟨u, hu, hframe, hkept, -⟩ := (packedCodewordsClosedForm t).1 (by rw [h.plen, hver, hecl]; exact hfit)
  rw [hver, hecl] at hbuf hkept
  refine ⟨u, hu, h.of_buffer ?_ hkept .inl (hbuf.2.trans (by omega))⟩
  rw [Continues, ← h.mstate, hframe]

theorem Builds.eccil (h : Builds s v e .empty t) : ∃ u, exec .eccil t = .next u ∧ Builds s v e .empty u := by
  have hsym := h.symLegal hv he
  obtain ⟨hver, -, -⟩ := h.ver_ecl_size hv he
  have hbuf := tcw_le t.ver (State.ver_mem_versions hsym)
  obtain ⟨u, hu, hframe, hkept, -⟩ := interleavedStream t hsym
  rw [hver] at hbuf hkept
  refine ⟨u, hu, h.of_buffer ?_ hkept (fun hin => .inr (.inl hin)) (by omega)⟩
  rw [Continues, ← h.mstate, hframe]

theorem Builds.stfind (h : Builds s v e .empty t) :
    ∃ u, exec .stfind t = .next u ∧ BuildsFinders s v e .finder u := by
  have hsym := h.symLegal hv he
  obtain ⟨-, -, hsize⟩ := h.ver_ecl_size hv he
  obtain ⟨u, hu, hframe, hkept, hcells⟩ := (finderPatternsStamped t hsym).1 h.mstate
  refine ⟨u, hu, h.of_cells hv he ?_ hkept (draws_finderCell hsym).inSymbol, hasFinders_of_drawn (hsize ▸ hcells)⟩
  rw [Continues, hframe]

/-- A step that writes cells of the symbol, and no reserved cell of a corner. -/
theorem BuildsFinders.of_cells {m n : MState} {u : State} {p : Nat → Nat → Prop} (h : BuildsFinders s v e m t)
    (hframe : Continues t u n) (hkept : CellsKept t u p) (hp : ∀ {r c}, p r c → InSymbol t r c)
    (hcorner : ∀ {r c}, InCorner t.size r c → rAt t r c = true → ¬ p r c) : BuildsFinders s v e n u := by
  obtain ⟨hbuilds, hfinders⟩ := h
  obtain ⟨-, -, hsize⟩ := hbuilds.ver_ecl_size hv he
  exact ⟨hbuilds.of_cells hv he hframe hkept hp,
    hfinders.of_cellsKept (by omega) (by omega) hkept (hsize ▸ hcorner)⟩

theorem BuildsFinders.stalign (h : BuildsFinders s v e .finder t) :
    ∃ u, exec .stalign t = .next u ∧ BuildsFinders s v e .align u := by
  have hsym := h.builds.symLegal hv he
  obtain ⟨h21, -⟩ := State.size_bounds hsym
  obtain ⟨u, hu, hframe, hkept, -⟩ := (alignmentPatternStamped t hsym).1 h.builds.mstate
  refine ⟨u, hu, h.of_cells hv he ?_ hkept (draws_alignCell hsym).inSymbol fun hin _ => ?_⟩
  · rw [Continues, hframe]
  · unfold InCorner at hin
    omega

theorem BuildsFinders.sttime (h : BuildsFinders s v e .align t) :
    ∃ u, exec .sttime t = .next u ∧ BuildsFinders s v e .timing u := by
  obtain ⟨u, hu, hframe, hkept, -⟩ :=
    (timingPatternsStamped t (h.builds.symLegal hv he)).1 (.inl h.builds.mstate)
  refine ⟨u, hu, h.of_cells hv he ?_ hkept (fun hin => hin.1) fun _ hr hin => ?_⟩
  · rw [Continues, hframe]
  · obtain ⟨-, -, hfree⟩ := hin
    rw [hr] at hfree
    cases hfree

theorem BuildsFinders.rsvfmt (h : BuildsFinders s v e .timing t) :
    ∃ u, exec .rsvfmt t = .next u ∧ BuildsFinders s v e .fmtrsv u := by
  have hsym := h.builds.symLegal hv he
  obtain ⟨u, hu, hframe, hkept, -⟩ := (formatAreaReserved t hsym).1 h.builds.mstate
  refine ⟨u, hu, h.of_cells hv he ?_ hkept (draws_formatAreaCell hsym).inSymbol fun hin _ =>
    not_inFormat_of_inCorner (State.size_bounds hsym).1 hin⟩
  rw [Continues, hframe]

theorem BuildsFinders.place (h : BuildsFinders s v e .fmtrsv t) :
    ∃ u, exec .place t = .next u ∧ BuildsFinders s v e .data u := by
  obtain ⟨u, hu, hframe, hkept, -⟩ := (dataPlacedInZigzagOrder t (h.builds.symLegal hv he)).1 h.builds.mstate
  refine ⟨u, hu, h.of_cells hv he ?_ hkept (fun hin => hin.1) fun _ hr hin => ?_⟩
  · rw [Continues, hframe]
  · simp [placeable, hr] at hin

/-- MASKSEL leaves the score of the mask it chose in RESULT1 (44_mask R410). -/
theorem BuildsFinders.masksel (h : BuildsFinders s v e .data t) :
    ∃ u, exec .masksel t = .next u ∧ BuildsFinders s v e .masked u ∧
      u.result1 = (u.scores[u.sym.mask.toNat]).setWidth 32 := by
  have hsym := h.builds.symLegal hv he
  obtain ⟨-, -, hsize⟩ := h.builds.ver_ecl_size hv he
  obtain ⟨u, best, hu, hbest, hframe, hscores, -, -, hmask⟩ :=
    (bestMaskIsLowestOfLowest t hsym).1 h.builds.mstate
  refine ⟨u, hu, ⟨h.builds.of_cells hv he ?frame hmask.1 id, ?finders⟩, ?score⟩
  case frame => rw [Continues, hframe]
  case finders =>
    rw [← hsize]
    exact HasFinders.of_maskApplied hsym (hsize ▸ h.finders) hmask
  case score =>
    have hchosen : u.sym.mask.toNat = best := by
      rw [hframe]
      exact Nat.mod_eq_of_lt hbest
    have hreg : u.scores[u.sym.mask.toNat].toNat = candidate t best :=
      (hscores ⟨u.sym.mask.toNat, u.sym.mask.isLt⟩).trans (congrArg (candidate t) hchosen)
    calc u.result1 = BitVec.ofNat 32 (candidate t best) := by rw [hframe]
      _ = (u.scores[u.sym.mask.toNat]).setWidth 32 := by rw [← hreg, BitVec.ofNat_toNat]

theorem BuildsFinders.fmtwr (h : BuildsFinders s v e .masked t)
    (hscore : t.result1 = (t.scores[t.sym.mask.toNat]).setWidth 32) :
    ∃ u, exec .fmtwr t = .next u ∧ Finished s v e u := by
  have hsym := h.builds.symLegal hv he
  obtain ⟨-, hecl, hsize⟩ := h.builds.ver_ecl_size hv he
  obtain ⟨u, hu, hframe, hkept, -, -, -, hdark⟩ := (formatWrittenTwice t hsym).1 h.builds.mstate
  refine ⟨u, hu, ⟨h.of_cells hv he ?frame hkept (draws_formatAreaCell hsym).inSymbol fun hin _ =>
    not_inFormat_of_inCorner (State.size_bounds hsym).1 hin, hsize ▸ hdark, ?format, ?score⟩⟩
  case frame => rw [Continues, hframe]
  case format => rw [hframe, hecl]
  case score => rw [hframe]; exact hscore

end Steps

/-- The commands of ENCODE finish a symbol of the smallest version. -/
theorem leads_encodeSequence {ecl : BitVec 3} {s : State} {v : Nat} (hl : ecl.toNat ≤ 3)
    (hsmall : SmallestVersion s.plen.toNat ecl.toNat v) :
    Leads (encodeSequence ecl) (Finished s v ecl.toNat) s := by
  have ⟨hv, hfit, _⟩ := hsmall
  obtain ⟨t, ht, hsel⟩ := ((smallestFittingVersionIsSelected ecl s).1 hl).1 v hsmall
  refine leads_cons ⟨t, ht, builds_of_selected hsel⟩ fun _ h => ?_
  refine leads_cons (h.pack hv hl hfit) fun _ h => ?_
  refine leads_cons (h.eccil hv hl) fun _ h => ?_
  refine leads_cons (h.stfind hv hl) fun _ h => ?_
  refine leads_cons (h.stalign hv hl) fun _ h => ?_
  refine leads_cons (h.sttime hv hl) fun _ h => ?_
  refine leads_cons (h.rsvfmt hv hl) fun _ h => ?_
  refine leads_cons (h.place hv hl) fun _ h => ?_
  refine leads_cons (h.masksel hv hl) fun _ ⟨h, hscore⟩ => ?_
  exact leads_cons (h.fmtwr hv hl hscore) fun u h => ⟨u, rfl, h⟩

/-- GENERATE of a payload that fits completes its steps with its own results (46_control R510). -/
theorem exec_generate_of_steps {ecl : BitVec 3} {s g : State} {v : Nat} (hl : ecl.toNat ≤ 3)
    (hsmall : SmallestVersion s.plen.toNat ecl.toNat v) (hg : generateSteps ecl s = .ok g) :
    exec (.generate ecl) s = .next { g.finish with result0 := word g.size, result1 := g.sym.toWord } := by
  rw [exec_generate, cmdGenerate, checkLevel_ok hl, smallestFit_eq_some_iff.mpr hsmall, hg]
  rfl

/-- GENERATE replaces the results of ENCODE by its own and leaves the rest as ENCODE does (46_control R511). -/
theorem exists_generate {ecl : BitVec 3} {s : State} {v : Nat} (hl : ecl.toNat ≤ 3)
    (hsmall : SmallestVersion s.plen.toNat ecl.toNat v) :
    ∃ u, execAll (encodeSequence ecl) s = .next u ∧ Finished s v ecl.toNat u ∧
      exec (.generate ecl) s = .next { u with result0 := word u.size, result1 := u.sym.toWord } := by
  obtain ⟨g, hg, -⟩ := reaches_generateSteps hl hsmall
  obtain ⟨u, hu, hfinished⟩ := leads_encodeSequence hl hsmall
  obtain rfl : g.finish = u := Host.Outcome.next.inj ((execAll_encodeSequence hg).symm.trans hu)
  exact ⟨g.finish, hu, hfinished, exec_generate_of_steps hl hsmall hg⟩

/-! ### The statements about one run -/

/-- Settles O42: every step keeps what is not its own, from the selected context to the written format. -/
theorem generateCompletes : Obligations.GenerateCompletes := by
  unfold Obligations.GenerateCompletes
  intro ecl s
  refine ⟨fun hl v hsmall => ?completes, fun hl hbig => fails_of_effect_error (exec_generate ecl s) ?tooLarge,
    fun hl => fails_of_effect_error (exec_generate ecl s) ?level⟩
  case completes =>
    obtain ⟨u, -, hfinished, hexec⟩ := exists_generate hl hsmall
    have hbuilds := hfinished.builds
    obtain ⟨-, -, hsize⟩ := hbuilds.ver_ecl_size hsmall.1 hl
    refine ⟨_, hexec, ?frame, hbuilds.bytes, hbuilds.outside⟩
    rw [hsize]
    obtain ⟨mem, mask, scores, result0, result1, rfl⟩ := hbuilds.frame
    simp only [State.underWay, BitVec.ofNat_toNat, BitVec.setWidth_eq]
    rfl
  case tooLarge => rw [cmdGenerate, checkLevel_ok hl, smallestFit_eq_none hl hbig]; rfl
  case level => rw [cmdGenerate, checkLevel_error hl]; rfl

/-- Settles O43: GENERATE and ENCODE leave the same state but for the results. -/
theorem generateEqualsEncode : Obligations.GenerateEqualsEncode := by
  unfold Obligations.GenerateEqualsEncode
  intro ecl s v hl hsmall
  obtain ⟨u, hu, hfinished, hexec⟩ := exists_generate hl hsmall
  exact ⟨_, u, hexec, hu, rfl, rfl, rfl, fun _ => rfl, hfinished.format, hfinished.score⟩

/-- Settles O44: STFIND draws and reserves the corners, no later step changes a reserved cell of them, and FMTWR writes
the dark module. -/
theorem generatedSymbolHasFindersAndDarkModule : Obligations.GeneratedSymbolHasFindersAndDarkModule := by
  unfold Obligations.GeneratedSymbolHasFindersAndDarkModule
  intro ecl s v hl hsmall
  obtain ⟨u, -, hfinished, hexec⟩ := exists_generate hl hsmall
  exact ⟨_, hexec, hfinished.finders, hfinished.dark⟩

end Sys2Proof.Machine
end

