-- ==== Sys2Proof/Proofs/PayloadDependence.lean ====
section
/-! The symbol GENERATE leaves is a function of the payload and the level: two runs from states with the same payload
agree on the codewords, then on the stream, then on the symbol (46_control R512). -/

namespace Sys2Proof.Machine
open Sys2Proof.Claims

/-! ### Two effects side by side -/

/-- Where both effects succeed, what they leave is related. -/
def BothLead (x x' : Except CmdError State) (R : State → State → Prop) : Prop :=
  ∀ u u', x = .ok u → x' = .ok u' → R u u'

theorem BothLead.bind {x x' : Except CmdError State} {f f' : State → Except CmdError State}
    {R Q : State → State → Prop}
    (h : BothLead x x' R) (hf : ∀ t t', R t t' → BothLead (f t) (f' t') Q) : BothLead (x >>= f) (x' >>= f') Q := by
  intro u u' hu hu'
  obtain ⟨t, ht, hu⟩ := bind_ok hu
  obtain ⟨t', ht', hu'⟩ := bind_ok hu'
  exact hf t t' (h t t' ht ht') u u' hu hu'

theorem bothLead_checkSequence {b b' : Bool} {t t' : State} {R : State → State → Prop} (h : R t t') :
    BothLead (checkSequence b >>= fun _ => .ok t) (checkSequence b' >>= fun _ => .ok t') R := by
  intro u u' hu hu'
  obtain ⟨_, -, hu⟩ := bind_ok hu
  obtain ⟨_, -, hu'⟩ := bind_ok hu'
  cases hu
  cases hu'
  exact h

/-! ### What two runs share -/

/-- The two states have the same legal SYM and the same cells. -/
structure SameCells (t t' : State) : Prop where
  legal : SymLegal t
  sym : t'.sym = t.sym
  cells : ∀ r c, r < 41 → c < 64 → t'.cell r c = t.cell r c

/-- As `SameCells`, with the same codeword stream in CBUF. -/
structure SameSymbol (t t' : State) : Prop extends SameCells t t' where
  stream : streamBits t' = streamBits t

/-- A write to the buffers keeps every cell. -/
theorem State.cell_writeBytes_buffer (t : State) {base : Nat} {bs : List Byte} (h : InBuffers base bs.length)
    (r c : Nat) : (t.writeBytes base bs).cell r c = t.cell r c := by
  refine t.bytesKept_writeBytes base bs _ fun ⟨_, hlt⟩ => ?_
  have hlt : matBase + 64 * r + c < base + bs.length := hlt
  have hend : base + bs.length ≤ 0x600 := h.2
  unfold matBase at hlt
  omega

/-- CBUF lies outside MAT, so a stamp keeps the stream. -/
theorem streamBits_stampSymbol {t : State} (hsym : SymLegal t) (f : Nat → Nat → Option Byte) (m : MState) :
    streamBits ((t.stampSymbol f).setMState m) = streamBits t := by
  have hle := tcw_le t.ver (State.ver_mem_versions hsym)
  have hkept : BytesKept t (t.stampSymbol f) InMat := t.bytesKept_stamp _
  refine congrArg bitsOfBytes (readBytes_of_bytesKept hkept fun i hi hin => ?_)
  have hi : i < tcw t.ver := hi
  have hin : 0x1000 ≤ cbufBase + i := hin.1
  unfold cbufBase at hin
  omega

section Steps
variable {t t' : State}

theorem SameCells.size (h : SameCells t t') : t'.size = t.size := congrArg (fun y : Sym => y.size.toNat) h.sym
theorem SameCells.ver (h : SameCells t t') : t'.ver = t.ver := congrArg (fun y : Sym => y.ver.toNat) h.sym
theorem SameCells.ecl (h : SameCells t t') : t'.ecl = t.ecl := congrArg (fun y : Sym => y.ecl.toNat) h.sym

theorem SameCells.legal' (h : SameCells t t') : SymLegal t' := by
  rw [SymLegal, h.size, h.ver, h.ecl]
  exact h.legal

theorem SameCells.symCells (h : SameCells t t') : t'.symCells = t.symCells := by
  obtain ⟨-, h41⟩ := State.size_bounds h.legal
  rw [t'.symCells_eq_matrixOf, t.symCells_eq_matrixOf, h.size]
  refine List.map_congr_left fun r hr => List.map_congr_left fun c hc => ?_
  rw [List.mem_range] at hr hc
  exact h.cells r c (by omega) (by omega)

/-- The same values stamped on the same cells. -/
theorem SameSymbol.stampSymbol (h : SameSymbol t t') {f f' : Nat → Nat → Option Byte}
    (hf : ∀ r c, r < t.size → c < t.size → f' r c = f r c) (m : MState) :
    SameSymbol ((t.stampSymbol f).setMState m) ((t'.stampSymbol f').setMState m) := by
  refine ⟨⟨h.legal, h.sym, fun r c hr hc => ?cells⟩, ?stream⟩
  case cells =>
    have ht := t.cell_stampSymbol f r c hr hc
    have ht' := t'.cell_stampSymbol f' r c hr hc
    rw [h.size, h.cells r c hr hc] at ht'
    refine ht'.trans (Eq.trans ?_ ht.symm)
    split
    next hin => rw [hf r c hin.1 hin.2]
    next => rfl
  case stream =>
    rw [streamBits_stampSymbol h.legal]
    exact (streamBits_stampSymbol h.legal' f' m).trans h.stream

/-! ### The codewords -/

/-- The two states have the same data codewords in DBUF, beside SYM and cells. -/
structure SameCodewords (t t' : State) : Prop extends SameCells t t' where
  codewords : t'.dataCodewords = t.dataCodewords

/-- DBUF holds the packed codewords. -/
theorem State.inBuffers_packedCodewords (hfit : t.plen.toNat + 2 ≤ dcap t.ver t.ecl) :
    InBuffers dbufBase t.packedCodewords.length := by
  rw [State.length_packedCodewords hfit]
  exact t.inBuffers_dbuf

/-- What PACK wrote is what ECCIL reads. -/
theorem State.dataCodewords_writeBytes_packed (hfit : t.plen.toNat + 2 ≤ dcap t.ver t.ecl) :
    (t.writeBytes dbufBase t.packedCodewords).dataCodewords = t.packedCodewords := by
  have hread := t.readBytes_writeBytes_buffer (State.inBuffers_packedCodewords hfit)
  rwa [State.length_packedCodewords hfit] at hread

/-- PACK writes codewords that depend on SYM and the payload alone. -/
theorem bothLead_cmdPack (h : SameCells t t') (hplen : t'.plen = t.plen)
    (hpayload : t'.readBytes pbufBase t'.plen.toNat = t.readBytes pbufBase t.plen.toNat)
    (hfit : t.plen.toNat + 2 ≤ dcap t.ver t.ecl) : BothLead (cmdPack t) (cmdPack t') SameCodewords := by
  have hfit' : t'.plen.toNat + 2 ≤ dcap t'.ver t'.ecl := by rwa [hplen, h.ver, h.ecl]
  have hpacked : t'.packedCodewords = t.packedCodewords := by
    rw [State.packedCodewords, State.messageCodewords, hpayload, h.ver, h.ecl]
    rfl
  have hcells := t.cell_writeBytes_buffer (State.inBuffers_packedCodewords hfit)
  have hcells' := t'.cell_writeBytes_buffer (State.inBuffers_packedCodewords hfit')
  intro u u' hu hu'
  rw [cmdPack_of_fits hfit] at hu
  rw [cmdPack_of_fits hfit'] at hu'
  cases hu
  cases hu'
  exact ⟨⟨h.legal, h.sym, fun r c hr hc => (hcells' r c).trans ((h.cells r c hr hc).trans (hcells r c).symm)⟩,
    (State.dataCodewords_writeBytes_packed hfit').trans
      (hpacked.trans (State.dataCodewords_writeBytes_packed hfit).symm)⟩

theorem State.inBuffers_finalCodewords (hsym : SymLegal t) : InBuffers cbufBase t.finalCodewords.length := by
  have hle := tcw_le t.ver (State.ver_mem_versions hsym)
  rw [State.length_finalCodewords hsym]
  unfold InBuffers cbufBase
  omega

/-- What ECCIL wrote is the stream PLACE reads. -/
theorem State.streamBits_writeBytes_final (hsym : SymLegal t) :
    streamBits (t.writeBytes cbufBase t.finalCodewords) = bitsOfBytes t.finalCodewords := by
  have hread := t.readBytes_writeBytes_buffer (State.inBuffers_finalCodewords hsym)
  rw [State.length_finalCodewords hsym] at hread
  exact congrArg bitsOfBytes hread

/-- ECCIL writes a stream that depends on SYM and the data codewords alone. -/
theorem bothLead_cmdEccil (h : SameCodewords t t') : BothLead (cmdEccil t) (cmdEccil t') SameSymbol := by
  have hfinal : t'.finalCodewords = t.finalCodewords := by
    rw [State.finalCodewords, h.codewords, h.ver, h.ecl]
    rfl
  have hcells := t.cell_writeBytes_buffer (State.inBuffers_finalCodewords h.legal)
  have hcells' := t'.cell_writeBytes_buffer (State.inBuffers_finalCodewords h.legal')
  intro u u' hu hu'
  cases hu
  cases hu'
  exact ⟨⟨h.legal, h.sym, fun r c hr hc => (hcells' r c).trans ((h.cells r c hr hc).trans (hcells r c).symm)⟩,
    (State.streamBits_writeBytes_final h.legal').trans
      ((congrArg bitsOfBytes hfinal).trans (State.streamBits_writeBytes_final h.legal).symm)⟩

/-! ### The symbol -/

theorem bothLead_cmdStfind (h : SameSymbol t t') : BothLead (cmdStfind t) (cmdStfind t') SameSymbol :=
  bothLead_checkSequence (h.stampSymbol (fun _ _ _ _ => by rw [h.size]) _)

theorem bothLead_cmdStalign (h : SameSymbol t t') : BothLead (cmdStalign t) (cmdStalign t') SameSymbol :=
  bothLead_checkSequence (h.stampSymbol (fun _ _ _ _ => by rw [h.ver]) _)

theorem SameSymbol.cell_eq (h : SameSymbol t t') {r c : Nat} (hr : r < t.size) (hc : c < t.size) :
    t'.cell r c = t.cell r c := by
  obtain ⟨-, h41⟩ := State.size_bounds h.legal
  exact h.cells r c (by omega) (by omega)

theorem bothLead_cmdSttime (h : SameSymbol t t') : BothLead (cmdSttime t) (cmdSttime t') SameSymbol :=
  bothLead_checkSequence
    (h.stampSymbol (fun r c hr hc => by rw [timingCell, timingCell, h.cell_eq hr hc]) _)

theorem bothLead_cmdRsvfmt (h : SameSymbol t t') : BothLead (cmdRsvfmt t) (cmdRsvfmt t') SameSymbol :=
  bothLead_checkSequence (h.stampSymbol (fun _ _ _ _ => by rw [h.size]) _)

theorem bothLead_cmdPlace (h : SameSymbol t t') : BothLead (cmdPlace t) (cmdPlace t') SameSymbol := by
  have hcells : ∀ r c, r < t.size → c < t.size →
      (valueIn t'.placedCells r c).map (setV (t'.symCells.at r c)) =
        (valueIn t.placedCells r c).map (setV (t.symCells.at r c)) := fun r c _ _ => by
    rw [State.placedCells, h.size, h.symCells, h.stream]
    rfl
  obtain ⟨⟨hlegal, hsym, hcell⟩, hstream⟩ := h.stampSymbol hcells .data
  exact bothLead_checkSequence ⟨⟨hlegal, hsym, hcell⟩, hstream⟩

/-- As `SameSymbol`, with the same scores. -/
structure SameScored (t t' : State) : Prop extends SameSymbol t t' where
  scores : t'.scores = t.scores

theorem cmdMasksel_eq {b : Nat} (hbest : bestMask t.maskScore = (b, t.maskScore b)) :
    cmdMasksel t = checkSequence (t.status.mstate == .data) >>= fun _ => .ok (t.selectMask b) := by
  have hpair : (bestMask fun k => (candidateScores t.size t.symCells).getD k 0) = (b, t.maskScore b) := hbest
  rw [cmdMasksel]
  simp only [hpair]
  rfl

/-- The candidates, and so their scores and the choice, depend on the symbol alone. -/
theorem bothLead_cmdMasksel (h : SameSymbol t t') : BothLead (cmdMasksel t) (cmdMasksel t') SameScored := by
  have hscore : t'.maskScore = t.maskScore := by
    funext k
    rw [State.maskScore, h.size, h.symCells]
    rfl
  obtain ⟨b, hbest, -⟩ := exists_bestMask_eq t.maskScore
  have hbest' : bestMask t'.maskScore = (b, t'.maskScore b) := by rw [hscore, hbest]
  obtain ⟨⟨hlegal, hsym, hcell⟩, hstream⟩ :=
    h.stampSymbol (f := maskWrite b t.symCells) (f' := maskWrite b t'.symCells)
      (fun _ _ _ _ => by rw [h.symCells]) .masked
  have hsym' : (t'.selectMask b).sym = (t.selectMask b).sym :=
    congrArg (fun y : Sym => { y with mask := BitVec.ofNat 3 b }) h.sym
  rw [cmdMasksel_eq hbest, cmdMasksel_eq hbest']
  exact bothLead_checkSequence ⟨⟨⟨hlegal, hsym', hcell⟩, hstream⟩, congrArg scoreRegs hscore⟩

theorem bothLead_cmdFmtwr (h : SameScored t t') : BothLead (cmdFmtwr t) (cmdFmtwr t') SameScored := by
  have hcells : ∀ r c, r < t.size → c < t.size →
      (valueIn (formatWrites t'.size t'.formatWord) r c).map (setV (t'.cell r c)) =
        (valueIn (formatWrites t.size t.formatWord) r c).map (setV (t.cell r c)) := fun r c hr hc => by
    rw [State.formatWord, h.size, h.ecl, h.sym, h.cell_eq hr hc]
    rfl
  obtain ⟨⟨hlegal, hsym, hcell⟩, hstream⟩ := h.stampSymbol hcells .final
  exact bothLead_checkSequence ⟨⟨⟨hlegal, hsym, hcell⟩, hstream⟩, h.scores⟩

end Steps

/-! ### Two runs of GENERATE -/

/-- Two new symbol contexts of one version and level agree on SYM and on the cleared cells. -/
theorem sameCells_startSymbol (s s' : State) {v e : Nat} (hv : 1 ≤ v ∧ v ≤ 6) (he : e ≤ 3) :
    SameCells (s.startSymbol v e) (s'.startSymbol v e) :=
  ⟨symLegal_startSymbol s v e hv he, rfl, fun r c hr hc =>
    (s'.cell_clearMat r c hr hc).trans (s.cell_clearMat r c hr hc).symm⟩

/-- MAT lies outside PBUF, so a new symbol context keeps the payload. -/
theorem readBytes_pbuf_startSymbol (s : State) (v e : Nat) :
    (s.startSymbol v e).readBytes pbufBase s.plen.toNat = s.readBytes pbufBase s.plen.toNat := by
  have hkept : BytesKept s (s.startSymbol v e) InMat := s.bytesKept_stamp _
  have hplen := s.plen.isLt
  refine readBytes_of_bytesKept hkept fun i hi hin => ?_
  have hin : 0x1000 ≤ pbufBase + i := hin.1
  unfold pbufBase at hin
  omega

/-- The steps of GENERATE on two states with the same payload leave the same symbol and scores. -/
theorem bothLead_generateSteps {ecl : BitVec 3} {s s' : State} {v : Nat} (hl : ecl.toNat ≤ 3)
    (hsmall : SmallestVersion s.plen.toNat ecl.toNat v) (hplen : s'.plen = s.plen)
    (hpayload : ∀ i, i < s.plen.toNat → s'.readByte (0x100 + i) = s.readByte (0x100 + i)) :
    BothLead (generateSteps ecl s) (generateSteps ecl s') SameScored := by
  have hsmall' : SmallestVersion s'.plen.toNat ecl.toNat v := hplen ▸ hsmall
  rw [generateSteps, generateSteps, cmdSelver_of_level s hl, cmdSelver_of_level s' hl,
    selectVersion_of_smallest hsmall, selectVersion_of_smallest hsmall']
  obtain ⟨hv, hfit, -⟩ := hsmall
  have hstart := sameCells_startSymbol s s' hv hl
  have hread : s'.readBytes pbufBase s'.plen.toNat = s.readBytes pbufBase s.plen.toNat := by
    rw [hplen, State.readBytes_eq, State.readBytes_eq]
    exact List.map_congr_left fun i hi => hpayload i (List.mem_range.mp hi)
  have hpbuf := (readBytes_pbuf_startSymbol s' v ecl.toNat).trans
    (hread.trans (readBytes_pbuf_startSymbol s v ecl.toNat).symm)
  have hver : (s.startSymbol v ecl.toNat).ver = v := Nat.mod_eq_of_lt (by omega)
  have hecl : (s.startSymbol v ecl.toNat).ecl = ecl.toNat := Nat.mod_eq_of_lt ecl.isLt
  have hpack := bothLead_cmdPack hstart hplen hpbuf (by rw [hver, hecl]; exact hfit)
  refine hpack.bind fun _ _ h => (bothLead_cmdEccil h).bind fun _ _ h => ?_
  refine (bothLead_cmdStfind h).bind fun _ _ h => (bothLead_cmdStalign h).bind fun _ _ h => ?_
  refine (bothLead_cmdSttime h).bind fun _ _ h => (bothLead_cmdRsvfmt h).bind fun _ _ h => ?_
  refine (bothLead_cmdPlace h).bind fun _ _ h => (bothLead_cmdMasksel h).bind fun _ _ h => ?_
  exact bothLead_cmdFmtwr h

/-- Settles O45: each step depends on what the two runs share, from the payload to the finished symbol. -/
theorem generateDependsOnPayloadAlone : Obligations.GenerateDependsOnPayloadAlone := by
  unfold Obligations.GenerateDependsOnPayloadAlone
  intro ecl s s' v hl hsmall hplen hpayload
  have hsmall' : SmallestVersion s'.plen.toNat ecl.toNat v := hplen ▸ hsmall
  obtain ⟨g, hg, -⟩ := reaches_generateSteps hl hsmall
  obtain ⟨g', hg', -⟩ := reaches_generateSteps hl hsmall'
  have hsame := bothLead_generateSteps hl hsmall hplen hpayload g g' hg hg'
  exact ⟨_, _, exec_generate_of_steps hl hsmall hg, exec_generate_of_steps hl hsmall' hg', hsame.sym, hsame.scores,
    hsame.cells⟩

end Sys2Proof.Machine
end
